-- ==== Sys2Proof/Word.lean ====
section
/-! DEFINITION. The word types of the engine (00_scope.md R7, R10; 30_encoding.md R80 to R83). -/

namespace Sys2Proof

/-- One byte of `BUF` (10_state.md R26). -/
abbrev Byte := BitVec 8

/-- A 32-bit word: a command word, a window register, the data of a host access (R51, R80). -/
abbrev Word := BitVec 32

/-- The content of an `F` register, a coordinate or a scalar: an unsigned number of `W = 256` bits (R7, R20). -/
abbrev Num256 := BitVec 256

/-- The number of an `F` register, all four bits of its field (R82). -/
abbrev FReg := BitVec 4

/-- The number of a `PT` register, the low three bits of its field (R82). -/
abbrev PReg := BitVec 3

/-- A byte address in `BUF` as a command gives it, 0 to 127 (R83). -/
abbrev Off := BitVec 7

/-- The immediate of `FLI`, 0 to 4095 (R83). -/
abbrev Imm12 := BitVec 12

end Sys2Proof
end

