-- ==== Sys2Proof/Config.lean ====
section
/-! DEFINITION. The parameters of the step relation, which are not state (00_scope.md R5, R7 to R9). -/

namespace Sys2Proof

/-- The curve parameter set `CURVE` = (p, a, b, Gx, Gy, r) of R2 (a) and R25. -/
structure Curve where
  /-- the prime field modulus -/
  p : Nat
  /-- the coefficient of `x` -/
  a : Nat
  /-- the constant coefficient -/
  b : Nat
  /-- x of the base point -/
  gx : Nat
  /-- y of the base point -/
  gy : Nat
  /-- the order of the base point -/
  r : Nat
deriving DecidableEq, Repr

/-- The two layouts of the offset-carrying prefix byte (43_codec.md R162). -/
inductive PfxLayout where
  /-- offset in bits 6:0, parity in bit 7 -/
  | offsetLow
  /-- parity in bit 0, offset in bits 7:1 -/
  | parityLow
deriving DecidableEq, Repr

namespace Config

/-- Width in bits of a field element, a coordinate and a scalar (R7). -/
def width : Nat := 256

/-- `NF`, the number of `F` registers (R7). -/
def numF : Nat := 16

/-- `NP`, the number of `PT` registers (R7). -/
def numP : Nat := 8

/-- `BUFSIZE`, the bytes of `BUF` (R7). -/
def bufSize : Nat := 128

/-- `MAXOFF`, the bound of the offset search of `recover_y` (R7). -/
def maxOff : Nat := 128

/-- `NCURVES`, the number of curve parameter sets (R7). -/
def numCurves : Nat := 1

/-- The value of `CURVE` that R7 gives this hardware: secp256k1, the six numbers of R9. DESIGN CHOICE (log entry 1): R7
lets a model keep the parameter as an argument; the functions of the model take it as one, and the machine runs them
at this value. -/
def curve : Curve where
  p := 0xFFFFFFFFFFFFFFFFFFFFFFFFFFFFFFFFFFFFFFFFFFFFFFFFFFFFFFFEFFFFFC2F
  a := 0
  b := 7
  gx := 0x79BE667EF9DCBBAC55A06295CE870B07029BFCDB2DCE28D959F2815B16F81798
  gy := 0x483ADA7726A3C4655DA4FBFC0E1108A8FD17B448A68554199C47D08FFB10D4B8
  r := 0xFFFFFFFFFFFFFFFFFFFFFFFFFFFFFFFEBAAEDCE6AF48A03BBFD25E8CD0364141

/-- The value of `PFX_LAYOUT` that R7 and R162 give this hardware: `OFFSET_LOW`. DESIGN CHOICE (log entry 2): the machine
runs at this value; both layouts are modelled. -/
def pfxLayout : PfxLayout := .offsetLow

end Config
end Sys2Proof
end

