-- ==== Sys2Proof/Syntax.lean ====
section
/-! DEFINITION. The 27 commands (30_encoding.md R86), the five fields of a command word (R81), and which fields each
opcode uses (the columns of R86). -/

namespace Sys2Proof

/-- The commands, one constructor per row of the opcode map R86; operands in assembler order (R88). -/
inductive Instr where
  /-- `LDF Fd, off` (R100) -/
  | ldf (d : FReg) (off : Off)
  /-- `STF Fa, off` (R101) -/
  | stf (a : FReg) (off : Off)
  /-- `FLI Fd, imm12` (R102) -/
  | fli (d : FReg) (imm : Imm12)
  /-- `FMOV Fd, Fa` (R103) -/
  | fmov (d a : FReg)
  /-- `FADD Fd, Fa, Fb` (R112) -/
  | fadd (d a b : FReg)
  /-- `FSUB Fd, Fa, Fb` (R113) -/
  | fsub (d a b : FReg)
  /-- `FNEG Fd, Fa` (R114) -/
  | fneg (d a : FReg)
  /-- `FMUL Fd, Fa, Fb` (R115) -/
  | fmul (d a b : FReg)
  /-- `FINV Fd, Fa` (R116) -/
  | finv (d a : FReg)
  /-- `FSQRT Fd, Fa` (R117) -/
  | fsqrt (d a : FReg)
  /-- `PINF Pd` (R133) -/
  | pinf (d : PReg)
  /-- `PLDG Pd` (R134) -/
  | pldg (d : PReg)
  /-- `PMK Pd, Fa, Fb` (R135) -/
  | pmk (d : PReg) (a b : FReg)
  /-- `PMOV Pd, Pa` (R136) -/
  | pmov (d a : PReg)
  /-- `PGETX Fd, Pa` (R137) -/
  | pgetx (d : FReg) (a : PReg)
  /-- `PGETY Fd, Pa` (R138) -/
  | pgety (d : FReg) (a : PReg)
  /-- `PCHK Fa, Fb` (R139) -/
  | pchk (a b : FReg)
  /-- `PEQ Pa, Pb` (R141) -/
  | peq (a b : PReg)
  /-- `PNEG Pd, Pa` (R143) -/
  | pneg (d a : PReg)
  /-- `PDBL Pd, Pa` (R145) -/
  | pdbl (d a : PReg)
  /-- `PADD Pd, Pa, Pb` (R147) -/
  | padd (d a b : PReg)
  /-- `PSMUL Pd, Pa, Fb` (R148) -/
  | psmul (d a : PReg) (b : FReg)
  /-- `PSER Pa, off, m` (R163); `m = true` is the compressed form -/
  | pser (a : PReg) (off : Off) (m : Bool)
  /-- `PDES Pd, off` (R165) -/
  | pdes (d : PReg) (off : Off)
  /-- `RECY Pd, Fa, m` (R166); `m` is `want_odd` -/
  | recy (d : PReg) (a : FReg) (m : Bool)
  /-- `PFXE off` (R168) -/
  | pfxe (off : Off)
  /-- `PFXD off` (R169) -/
  | pfxd (off : Off)
deriving DecidableEq, Repr

/-- The pseudo-instruction `FSQR Fd, Fa` (R89). -/
def Instr.fsqr (d a : FReg) : Instr := .fmul d a a

/-- The five fields of a command word (R81). -/
structure Fields where
  op : BitVec 8
  rd : BitVec 4
  ra : BitVec 4
  rb : BitVec 4
  imm : BitVec 12
deriving DecidableEq, Repr

/-- What a register field names (R82): nothing (the field must be zero), an `F` register, a `PT` register. -/
inductive RegUse where
  | unused
  | freg
  | preg
deriving DecidableEq, Repr

/-- What the `imm` field holds (R81): nothing (format R), `imm12` (format I), or `off` and `m` as the command uses
them (format B). -/
inductive ImmUse where
  | zero
  | imm12
  | buf (off m : Bool)
deriving DecidableEq, Repr

/-- The use of the four operand fields: the columns `rd`, `ra`, `rb`, `imm` of R86. -/
structure Shape where
  rd : RegUse
  ra : RegUse
  rb : RegUse
  imm : ImmUse
deriving DecidableEq, Repr

/-- The operand columns of the opcode map R86, `none` for an opcode it does not list. -/
def shapeOf (op : BitVec 8) : Option Shape :=
  match op.toNat with
  | 0x10 => some ⟨.freg, .unused, .unused, .buf true false⟩
  | 0x11 => some ⟨.unused, .freg, .unused, .buf true false⟩
  | 0x12 => some ⟨.freg, .unused, .unused, .imm12⟩
  | 0x13 => some ⟨.freg, .freg, .unused, .zero⟩
  | 0x20 => some ⟨.freg, .freg, .freg, .zero⟩
  | 0x21 => some ⟨.freg, .freg, .freg, .zero⟩
  | 0x22 => some ⟨.freg, .freg, .unused, .zero⟩
  | 0x23 => some ⟨.freg, .freg, .freg, .zero⟩
  | 0x24 => some ⟨.freg, .freg, .unused, .zero⟩
  | 0x25 => some ⟨.freg, .freg, .unused, .zero⟩
  | 0x30 => some ⟨.preg, .unused, .unused, .zero⟩
  | 0x31 => some ⟨.preg, .unused, .unused, .zero⟩
  | 0x32 => some ⟨.preg, .freg, .freg, .zero⟩
  | 0x33 => some ⟨.preg, .preg, .unused, .zero⟩
  | 0x34 => some ⟨.freg, .preg, .unused, .zero⟩
  | 0x35 => some ⟨.freg, .preg, .unused, .zero⟩
  | 0x36 => some ⟨.unused, .freg, .freg, .zero⟩
  | 0x37 => some ⟨.unused, .preg, .preg, .zero⟩
  | 0x38 => some ⟨.preg, .preg, .unused, .zero⟩
  | 0x39 => some ⟨.preg, .preg, .unused, .zero⟩
  | 0x3A => some ⟨.preg, .preg, .preg, .zero⟩
  | 0x3B => some ⟨.preg, .preg, .freg, .zero⟩
  | 0x40 => some ⟨.unused, .preg, .unused, .buf true true⟩
  | 0x41 => some ⟨.preg, .unused, .unused, .buf true false⟩
  | 0x42 => some ⟨.preg, .freg, .unused, .buf false true⟩
  | 0x43 => some ⟨.unused, .unused, .unused, .buf true false⟩
  | 0x44 => some ⟨.unused, .unused, .unused, .buf true false⟩
  | _ => none

end Sys2Proof
end

