-- ==== Sys2Proof/WellFormed.lean ====
section
/-! DEFINITION. Which command fields are well formed (30_encoding.md R81, R82), and the decidable part of the
constraints on `CURVE` (00_scope.md R8).

The operands of `Instr` are bit vectors of the width their field has (four bits for an `F` register, three for a
`PT` register, seven for `off`, twelve for `imm12`, one for `m`: R82, R83), so that no ill-formed operand can be
built; what can be ill formed is the command WORD, that is, its five fields, and that is what is checked here. -/

namespace Sys2Proof

/-- A register field is well formed (R82): an unused one is `0000`, the top bit of one that names a `PT` register
is 0, one that names an `F` register may hold anything. -/
def RegUse.ok (u : RegUse) (field : BitVec 4) : Bool :=
  match u with
  | .unused => field == 0#4
  | .freg => true
  | .preg => !field.getLsbD 3

/-- The immediate field is well formed (R81): all zero in format R; anything in format I; in format B bits 11:9
and 7 are 0, and `off` (bits 6:0) or `m` (bit 8) is 0 in a command that does not use it. -/
def ImmUse.ok (u : ImmUse) (field : BitVec 12) : Bool :=
  match u with
  | .zero => field == 0#12
  | .imm12 => true
  | .buf off m =>
    field.extractLsb' 9 3 == 0#3 && !field.getLsbD 7 && (off || field.extractLsb' 0 7 == 0#7) &&
      (m || !field.getLsbD 8)

/-- The fields follow the shape of their opcode. -/
def Shape.ok (sh : Shape) (f : Fields) : Bool :=
  sh.rd.ok f.rd && sh.ra.ok f.ra && sh.rb.ok f.rb && sh.imm.ok f.imm

/-- The five fields are those of a command (R81, R82, R86): the opcode is listed and every field is well formed.
A word whose fields are not is illegal (R85). -/
def Fields.wf (f : Fields) : Bool :=
  match shapeOf f.op with
  | none => false
  | some sh => sh.ok f

/-- The constraints of R8 that a program can check: the ranges, `p mod 4 = 3`, the base point on the curve, and the
curve non-singular. That `p` is prime and `r · G = Infinity` are in `LawfulCurve` (Sys2Proof/Safety.lean). -/
def Curve.wf (c : Curve) : Bool :=
  3 ≤ c.p && c.p < 2 ^ 256 && c.p % 4 == 3 &&
    (c.a < c.p && c.b < c.p && c.gx < c.p && c.gy < c.p) &&
    (1 ≤ c.r && c.r < 2 ^ 256) &&
    c.gy ^ 2 % c.p == (c.gx ^ 3 + c.a * c.gx + c.b) % c.p &&
    (4 * c.a ^ 3 + 27 * c.b ^ 2) % c.p != 0

end Sys2Proof
end

