-- ==== Sys2Proof/Decode.lean ====
section
/-! DEFINITION. Decoding by match and mask (30_encoding.md R84, R86), total and rejecting by name (R85), and after it
the encoder, written from the field positions of R81 and R82. -/

namespace Sys2Proof

/-- Why a word spells no command (R84, R85). -/
inductive DecodeError where
  /-- the `op` field is not in the opcode map R86 -/
  | unassignedOpcode
  /-- the opcode is listed, and a bit that its mask requires to be 0 is 1 -/
  | nonzeroReserved
deriving DecidableEq, Repr

/-- The five fields of a word (R81): `op` 31:24, `rd` 23:20, `ra` 19:16, `rb` 15:12, `imm` 11:0. -/
def Fields.ofWord (w : Word) : Fields where
  op := w.extractLsb' 24 8
  rd := w.extractLsb' 20 4
  ra := w.extractLsb' 16 4
  rb := w.extractLsb' 12 4
  imm := w.extractLsb' 0 12

/-- The word with the given fields (R81). -/
def Fields.toWord (f : Fields) : Word :=
  f.op ++ f.rd ++ f.ra ++ f.rb ++ f.imm

/-- The `F` register that a field names: all four bits (R82). -/
def fregOf (field : BitVec 4) : FReg := field

/-- The `PT` register that a field names: its low three bits (R82). -/
def pregOf (field : BitVec 4) : PReg := field.extractLsb' 0 3

/-- `off`: bits 6:0 of `imm` (R81). -/
def offOf (imm : BitVec 12) : Off := imm.extractLsb' 0 7

/-- `m`: bit 8 of `imm` (R81). -/
def modeOf (imm : BitVec 12) : Bool := imm.getLsbD 8

/-- One row of the opcode map: the opcode, the mask printed in R86, and the command that the fields spell. -/
structure Row where
  op : BitVec 8
  mask : Word
  build : Fields → Instr

/-- `match` of a row: `op << 24` (R84). -/
def Row.matchWord (r : Row) : Word := r.op ++ 0#24

/-- The opcode map R86, row for row, with the masks as it prints them. -/
def opcodeTable : List Row :=
  [ ⟨0x10, 0xFF0FFF80, fun f => .ldf (fregOf f.rd) (offOf f.imm)⟩,
    ⟨0x11, 0xFFF0FF80, fun f => .stf (fregOf f.ra) (offOf f.imm)⟩,
    ⟨0x12, 0xFF0FF000, fun f => .fli (fregOf f.rd) f.imm⟩,
    ⟨0x13, 0xFF00FFFF, fun f => .fmov (fregOf f.rd) (fregOf f.ra)⟩,
    ⟨0x20, 0xFF000FFF, fun f => .fadd (fregOf f.rd) (fregOf f.ra) (fregOf f.rb)⟩,
    ⟨0x21, 0xFF000FFF, fun f => .fsub (fregOf f.rd) (fregOf f.ra) (fregOf f.rb)⟩,
    ⟨0x22, 0xFF00FFFF, fun f => .fneg (fregOf f.rd) (fregOf f.ra)⟩,
    ⟨0x23, 0xFF000FFF, fun f => .fmul (fregOf f.rd) (fregOf f.ra) (fregOf f.rb)⟩,
    ⟨0x24, 0xFF00FFFF, fun f => .finv (fregOf f.rd) (fregOf f.ra)⟩,
    ⟨0x25, 0xFF00FFFF, fun f => .fsqrt (fregOf f.rd) (fregOf f.ra)⟩,
    ⟨0x30, 0xFF8FFFFF, fun f => .pinf (pregOf f.rd)⟩,
    ⟨0x31, 0xFF8FFFFF, fun f => .pldg (pregOf f.rd)⟩,
    ⟨0x32, 0xFF800FFF, fun f => .pmk (pregOf f.rd) (fregOf f.ra) (fregOf f.rb)⟩,
    ⟨0x33, 0xFF88FFFF, fun f => .pmov (pregOf f.rd) (pregOf f.ra)⟩,
    ⟨0x34, 0xFF08FFFF, fun f => .pgetx (fregOf f.rd) (pregOf f.ra)⟩,
    ⟨0x35, 0xFF08FFFF, fun f => .pgety (fregOf f.rd) (pregOf f.ra)⟩,
    ⟨0x36, 0xFFF00FFF, fun f => .pchk (fregOf f.ra) (fregOf f.rb)⟩,
    ⟨0x37, 0xFFF88FFF, fun f => .peq (pregOf f.ra) (pregOf f.rb)⟩,
    ⟨0x38, 0xFF88FFFF, fun f => .pneg (pregOf f.rd) (pregOf f.ra)⟩,
    ⟨0x39, 0xFF88FFFF, fun f => .pdbl (pregOf f.rd) (pregOf f.ra)⟩,
    ⟨0x3A, 0xFF888FFF, fun f => .padd (pregOf f.rd) (pregOf f.ra) (pregOf f.rb)⟩,
    ⟨0x3B, 0xFF880FFF, fun f => .psmul (pregOf f.rd) (pregOf f.ra) (fregOf f.rb)⟩,
    ⟨0x40, 0xFFF8FE80, fun f => .pser (pregOf f.ra) (offOf f.imm) (modeOf f.imm)⟩,
    ⟨0x41, 0xFF8FFF80, fun f => .pdes (pregOf f.rd) (offOf f.imm)⟩,
    ⟨0x42, 0xFF80FEFF, fun f => .recy (pregOf f.rd) (fregOf f.ra) (modeOf f.imm)⟩,
    ⟨0x43, 0xFFFFFF80, fun f => .pfxe (offOf f.imm)⟩,
    ⟨0x44, 0xFFFFFF80, fun f => .pfxd (offOf f.imm)⟩ ]

/-- The row whose `op` equals the word's opcode, if there is one (R84). -/
def rowOf (op : BitVec 8) : Option Row :=
  opcodeTable.find? (fun r => r.op == op)

/-- Decoding (R84): the row with the word's opcode, then `w & mask == match`; every word spells exactly one command
or is rejected by name. -/
def decode (w : Word) : Except DecodeError Instr :=
  match rowOf (Fields.ofWord w).op with
  | none => .error .unassignedOpcode
  | some r =>
    if w &&& r.mask = r.matchWord then .ok (r.build (Fields.ofWord w)) else .error .nonzeroReserved

/-- The instruction the decoder reads from an instruction whose `nbits` bits are `w`; every command is one 32-bit
word (R80), and the bits above `nbits` are 0. -/
def decodeTableWord (nbits w : Nat) : Option Instr :=
  (decode (BitVec.ofNat 32 (w % 2 ^ nbits))).toOption

/-- The field that names an `F` register (R82). -/
def fregField (r : FReg) : BitVec 4 := r

/-- The field that names a `PT` register: its top bit is 0 (R82). -/
def pregField (r : PReg) : BitVec 4 := 0#1 ++ r

/-- The `imm` field of format B (R81): bits 11:9 zero, `m` in bit 8, bit 7 zero, `off` in bits 6:0. -/
def bufField (off : Off) (m : Bool) : BitVec 12 := 0#3 ++ BitVec.ofBool m ++ 0#1 ++ off

/-- The fields of a command (R81, R86): the opcode, the register numbers where the row has them, 0 elsewhere. -/
def Instr.fields : Instr → Fields
  | .ldf d off => ⟨0x10, fregField d, 0, 0, bufField off false⟩
  | .stf a off => ⟨0x11, 0, fregField a, 0, bufField off false⟩
  | .fli d imm => ⟨0x12, fregField d, 0, 0, imm⟩
  | .fmov d a => ⟨0x13, fregField d, fregField a, 0, 0⟩
  | .fadd d a b => ⟨0x20, fregField d, fregField a, fregField b, 0⟩
  | .fsub d a b => ⟨0x21, fregField d, fregField a, fregField b, 0⟩
  | .fneg d a => ⟨0x22, fregField d, fregField a, 0, 0⟩
  | .fmul d a b => ⟨0x23, fregField d, fregField a, fregField b, 0⟩
  | .finv d a => ⟨0x24, fregField d, fregField a, 0, 0⟩
  | .fsqrt d a => ⟨0x25, fregField d, fregField a, 0, 0⟩
  | .pinf d => ⟨0x30, pregField d, 0, 0, 0⟩
  | .pldg d => ⟨0x31, pregField d, 0, 0, 0⟩
  | .pmk d a b => ⟨0x32, pregField d, fregField a, fregField b, 0⟩
  | .pmov d a => ⟨0x33, pregField d, pregField a, 0, 0⟩
  | .pgetx d a => ⟨0x34, fregField d, pregField a, 0, 0⟩
  | .pgety d a => ⟨0x35, fregField d, pregField a, 0, 0⟩
  | .pchk a b => ⟨0x36, 0, fregField a, fregField b, 0⟩
  | .peq a b => ⟨0x37, 0, pregField a, pregField b, 0⟩
  | .pneg d a => ⟨0x38, pregField d, pregField a, 0, 0⟩
  | .pdbl d a => ⟨0x39, pregField d, pregField a, 0, 0⟩
  | .padd d a b => ⟨0x3A, pregField d, pregField a, pregField b, 0⟩
  | .psmul d a b => ⟨0x3B, pregField d, pregField a, fregField b, 0⟩
  | .pser a off m => ⟨0x40, 0, pregField a, 0, bufField off m⟩
  | .pdes d off => ⟨0x41, pregField d, 0, 0, bufField off false⟩
  | .recy d a m => ⟨0x42, pregField d, fregField a, 0, bufField 0 m⟩
  | .pfxe off => ⟨0x43, 0, 0, 0, bufField off false⟩
  | .pfxd off => ⟨0x44, 0, 0, 0, bufField off false⟩

/-- The encoder: the one word of a command (R80, R81). -/
def encode (i : Instr) : Word := i.fields.toWord

/-- An instruction is well formed when the fields it is encoded with are (R81, R82). -/
def Instr.wf (i : Instr) : Bool := i.fields.wf

/-- How R87 builds a register field's part of a mask: the whole field where it is unused, its top bit where it names
a `PT` register, nothing where it names an `F` register. -/
def RegUse.maskField : RegUse → BitVec 4
  | .unused => 0xF
  | .preg => 0x8
  | .freg => 0x0

/-- How R87 builds the immediate's part of a mask. -/
def ImmUse.maskField : ImmUse → BitVec 12
  | .zero => 0xFFF
  | .imm12 => 0x000
  | .buf off m => 0xE80 + (if off then 0x000 else 0x07F) + (if m then 0x000 else 0x100)

/-- The mask that R87 builds from the columns of R86. -/
def Shape.mask (sh : Shape) : Word :=
  0xFF#8 ++ sh.rd.maskField ++ sh.ra.maskField ++ sh.rb.maskField ++ sh.imm.maskField

end Sys2Proof
end

