-- ==== Sys2Proof/Machine/State.lean ====
section
/-! DEFINITION. The state of the machine as plain data (10_state.md R20 to R37), the host's accesses and the turns of
the agents (00_scope.md R4, 20_memory.md R51, R62), the fault causes (60_exceptions.md R180), and the state after
reset (R37). -/

namespace Sys2Proof.Machine

/-- A point value (R13): `Infinity`, or a pair of coordinates. That the coordinates are below `p` and on the curve is
the invariant R24, not part of the type. -/
inductive Point where
  | infinity
  | affine (x y : Num256)
deriving DecidableEq, Repr

/-- What a written `PT` register holds (R22): a point value and the known-order flag `ko`. -/
structure PtReg where
  val : Point
  ko : Bool
deriving DecidableEq, Repr

/-- `BUF` (R26): the bytes that are not 0x00, by address, in rising order. An address that is not listed reads 0x00,
which is what reset puts into every byte (R37; log entry 8). -/
abbrev Memory := List Host.Cell

/-- The fault causes (R180). `DomainMismatch` has its code and no command raises it (R149). -/
inductive Cause where
  | illegalCommand
  | emptyOperand
  | bufRange
  | invalidCurvePoint
  | domainMismatch
  | pointEncodingExhausted
  | notInvertible
  | verticalTangent
  | infinityOperand
  | badPrefix
deriving DecidableEq, Repr

/-- The width of a host access; only 32 bits is supported (R51, R52). -/
inductive Width where
  | w8
  | w16
  | w32
  | w64
deriving DecidableEq, Repr

/-- A host access to the window at a byte offset from its base (R50, R51). The data of a write is the 32-bit word of a
supported write; a write of another width is refused whatever its data (R52), so none is kept for it. -/
inductive Access where
  | read (width : Width) (offset : Nat)
  | write (width : Width) (offset : Nat) (data : Word)
deriving DecidableEq, Repr

/-- Whose turn is next (R4, R62): the host makes an access, the engine takes its step, the platform's reset signal
acts (R210). The model's own type (log entry 3). -/
inductive Turn where
  | host (access : Access)
  | engine
  | reset
deriving DecidableEq, Repr

/-- The whole state: what the spec gives the engine, then the two fields of the model's own that stand for the outside
world (`turns`, `reads`). `ID`, `CFG` and `CP` are constants (R5, R25, R30, R34). -/
structure State where
  /-- `F[0]` to `F[15]` (R20); `none` is Empty (R21) -/
  fregs : Vector (Option Num256) 16
  /-- `PT[0]` to `PT[7]` (R22); `none` is Empty -/
  pregs : Vector (Option PtReg) 8
  /-- `BUF` (R26) -/
  buf : Memory
  /-- `STATUS.BUSY` (R27) -/
  busy : Bool
  /-- `STATUS.FAULT` (R27) -/
  fault : Bool
  /-- `STATUS.HERR` (R27, R58) -/
  herr : Bool
  /-- `STATUS.T` (R27, R28) -/
  tflag : Bool
  /-- `STATUS.INF` (R27, R28) -/
  inf : Bool
  /-- `STATUS.OFFS` (R27, R28) -/
  offs : BitVec 7
  /-- `CMDREG` (R29) -/
  cmdreg : Word
  /-- `FCAUSE[7:0]` (R32); bits 31:8 read 0 and have no storage -/
  fcause : BitVec 8
  /-- `FINFO` (R33) -/
  finfo : Word
  /-- the model's own: the turns still to come, the next one first (log entry 3) -/
  turns : List Turn
  /-- the model's own: the words returned to host reads, newest first (log entry 5) -/
  reads : List Word
deriving DecidableEq, Repr

/-- Why a step can stop with a fault. The engine's own faults are not here: raising one is a next state (R186). -/
inductive Fault where
  /-- Raised by a host turn whose access has an offset outside the window's 4096 byte offsets (R50): an address the
  spec does not give the engine. Safe: the model stops where the platform would send the access elsewhere
  (log entry 6). No command raises it. -/
  | outsideWindow
deriving DecidableEq, Repr

/-- Why a step can be refused. -/
inductive Refusal where
  /-- Raised by the dispatch for an instruction that has no meaning yet; every instruction of this model has its
  meaning, so nothing raises it. Safe: the model stops. -/
  | notModelled (mnemonic : String)
deriving DecidableEq, Repr

/-- The machine right after reset (R37): every register Empty, `BUF` zero, `STATUS`, `CMDREG`, `FCAUSE`, `FINFO` zero.
The two fields of the model's own start empty (DESIGN CHOICE, log entries 3 and 5). -/
def State.reset : State where
  fregs := Vector.replicate 16 none
  pregs := Vector.replicate 8 none
  buf := []
  busy := false
  fault := false
  herr := false
  tflag := false
  inf := false
  offs := 0
  cmdreg := 0
  fcause := 0
  finfo := 0
  turns := []
  reads := []

end Sys2Proof.Machine
end

