-- ==== Sys2Proof/Machine/Ops.lean ====
section
/-! DEFINITION. The named operations over the register files and the buffer (00_scope.md R11), fault entry and the
return from it (60_exceptions.md R186, R189), the end of a command (R185), reset (R37, R210), and the place of the next
command (10_state.md R29). -/

namespace Sys2Proof.Machine

/-! ## Register files (R20 to R22) -/

/-- The content of `F[i]`; `none` is Empty. -/
def State.getF (s : State) (i : FReg) : Option Num256 := s.fregs[i.toNat]

/-- `F[i] <- v`. -/
def State.setF (s : State) (i : FReg) (v : Num256) : State :=
  { s with fregs := s.fregs.set i.toNat (some v) }

/-- The content of `PT[i]`; `none` is Empty. -/
def State.getPT (s : State) (i : PReg) : Option PtReg := s.pregs[i.toNat]

/-- `PT[i] <- q`. -/
def State.setPT (s : State) (i : PReg) (q : PtReg) : State :=
  { s with pregs := s.pregs.set i.toNat (some q) }

/-! ## The buffer (R11, R26, R61) -/

/-- What a byte of `BUF` that is not listed reads as: 0x00, the value reset gives every byte (R37). -/
def unlistedByte : Byte := 0

/-- The byte at address `a`. -/
def Memory.read (m : Memory) (a : Nat) : Byte :=
  match m with
  | [] => unlistedByte
  | c :: m => if c.1 = a then c.2 else Memory.read m a

/-- The buffer without an entry for `a`. -/
def Memory.erase (m : Memory) (a : Nat) : Memory := m.filter (fun c => c.1 != a)

/-- The buffer with an entry for `a` put in its place by address. -/
def Memory.insert (m : Memory) (a : Nat) (b : Byte) : Memory :=
  match m with
  | [] => [(a, b)]
  | c :: m => if a < c.1 then (a, b) :: c :: m else c :: Memory.insert m a b

/-- `BUF[a] <- b`, keeping the canonical form. -/
def Memory.write (m : Memory) (a : Nat) (b : Byte) : Memory :=
  if b = unlistedByte then m.erase a else (m.erase a).insert a b

/-- The canonical form: addresses strictly rising, every address one of `BUF`, and no entry equal to what an unlisted
address reads as. -/
abbrev Memory.wf (m : Memory) : Prop :=
  m.Pairwise (fun c d => c.1 < d.1) ∧ ∀ c ∈ m, c.1 < Config.bufSize ∧ c.2 ≠ unlistedByte

/-- `MemRead(addr, n)` (R11): the byte string `BUF[addr], ..., BUF[addr+n-1]`. -/
def Memory.readBytes (m : Memory) (addr : Nat) : (n : Nat) → List Byte
  | 0 => []
  | n + 1 => m.read addr :: Memory.readBytes m (addr + 1) n

/-- `MemWrite(addr, n, str)` (R11): the bytes of `str` to `BUF[addr]` and the addresses above it. -/
def Memory.writeBytes (m : Memory) (addr : Nat) : (str : List Byte) → Memory
  | [] => m
  | b :: rest => Memory.writeBytes (m.write addr b) (addr + 1) rest

/-- `BUF[a]`. -/
def State.readBuf (s : State) (a : Nat) : Byte := s.buf.read a

/-- `MemRead(addr, n)` (R11). -/
def State.memRead (s : State) (addr n : Nat) : List Byte := s.buf.readBytes addr n

/-- `MemWrite(addr, n, str)` (R11), `n` the length of `str`. -/
def State.memWrite (s : State) (addr : Nat) (str : List Byte) : State :=
  { s with buf := s.buf.writeBytes addr str }

/-! ## Fault entry and return (R180, R186, R189) -/

/-- The code of a cause, the value of `FCAUSE[7:0]` (R180). -/
def Cause.code : Cause → BitVec 8
  | .illegalCommand => 1
  | .emptyOperand => 2
  | .bufRange => 3
  | .invalidCurvePoint => 4
  | .domainMismatch => 5
  | .pointEncodingExhausted => 6
  | .notInvertible => 7
  | .verticalTangent => 8
  | .infinityOperand => 9
  | .badPrefix => 10

/-- Fault entry (R186): `FAULT <- 1`, `FCAUSE <- c`, `FINFO <- CMDREG`, `BUSY <- 0`, and nothing else. -/
def State.raise (s : State) (c : Cause) : State :=
  { s with fault := true, fcause := c.code, finfo := s.cmdreg, busy := false }

/-- Fault return (R189), the effect of `CTRL.FCLR` (R31): `FAULT <- 0`, `FCAUSE <- 0`, `FINFO <- 0`. -/
def State.clearFault (s : State) : State :=
  { s with fault := false, fcause := 0, finfo := 0 }

/-- The effect of `CTRL.HCLR` (R31): `HERR <- 0`. -/
def State.clearHerr (s : State) : State := { s with herr := false }

/-- A refused host access leaves this and nothing else (R58): `HERR <- 1`. -/
def State.setHerr (s : State) : State := { s with herr := true }

/-! ## The end of a command (R185) -/

/-- `BUSY <- 0`. -/
def State.endCommand (s : State) : State := { s with busy := false }

/-- One engine step in one indivisible action (R185, R186): where the command met no `raise`, the state `t` with all
its destinations written, and `BUSY <- 0`; where it raised `c`, the state `s` before the command, and fault entry. -/
def finish (s : State) (result : Except Cause State) : Host.Outcome State Fault Refusal :=
  match result with
  | .ok t => .next t.endCommand
  | .error c => .next (s.raise c)

/-- The engine step for a word that spells no command (R181). -/
def execIllegal (s : State) : Host.Outcome State Fault Refusal :=
  finish s (.error .illegalCommand)

/-! ## The command register (R29, R56) -/

/-- The command the engine executes is the one in `CMDREG`; nothing is fetched from memory (R29, R65). -/
def State.fetch (s : State) : Word := s.cmdreg

/-- An accepted `CMD` write (R56): `CMDREG <- w`, `BUSY <- 1`, nothing else. -/
def State.accept (s : State) (w : Word) : State := { s with cmdreg := w, busy := true }

/-- `s` with the command of `nbits` bits `w` (the bits above them 0) where the next step finds its command: accepted
as a `CMD` write accepts it, which needs `FAULT = 0` (R56), with no other agent's turn before the engine's
(log entry 7). -/
def State.withCommand (s : State) (nbits w : Nat) : State :=
  { s.clearFault.accept (BitVec.ofNat 32 (w % 2 ^ nbits)) with turns := [] }

/-! ## Reset (R37, R210) -/

/-- The effect of the reset signal and of `CTRL.SRST` (R31, R210): every piece of the engine's state takes its reset
value. What the outside world has still to do and has read is not the engine's and stays. -/
def State.resetEngine (s : State) : State :=
  { State.reset with turns := s.turns, reads := s.reads }

end Sys2Proof.Machine
end

