-- ==== Sys2Proof/Machine/Operands.lean ====
section
/-! DEFINITION. How a command obtains its operands: register sources, which raise `EmptyOperand` (00_scope.md R11,
60_exceptions.md R182), the range test of a buffer operand (R61, R183), immediates (30_encoding.md R83), and numbers as
byte strings (00_scope.md R11, 20_memory.md R59). -/

namespace Sys2Proof.Machine

/-- `F[i]` as a source (R11): raises `EmptyOperand` if the register is Empty. -/
def State.readF (s : State) (i : FReg) : Except Cause Num256 :=
  match s.getF i with
  | some v => .ok v
  | none => .error .emptyOperand

/-- `PT[i]` as a source (R11): raises `EmptyOperand` if the register is Empty. -/
def State.readPT (s : State) (i : PReg) : Except Cause PtReg :=
  match s.getPT i with
  | some q => .ok q
  | none => .error .emptyOperand

/-- The range test (R61, R183): `if off + n > BUFSIZE: raise BufRange`. -/
def checkRange (off n : Nat) : Except Cause Unit :=
  if off + n > Config.bufSize then .error .bufRange else .ok ()

/-- The coordinates of a point value; `Infinity` has none and raises `InfinityOperand` (R137, R163). -/
def Point.coords : Point → Except Cause (Num256 × Num256)
  | .infinity => .error .infinityOperand
  | .affine x y => .ok (x, y)

/-- `zext_256(imm12)` (R83). -/
def immValue (imm : Imm12) : Num256 := imm.setWidth 256

/-- `be(str)` (R11): the unsigned integer whose big-endian byte string is `str`. -/
def be (str : List Byte) : Nat := str.foldl (fun acc b => acc * 256 + b.toNat) 0

/-- The big-endian string of `n` bytes of `v` (its low `n` bytes, the most significant first). -/
def bytesBE : (n : Nat) → (v : Nat) → List Byte
  | 0, _ => []
  | n + 1, v => BitVec.ofNat 8 (v / 256 ^ n) :: bytesBE n v

/-- `bytes_be32(v)` (R11). -/
def bytesBE32 (v : Num256) : List Byte := bytesBE 32 v.toNat

/-- `be(MemRead(addr, 32))` as a 256-bit number (R59, R100, R164). -/
def State.readNum (s : State) (addr : Nat) : Num256 := BitVec.ofNat 256 (be (s.memRead addr 32))

end Sys2Proof.Machine
end

