-- ==== Sys2Proof/Machine/FieldArith.lean ====
section
/-! DEFINITION. Arithmetic in GF(p) (00_scope.md R10, 41_field.md R110, R111, R117, R118): exact integers, reduced only
where a `mod` is written. -/

namespace Sys2Proof.Machine

/-- `modp(x)` (R10): the integer in `[0, p)` congruent to `x`, also when `x` is negative. -/
def modp (c : Curve) (x : Int) : Nat := (x % (c.p : Int)).toNat

/-- A field element as the content of a register; field elements are below `p < 2^256`, so none is cut (R7, R8). -/
def toNum (v : Nat) : Num256 := BitVec.ofNat 256 v

/-- Square and multiply over the bits of `e`, from the least significant: `acc · b^e mod m`, for `e` of at most the
given number of bits. -/
def powModLoop (m : Nat) : (bits b e acc : Nat) → Nat
  | 0, _, _, acc => acc
  | bits + 1, b, e, acc =>
    powModLoop m bits (b * b % m) (e / 2) (if e % 2 = 1 then acc * b % m else acc)

/-- `(b ^ e) mod m` (R117). -/
def powMod (b e m : Nat) : Nat := powModLoop m (e.log2 + 1) (b % m) e (1 % m)

/-- The loop of the extended Euclidean algorithm as R111 writes it, with a bound on its number of rounds; ends with
`(gcd, t0)`. -/
def euclidLoop : (rounds r0 r1 : Nat) → (t0 t1 : Int) → Nat × Int
  | 0, r0, _, t0, _ => (r0, t0)
  | rounds + 1, r0, r1, t0, t1 =>
    if r1 = 0 then (r0, t0)
    else euclidLoop rounds r1 (r0 - r0 / r1 * r1) t1 (t0 - (r0 / r1 : Nat) * t1)

/-- `inv_mod(a, m)` (R111): normalises `a` into `[0, m)`, raises `NotInvertible` if `gcd(a, m) ≠ 1`, and otherwise gives
the inverse in `[1, m-1]`. The remainder falls in every round, so that `m` rounds are enough (log entry 9). -/
def invMod (a : Int) (m : Nat) : Except Cause Nat :=
  let a' := (a % (m : Int)).toNat
  if a' = 0 then .error .notInvertible
  else
    let g := euclidLoop m m a' 0 1
    if g.1 ≠ 1 then .error .notInvertible else .ok (g.2 % (m : Int)).toNat

/-- The candidate square root `(v ^ ((p+1)/4)) mod p` (R117, R161). -/
def sqrtCandidate (c : Curve) (v : Nat) : Nat := powMod v ((c.p + 1) / 4) c.p

end Sys2Proof.Machine
end

