-- ==== Sys2Proof/Machine/CurveArith.lean ====
section
/-! DEFINITION. The curve, construction with validation, and the group operations (42_point.md R130 to R132, R140, R142,
R144, R146), over any parameter set `c`. -/

namespace Sys2Proof.Machine

/-- `on_curve(x, y)` (R131), on any non-negative integers. -/
def onCurve (c : Curve) (x y : Nat) : Bool :=
  y * y % c.p == (x * x * x + c.a * x + c.b) % c.p

/-- `make_point(x, y)` (R132): rejects a coordinate that is not a field element and a pair off the curve. -/
def makePoint (c : Curve) (x y : Num256) : Except Cause Point :=
  if x.toNat ≥ c.p ∨ y.toNat ≥ c.p then .error .invalidCurvePoint
  else if onCurve c x.toNat y.toNat then .ok (.affine x y)
  else .error .invalidCurvePoint

/-- The base point `G` (R134). -/
def basePoint (c : Curve) : Point := .affine (toNum c.gx) (toNum c.gy)

/-- `pt_neg(P)` (R140). -/
def ptNeg (c : Curve) : Point → Point
  | .infinity => .infinity
  | .affine x y => .affine x (toNum (modp c ((c.p : Int) - y.toNat)))

/-- The end of both slope formulas (R142, R144): with slope `lam` through `(x1, y1)` and a second x coordinate `x2`,
`x3 = lam² - x1 - x2` and `y3 = lam·(x1 - x3) - y1`. -/
def chordPoint (c : Curve) (lam x1 y1 x2 : Nat) : Point :=
  let x3 := modp c ((lam : Int) * lam - x1 - x2)
  let y3 := modp c ((lam : Int) * ((x1 : Int) - x3) - y1)
  .affine (toNum x3) (toNum y3)

/-- `pt_double(P)` (R142): `VerticalTangent` at `y = 0`, the tangent-slope formula otherwise. -/
def ptDouble (c : Curve) : Point → Except Cause Point
  | .infinity => .ok .infinity
  | .affine x y =>
    if y = 0 then .error .verticalTangent
    else do
      let inv ← invMod (2 * (y.toNat : Int)) c.p
      let lam := modp c ((3 * (x.toNat : Int) * x.toNat + c.a) * inv)
      .ok (chordPoint c lam x.toNat y.toNat x.toNat)

/-- `pt_add(P, Q)` (R144), the tests in the order written: identity, inverse points, equal points, chord slope. -/
def ptAdd (c : Curve) : Point → Point → Except Cause Point
  | .infinity, q => .ok q
  | p, .infinity => .ok p
  | .affine x1 y1, .affine x2 y2 =>
    if x1 = x2 ∧ modp c ((y1.toNat : Int) + y2.toNat) = 0 then .ok .infinity
    else if x1 = x2 ∧ y1 = y2 then ptDouble c (.affine x1 y1)
    else do
      let inv ← invMod ((x2.toNat : Int) - x1.toNat) c.p
      let lam := modp c (((y2.toNat : Int) - y1.toNat) * inv)
      .ok (chordPoint c lam x1.toNat y1.toNat x2.toNat)

/-- One round of the loop of `pt_smul` at bit `i` (R146): double, then add `P` or `-P` as the bits of `3e` and `e`
differ. -/
def smulRound (c : Curve) (p n : Point) (e3 e i : Nat) (r : Point) : Except Cause Point := do
  let d ← ptDouble c r
  if e3.testBit i && !e.testBit i then ptAdd c d p
  else if !e3.testBit i && e.testBit i then ptAdd c d n
  else .ok d

/-- The loop of `pt_smul` (R146) over the bit indices `i` down to 1. -/
def smulLoop (c : Curve) (p n : Point) (e3 e : Nat) : (i : Nat) → Point → Except Cause Point
  | 0, r => .ok r
  | i + 1, r => do
    let r' ← smulRound c p n e3 e (i + 1) r
    smulLoop c p n e3 e i r'

/-- `pt_smul(P, ko, k)` (R146): `msb(3e)` is `Nat.log2 (3 * e)`; the loop starts one below it with `R = P`. -/
def ptSmul (c : Curve) (p : Point) (ko : Bool) (k : Nat) : Except Cause Point :=
  let e := if ko then k % c.r else k
  if e = 0 then .ok .infinity
  else if p = .infinity then .ok .infinity
  else smulLoop c p (ptNeg c p) (3 * e) e ((3 * e).log2 - 1) p

end Sys2Proof.Machine
end

