-- ==== Sys2Proof/Machine/CodecArith.lean ====
section
/-! DEFINITION. The functions of the point codec (43_codec.md R160 to R162, R164). -/

namespace Sys2Proof.Machine

/-- The right side of the curve equation, `modp(x³ + a·x + b)` (R161). -/
def curveRhs (c : Curve) (x : Nat) : Nat := (x * x * x + c.a * x + c.b) % c.p

/-- The root of the wanted parity (R161): `y`, or `modp(p - y)` where the parity of `y` is not `want_odd`. -/
def chooseParity (c : Curve) (wantOdd : Bool) (y : Nat) : Nat :=
  if (y % 2 == 1) != wantOdd then modp c ((c.p : Int) - y) else y

/-- The search of `recover_y` (R161) from a given offset on, over a given number of candidates in rising order. A
candidate of `p` or more is skipped, one whose `y` fails the curve equation is abandoned. -/
def recoverSearch (c : Curve) (x : Nat) (wantOdd : Bool) :
    (candidates offset : Nat) → Except Cause (Nat × Nat × Nat)
  | 0, _ => .error .pointEncodingExhausted
  | candidates + 1, offset =>
    if x + offset ≥ c.p then recoverSearch c x wantOdd candidates (offset + 1)
    else
      let y := sqrtCandidate c (curveRhs c (x + offset))
      if onCurve c (x + offset) y then .ok (x + offset, chooseParity c wantOdd y, offset)
      else recoverSearch c x wantOdd candidates (offset + 1)

/-- `recover_y(x, want_odd)` (R161): the triple `(Mx, y, offset)` of the first valid offset in `[0, MAXOFF)`. -/
def recoverY (c : Curve) (x : Nat) (wantOdd : Bool) : Except Cause (Nat × Nat × Nat) :=
  recoverSearch c x wantOdd Config.maxOff 0

/-- `enc_prefix(parity, offset)` (R162). -/
def encPrefix (layout : PfxLayout) (parity : Bool) (offset : BitVec 7) : Byte :=
  match layout with
  | .offsetLow => BitVec.ofBool parity ++ offset
  | .parityLow => offset ++ BitVec.ofBool parity

/-- `dec_prefix(byte)` = (parity, offset) (R162). -/
def decPrefix (layout : PfxLayout) (byte : Byte) : Bool × BitVec 7 :=
  match layout with
  | .offsetLow => (byte.getLsbD 7, byte.extractLsb' 0 7)
  | .parityLow => (byte.getLsbD 0, byte.extractLsb' 1 7)

/-- The prefix byte of a compressed form, `0x02 | parity` (R160, R169). -/
def compressedPrefix (odd : Bool) : Byte := 0x02#8 ||| (BitVec.ofBool odd).setWidth 8

/-- The prefix byte of the uncompressed form (R160). -/
def uncompressedPrefix : Byte := 0x04

/-- The prefix bytes of the compressed form, `0x02` and `0x03` (R160, R164, R168). -/
def isCompressedPrefix (b : Byte) : Bool := b == 0x02 || b == 0x03

/-- The length of a byte form (R160). -/
def formLength (compressed : Bool) : Nat := if compressed then 33 else 65

/-- The byte form of `Affine(x, y)` (R160, R163). -/
def serialize (compressed : Bool) (x y : Num256) : List Byte :=
  if compressed then compressedPrefix (y.getLsbD 0) :: bytesBE32 x
  else uncompressedPrefix :: (bytesBE32 x ++ bytesBE32 y)

/-- `deserialize` of the bytes at `off` (R164): dispatches on the prefix byte. In the compressed case the point built is
`(x, y)` with the `x` that was read, not the `Mx` of the search. -/
def State.deserialize (s : State) (c : Curve) (off : Nat) : Except Cause Point :=
  let b0 := s.readBuf off
  if b0 = uncompressedPrefix then makePoint c (s.readNum (off + 1)) (s.readNum (off + 33))
  else if isCompressedPrefix b0 then do
    let found ← recoverY c (s.readNum (off + 1)).toNat (b0.getLsbD 0)
    makePoint c (s.readNum (off + 1)) (toNum found.2.1)
  else .error .badPrefix

end Sys2Proof.Machine
end

