-- ==== Sys2Proof/Machine/Flags.lean ====
section
/-! DEFINITION. The condition flags `T`, `INF`, `OFFS` (10_state.md R28) and the `STATUS` word (R27). -/

namespace Sys2Proof.Machine

/-- `T <- b` (R11, R28). -/
def State.setT (s : State) (b : Bool) : State := { s with tflag := b }

/-- `INF <- b` (R11, R28). -/
def State.setInf (s : State) (b : Bool) : State := { s with inf := b }

/-- `OFFS <- v` (R11, R28). -/
def State.setOffs (s : State) (v : BitVec 7) : State := { s with offs := v }

/-- Whether a point value is `Infinity`: what `INF` records of the last point written (R27). -/
def Point.isInfinity : Point → Bool
  | .infinity => true
  | .affine _ _ => false

/-- A command's write of a point register: `PT[d] <- (val, ko)` and `INF <- 1 if val == Infinity else 0`; every command
that writes `PT` writes `INF` so (R27, R28). -/
def State.putPoint (s : State) (d : PReg) (val : Point) (ko : Bool) : State :=
  (s.setPT d ⟨val, ko⟩).setInf val.isInfinity

/-- The `STATUS` word (R27): `BUSY` bit 0, `FAULT` bit 1, `HERR` bit 2, bit 3 zero, `T` bit 4, `INF` bit 5, bits 7:6
zero, `OFFS` bits 14:8, bits 31:15 zero. -/
def State.statusWord (s : State) : Word :=
  0#17 ++ s.offs ++ 0#2 ++ BitVec.ofBool s.inf ++ BitVec.ofBool s.tflag ++ 0#1 ++ BitVec.ofBool s.herr ++
    BitVec.ofBool s.fault ++ BitVec.ofBool s.busy

/-- The `FCAUSE` word (R32): the code in bits 7:0, bits 31:8 zero. -/
def State.fcauseWord (s : State) : Word := s.fcause.setWidth 32

end Sys2Proof.Machine
end

