-- ==== Sys2Proof/Machine/Codec.lean ====
section
/-! DEFINITION. The codec commands (43_codec.md R163, R165, R166, R168, R169). -/

namespace Sys2Proof.Machine

/-- `PSER Pa, off, m` (R163): `EmptyOperand`, then `BufRange`, then `InfinityOperand` (R187). -/
def execPser (a : PReg) (off : Off) (m : Bool) (s : State) : Host.Outcome State Fault Refusal :=
  finish s do
    let q ← s.readPT a
    checkRange off.toNat (formLength m)
    let xy ← q.val.coords
    return s.memWrite off.toNat (serialize m xy.1 xy.2)

/-- `PDES Pd, off` (R165): `BadPrefix` comes before `BufRange`, because the length is not known until the prefix is
read. -/
def execPdes (d : PReg) (off : Off) (s : State) : Host.Outcome State Fault Refusal :=
  let b0 := s.readBuf off.toNat
  finish s
    (if isCompressedPrefix b0 || b0 == uncompressedPrefix then do
      checkRange off.toNat (formLength (isCompressedPrefix b0))
      let val ← s.deserialize Config.curve off.toNat
      return s.putPoint d val false
    else .error .badPrefix)

/-- `RECY Pd, Fa, m` (R166): the whole point `(x + offset, y)`, and the offset in `OFFS`. -/
def execRecy (d : PReg) (a : FReg) (m : Bool) (s : State) : Host.Outcome State Fault Refusal :=
  finish s do
    let x ← s.readF a
    let found ← recoverY Config.curve x.toNat m
    return (s.putPoint d (.affine (toNum found.1) (toNum found.2.1)) false).setOffs (BitVec.ofNat 7 found.2.2)

/-- `PFXE off` (R168): folds `OFFS` into a compressed form's prefix byte. -/
def execPfxe (off : Off) (s : State) : Host.Outcome State Fault Refusal :=
  let b0 := s.readBuf off.toNat
  finish s
    (if isCompressedPrefix b0 then
      .ok (s.memWrite off.toNat [encPrefix Config.pfxLayout (b0.getLsbD 0) s.offs])
    else .error .badPrefix)

/-- `PFXD off` (R169): takes the offset out of the byte, for every byte value. -/
def execPfxd (off : Off) (s : State) : Host.Outcome State Fault Refusal :=
  let parityOffset := decPrefix Config.pfxLayout (s.readBuf off.toNat)
  finish s (.ok ((s.memWrite off.toNat [compressedPrefix parityOffset.1]).setOffs parityOffset.2))

end Sys2Proof.Machine
end

