-- ==== Sys2Proof/Machine/Field.lean ====
section
/-! DEFINITION. The field commands (41_field.md R112 to R117), with the modulus `p` of `CURVE`. -/

namespace Sys2Proof.Machine

/-- `FADD Fd, Fa, Fb` (R112): the exact sum, reduced. -/
def execFadd (d a b : FReg) (s : State) : Host.Outcome State Fault Refusal :=
  finish s do
    let x ← s.readF a
    let y ← s.readF b
    return s.setF d (toNum (modp Config.curve ((x.toNat : Int) + y.toNat)))

/-- `FSUB Fd, Fa, Fb` (R113): the exact difference, reduced. -/
def execFsub (d a b : FReg) (s : State) : Host.Outcome State Fault Refusal :=
  finish s do
    let x ← s.readF a
    let y ← s.readF b
    return s.setF d (toNum (modp Config.curve ((x.toNat : Int) - y.toNat)))

/-- `FNEG Fd, Fa` (R114): `modp(p - modp(F[a]))`, so that the negation of 0 is 0. -/
def execFneg (d a : FReg) (s : State) : Host.Outcome State Fault Refusal :=
  finish s do
    let x ← s.readF a
    return s.setF d (toNum (modp Config.curve ((Config.curve.p : Int) - modp Config.curve x.toNat)))

/-- `FMUL Fd, Fa, Fb` (R115): the exact product, reduced. -/
def execFmul (d a b : FReg) (s : State) : Host.Outcome State Fault Refusal :=
  finish s do
    let x ← s.readF a
    let y ← s.readF b
    return s.setF d (toNum (modp Config.curve ((x.toNat : Int) * y.toNat)))

/-- `FINV Fd, Fa` (R116): raises `NotInvertible` if the operand is 0 modulo `p`. -/
def execFinv (d a : FReg) (s : State) : Host.Outcome State Fault Refusal :=
  finish s do
    let x ← s.readF a
    let t ← invMod x.toNat Config.curve.p
    return s.setF d (toNum t)

/-- `FSQRT Fd, Fa` (R117): the candidate root, and in `T` whether it is a root. -/
def execFsqrt (d a : FReg) (s : State) : Host.Outcome State Fault Refusal :=
  finish s do
    let x ← s.readF a
    let v := modp Config.curve x.toNat
    let root := sqrtCandidate Config.curve v
    return (s.setF d (toNum root)).setT (modp Config.curve ((root : Int) * root) == v)

end Sys2Proof.Machine
end

