-- ==== Sys2Proof/Machine/Movement.lean ====
section
/-! DEFINITION. The data movement commands (40_data_movement.md R100 to R103). -/

namespace Sys2Proof.Machine

/-- `LDF Fd, off` (R100). -/
def execLdf (d : FReg) (off : Off) (s : State) : Host.Outcome State Fault Refusal :=
  finish s do
    checkRange off.toNat 32
    return s.setF d (s.readNum off.toNat)

/-- `STF Fa, off` (R101). -/
def execStf (a : FReg) (off : Off) (s : State) : Host.Outcome State Fault Refusal :=
  finish s do
    let v ← s.readF a
    checkRange off.toNat 32
    return s.memWrite off.toNat (bytesBE32 v)

/-- `FLI Fd, imm12` (R102). -/
def execFli (d : FReg) (imm : Imm12) (s : State) : Host.Outcome State Fault Refusal :=
  finish s (.ok (s.setF d (immValue imm)))

/-- `FMOV Fd, Fa` (R103). -/
def execFmov (d a : FReg) (s : State) : Host.Outcome State Fault Refusal :=
  finish s do
    let v ← s.readF a
    return s.setF d v

end Sys2Proof.Machine
end

