-- ==== Sys2Proof/Machine/PointOps.lean ====
section
/-! DEFINITION. The point commands (42_point.md R133 to R139, R141, R143, R145, R147, R148), on the curve `CURVE`. -/

namespace Sys2Proof.Machine

/-- `PINF Pd` (R133). -/
def execPinf (d : PReg) (s : State) : Host.Outcome State Fault Refusal :=
  finish s (.ok (s.putPoint d .infinity false))

/-- `PLDG Pd` (R134): the base point, the only write of `ko = 1` that is not a copy (R23). -/
def execPldg (d : PReg) (s : State) : Host.Outcome State Fault Refusal :=
  finish s (.ok (s.putPoint d (basePoint Config.curve) true))

/-- `PMK Pd, Fa, Fb` (R135). -/
def execPmk (d : PReg) (a b : FReg) (s : State) : Host.Outcome State Fault Refusal :=
  finish s do
    let x ← s.readF a
    let y ← s.readF b
    let val ← makePoint Config.curve x y
    return s.putPoint d val false

/-- `PMOV Pd, Pa` (R136): copies the value and the flag. -/
def execPmov (d a : PReg) (s : State) : Host.Outcome State Fault Refusal :=
  finish s do
    let q ← s.readPT a
    return s.putPoint d q.val q.ko

/-- `PGETX Fd, Pa` (R137). -/
def execPgetx (d : FReg) (a : PReg) (s : State) : Host.Outcome State Fault Refusal :=
  finish s do
    let q ← s.readPT a
    let xy ← q.val.coords
    return s.setF d xy.1

/-- `PGETY Fd, Pa` (R138). -/
def execPgety (d : FReg) (a : PReg) (s : State) : Host.Outcome State Fault Refusal :=
  finish s do
    let q ← s.readPT a
    let xy ← q.val.coords
    return s.setF d xy.2

/-- `PCHK Fa, Fb` (R139): the membership test alone, on the values as they are. -/
def execPchk (a b : FReg) (s : State) : Host.Outcome State Fault Refusal :=
  finish s do
    let x ← s.readF a
    let y ← s.readF b
    return s.setT (onCurve Config.curve x.toNat y.toNat)

/-- `PEQ Pa, Pb` (R141): compares the values and ignores `ko`. -/
def execPeq (a b : PReg) (s : State) : Host.Outcome State Fault Refusal :=
  finish s do
    let q1 ← s.readPT a
    let q2 ← s.readPT b
    return s.setT (q1.val == q2.val)

/-- `PNEG Pd, Pa` (R143): copies the flag. -/
def execPneg (d a : PReg) (s : State) : Host.Outcome State Fault Refusal :=
  finish s do
    let q ← s.readPT a
    return s.putPoint d (ptNeg Config.curve q.val) q.ko

/-- `PDBL Pd, Pa` (R145). -/
def execPdbl (d a : PReg) (s : State) : Host.Outcome State Fault Refusal :=
  finish s do
    let q ← s.readPT a
    let res ← ptDouble Config.curve q.val
    return s.putPoint d res false

/-- `PADD Pd, Pa, Pb` (R147). -/
def execPadd (d a b : PReg) (s : State) : Host.Outcome State Fault Refusal :=
  finish s do
    let q1 ← s.readPT a
    let q2 ← s.readPT b
    let res ← ptAdd Config.curve q1.val q2.val
    return s.putPoint d res false

/-- `PSMUL Pd, Pa, Fb` (R148). -/
def execPsmul (d a : PReg) (b : FReg) (s : State) : Host.Outcome State Fault Refusal :=
  finish s do
    let q ← s.readPT a
    let k ← s.readF b
    let res ← ptSmul Config.curve q.val q.ko k.toNat
    return s.putPoint d res false

end Sys2Proof.Machine
end

