-- ==== Sys2Proof/Machine/Dispatch.lean ====
section
/-! DEFINITION. The meaning of every command, one arm per constructor of `Instr` (30_encoding.md R86). -/

namespace Sys2Proof.Machine

/-- The engine step of a command (60_exceptions.md R185): all of it, to `BUSY <- 0` or to fault entry. -/
def exec (i : Instr) (s : State) : Host.Outcome State Fault Refusal :=
  match i with
  | .ldf d off => Sys2Proof.Machine.execLdf d off s
  | .stf a off => Sys2Proof.Machine.execStf a off s
  | .fli d imm => Sys2Proof.Machine.execFli d imm s
  | .fmov d a => Sys2Proof.Machine.execFmov d a s
  | .fadd d a b => Sys2Proof.Machine.execFadd d a b s
  | .fsub d a b => Sys2Proof.Machine.execFsub d a b s
  | .fneg d a => Sys2Proof.Machine.execFneg d a s
  | .fmul d a b => Sys2Proof.Machine.execFmul d a b s
  | .finv d a => Sys2Proof.Machine.execFinv d a s
  | .fsqrt d a => Sys2Proof.Machine.execFsqrt d a s
  | .pinf d => Sys2Proof.Machine.execPinf d s
  | .pldg d => Sys2Proof.Machine.execPldg d s
  | .pmk d a b => Sys2Proof.Machine.execPmk d a b s
  | .pmov d a => Sys2Proof.Machine.execPmov d a s
  | .pgetx d a => Sys2Proof.Machine.execPgetx d a s
  | .pgety d a => Sys2Proof.Machine.execPgety d a s
  | .pchk a b => Sys2Proof.Machine.execPchk a b s
  | .peq a b => Sys2Proof.Machine.execPeq a b s
  | .pneg d a => Sys2Proof.Machine.execPneg d a s
  | .pdbl d a => Sys2Proof.Machine.execPdbl d a s
  | .padd d a b => Sys2Proof.Machine.execPadd d a b s
  | .psmul d a b => Sys2Proof.Machine.execPsmul d a b s
  | .pser a off m => Sys2Proof.Machine.execPser a off m s
  | .pdes d off => Sys2Proof.Machine.execPdes d off s
  | .recy d a m => Sys2Proof.Machine.execRecy d a m s
  | .pfxe off => Sys2Proof.Machine.execPfxe off s
  | .pfxd off => Sys2Proof.Machine.execPfxd off s

end Sys2Proof.Machine
end

