-- ==== Sys2Proof/Machine/Window.lean ====
section
/-! DEFINITION. The register window and the host's accesses to it (20_memory.md R50 to R60; 10_state.md R27 to R34). -/

namespace Sys2Proof.Machine

/-- `ID` (R30). -/
def idWord : Word := 0x4A510102

/-- `CFG` (R34): `NF` in bits 7:0, `NP` in bits 15:8, `BUFSIZE` in bits 31:16. -/
def cfgWord : Word :=
  BitVec.ofNat 16 Config.bufSize ++ BitVec.ofNat 8 Config.numP ++ BitVec.ofNat 8 Config.numF

/-- The size of the window in bytes (R50). -/
def windowSize : Nat := 0x1000

/-- What stands at an aligned window offset (the table of R50). `cp` carries the index 0 to 47 of its word, `buf` the
index 0 to 31 of its word. -/
inductive WindowReg where
  | id
  | status
  | cmd
  | ctrl
  | fcause
  | finfo
  | cfg
  | cp (word : Nat)
  | buf (word : Nat)
  | reserved
deriving DecidableEq, Repr

/-- The register at an aligned offset (R50). -/
def windowReg (offset : Nat) : WindowReg :=
  if offset = 0x000 then .id
  else if offset = 0x004 then .status
  else if offset = 0x008 then .cmd
  else if offset = 0x00C then .ctrl
  else if offset = 0x010 then .fcause
  else if offset = 0x014 then .finfo
  else if offset = 0x018 then .cfg
  else if 0x040 ≤ offset ∧ offset ≤ 0x0FC then .cp ((offset - 0x040) / 4)
  else if 0x100 ≤ offset ∧ offset ≤ 0x17C then .buf ((offset - 0x100) / 4)
  else .reserved

/-- The six constants of `CP` in the order of their places (R25, R54). -/
def cpConstants (c : Curve) : List Nat := [c.p, c.a, c.b, c.gx, c.gy, c.r]

/-- Word `k` of `CP` (R54): eight words a constant, least significant word first. -/
def cpWord (c : Curve) (k : Nat) : Word :=
  BitVec.ofNat 32 ((cpConstants c).getD (k / 8) 0 >>> (32 * (k % 8)))

/-- Word `m` of `BUF` as the window shows it (R55): the byte of lowest address in the least significant lane. -/
def State.bufWord (s : State) (m : Nat) : Word :=
  s.readBuf (4 * m + 3) ++ s.readBuf (4 * m + 2) ++ s.readBuf (4 * m + 1) ++ s.readBuf (4 * m)

/-- The four bytes of a word, the least significant lane first (R55). -/
def laneBytes (w : Word) : List Byte :=
  [w.extractLsb' 0 8, w.extractLsb' 8 8, w.extractLsb' 16 8, w.extractLsb' 24 8]

/-- The window returns `w` to the host (the model's record of what the host has read, log entry 5). -/
def State.reply (s : State) (w : Word) : State := { s with reads := w :: s.reads }

/-- An access of an unsupported width or at an offset that is not a multiple of 4 (R51, R52). -/
def unsupported (width : Width) (offset : Nat) : Bool := width != .w32 || offset % 4 != 0

/-- The effect of a write of `CTRL` (R31): `SRST` makes the other two bits moot; bits 31:3 are ignored. -/
def State.writeCtrl (s : State) (data : Word) : State :=
  if data.getLsbD 2 then s.resetEngine
  else
    let s1 := if data.getLsbD 0 then s.clearFault else s
    if data.getLsbD 1 then s1.clearHerr else s1

/-- A supported read (R53 to R57): the reply, and `HERR` where a `BUF` offset is read while `BUSY = 1` (R55). -/
def State.readReg (s : State) : WindowReg → State
  | .id => s.reply idWord
  | .status => s.reply s.statusWord
  | .cmd => s.reply 0
  | .ctrl => s.reply 0
  | .fcause => s.reply s.fcauseWord
  | .finfo => s.reply s.finfo
  | .cfg => s.reply cfgWord
  | .cp k => s.reply (cpWord Config.curve k)
  | .buf m => if s.busy then s.setHerr.reply 0 else s.reply (s.bufWord m)
  | .reserved => s.reply 0

/-- A supported write (R53, R55, R56; `CTRL` R31). A `CMD` write is refused while `BUSY = 1` or `FAULT = 1`; a write of
a read-only register or a reserved offset is ignored. -/
def State.writeReg (s : State) (data : Word) : WindowReg → State
  | .id => s
  | .status => s
  | .cmd => if s.busy || s.fault then s.setHerr else s.accept data
  | .ctrl => s.writeCtrl data
  | .fcause => s
  | .finfo => s
  | .cfg => s
  | .cp _ => s
  | .buf m => if s.busy then s.setHerr else s.memWrite (4 * m) (laneBytes data)
  | .reserved => s

/-- A host access (R51 to R58): outside the window it is not the engine's (log entry 6); of an unsupported width or
alignment it is refused, a read returning 0 (R52); otherwise it acts on the register at its offset. -/
def hostTurn (access : Access) (s : State) : Host.Outcome State Fault Refusal :=
  match access with
  | .read width offset =>
    if windowSize ≤ offset then .fault .outsideWindow
    else if unsupported width offset then .next (s.setHerr.reply 0)
    else .next (s.readReg (windowReg offset))
  | .write width offset data =>
    if windowSize ≤ offset then .fault .outsideWindow
    else if unsupported width offset then .next s.setHerr
    else .next (s.writeReg data (windowReg offset))

end Sys2Proof.Machine
end

