-- ==== Sys2Proof/Machine/Step.lean ====
section
/-! DEFINITION. One step of the machine (00_scope.md R4, 60_exceptions.md R185, 20_memory.md R62), and the state whose
next step runs a given command. -/

namespace Sys2Proof.Machine

/-- The engine's turn (R185): with `BUSY = 1` it executes the command in `CMDREG`, or raises `IllegalCommand` for a word
that spells none (R181); with `BUSY = 0` it has no step, and nothing changes (log entry 4). -/
def engineTurn (s : State) : Host.Outcome State Fault Refusal :=
  if s.busy then
    match decode s.fetch with
    | .ok i => exec i s
    | .error _ => execIllegal s
  else .next s

/-- One step: the first turn listed is taken. With none listed, the engine steps if it is busy (R216: a busy engine
eventually steps) and an idle machine stays as it is (log entries 3 and 4). -/
def step (s : State) : Host.Outcome State Fault Refusal :=
  match s.turns with
  | [] => engineTurn s
  | .host access :: rest => hostTurn access { s with turns := rest }
  | .engine :: rest => engineTurn { s with turns := rest }
  | .reset :: rest => .next { s with turns := rest }.resetEngine

/-- `s` with a command, given by its bits, as what the very next step runs: in `CMDREG`, accepted (log entry 7). -/
def State.withFetchWord (s : State) (nbits w : Nat) : State := s.withCommand nbits w

end Sys2Proof.Machine
end

