-- ==== Sys2Proof/Machine/Assembler.lean ====
section
/-! DEFINITION. Assembler text (30_encoding.md R88, R89): one command a line, as the list of words the host writes to
`CMD`. The machine does not use it; it gives the spec's own notation for commands a meaning. -/

namespace Sys2Proof.Machine

/-- The mnemonics of R86 with their opcodes. -/
def mnemonics : List (String × BitVec 8) :=
  [("LDF", 0x10), ("STF", 0x11), ("FLI", 0x12), ("FMOV", 0x13), ("FADD", 0x20), ("FSUB", 0x21), ("FNEG", 0x22),
    ("FMUL", 0x23), ("FINV", 0x24), ("FSQRT", 0x25), ("PINF", 0x30), ("PLDG", 0x31), ("PMK", 0x32), ("PMOV", 0x33),
    ("PGETX", 0x34), ("PGETY", 0x35), ("PCHK", 0x36), ("PEQ", 0x37), ("PNEG", 0x38), ("PDBL", 0x39), ("PADD", 0x3A),
    ("PSMUL", 0x3B), ("PSER", 0x40), ("PDES", 0x41), ("RECY", 0x42), ("PFXE", 0x43), ("PFXD", 0x44)]

/-- White space between the parts of a line. -/
def isBlank (ch : Char) : Bool := ch == ' ' || ch == '\t' || ch == '\r'

/-- A text without the white space at its two ends. -/
def trim (text : List Char) : List Char :=
  ((text.dropWhile isBlank).reverse.dropWhile isBlank).reverse

/-- The value of a digit, decimal or hexadecimal. -/
def digitValue (ch : Char) : Option Nat :=
  if '0' ≤ ch ∧ ch ≤ '9' then some (ch.toNat - '0'.toNat)
  else if 'a' ≤ ch ∧ ch ≤ 'f' then some (ch.toNat - 'a'.toNat + 10)
  else if 'A' ≤ ch ∧ ch ≤ 'F' then some (ch.toNat - 'A'.toNat + 10)
  else none

/-- The number that digits write in a base, onto an accumulator; every digit must be below the base. -/
def digitsValue (base acc : Nat) : List Char → Option Nat
  | [] => some acc
  | ch :: rest => do
    let v ← digitValue ch
    if v < base then digitsValue base (acc * base + v) rest else none

/-- A decimal or `0x` hexadecimal number (R88). -/
def parseNumber : List Char → Option Nat
  | '0' :: 'x' :: ch :: rest => digitsValue 16 0 (ch :: rest)
  | ch :: rest => digitsValue 10 0 (ch :: rest)
  | [] => none

/-- A number below a bound. -/
def parseBelow (bound : Nat) (text : List Char) : Option Nat := do
  let n ← parseNumber text
  if n < bound then some n else none

/-- A register written with its letter: `F0` to `F15`, `P0` to `P7` (R88). -/
def parseRegister (letter : Char) (count : Nat) : List Char → Option (BitVec 4)
  | [] => none
  | ch :: rest =>
    if ch = letter then
      ((List.range count).find? fun n => decide ((Nat.repr n).toList = rest)).map (BitVec.ofNat 4)
    else none

/-- The next operand as a register field, where the command uses the field (R88: unused fields are skipped). -/
def takeRegister (u : RegUse) (operands : List (List Char)) : Option (BitVec 4 × List (List Char)) :=
  match u, operands with
  | .unused, _ => some (0, operands)
  | .freg, text :: rest => (parseRegister 'F' Config.numF text).map (·, rest)
  | .preg, text :: rest => (parseRegister 'P' Config.numP text).map (·, rest)
  | _, [] => none

/-- The next operand as a number below a bound, where the command uses it; 0 where it does not. -/
def takeNumber (used : Bool) (bound : Nat) (operands : List (List Char)) : Option (Nat × List (List Char)) :=
  match used, operands with
  | false, _ => some (0, operands)
  | true, text :: rest => (parseBelow bound text).map (·, rest)
  | true, [] => none

/-- The next operands as the immediate field: `imm12`, or `off` and then `m` (R88). -/
def takeImmediate (u : ImmUse) (operands : List (List Char)) : Option (BitVec 12 × List (List Char)) :=
  match u with
  | .zero => some (0, operands)
  | .imm12 => do
    let (v, rest) ← takeNumber true 4096 operands
    return (BitVec.ofNat 12 v, rest)
  | .buf off m => do
    let (o, rest) ← takeNumber off 128 operands
    let (b, rest) ← takeNumber m 2 rest
    return (bufField (BitVec.ofNat 7 o) (b == 1), rest)

/-- The fields of a command with the given opcode and operand texts, in the order `rd`, `ra`, `rb`, `off`, `m` (R88). -/
def assembleFields (op : BitVec 8) (operands : List (List Char)) : Option Fields := do
  let sh ← shapeOf op
  let (rd, rest) ← takeRegister sh.rd operands
  let (ra, rest) ← takeRegister sh.ra rest
  let (rb, rest) ← takeRegister sh.rb rest
  let (imm, rest) ← takeImmediate sh.imm rest
  if rest.isEmpty then some ⟨op, rd, ra, rb, imm⟩ else none

/-- The pseudo-instruction `FSQR Fd, Fa` stands for `FMUL Fd, Fa, Fa` (R89). -/
def expandPseudo (mnemonic : List Char) (operands : List (List Char)) : List Char × List (List Char) :=
  match operands with
  | [d, a] => if mnemonic = "FSQR".toList then ("FMUL".toList, [d, a, a]) else (mnemonic, operands)
  | _ => (mnemonic, operands)

/-- The operand texts after the mnemonic, separated by commas. -/
def splitOperands (text : List Char) : List (List Char) := (text.splitOn ',').map trim

/-- One line (R88): a comment runs from `#` to its end; a line with nothing else gives no word. -/
def assembleLine (line : List Char) : Option (List Word) :=
  let text := trim (line.takeWhile (· != '#'))
  if text.isEmpty then some []
  else do
    let (mnemonic, operands) := expandPseudo (text.takeWhile (!isBlank ·)) (splitOperands (text.dropWhile (!isBlank ·)))
    let (_, op) ← mnemonics.find? fun entry => decide (entry.1.toList = mnemonic)
    let fields ← assembleFields op operands
    return [fields.toWord]

/-- An assembly text: the words of its lines, in order (R88). -/
def assemble (text : String) : Option (List Word) := do
  let words ← (text.toList.splitOn '\n').mapM assembleLine
  return words.flatten

/-- How a register field is written, if the command uses it. -/
def registerTexts : RegUse → BitVec 4 → List String
  | .unused, _ => []
  | .freg, r => ["F" ++ Nat.repr r.toNat]
  | .preg, r => ["P" ++ Nat.repr r.toNat]

/-- How the immediate field is written. -/
def immediateTexts : ImmUse → BitVec 12 → List String
  | .zero, _ => []
  | .imm12, v => [Nat.repr v.toNat]
  | .buf off m, v =>
    (if off then [Nat.repr (offOf v).toNat] else []) ++ (if m then [Nat.repr (modeOf v).toNat] else [])

/-- A command as R88 writes it: the mnemonic, then the operands it uses, separated by commas. -/
def commandText (i : Instr) : String :=
  let f := i.fields
  match mnemonics.find? (fun entry => entry.2 == f.op), shapeOf f.op with
  | some (mnemonic, _), some sh =>
    mnemonic ++ " " ++ ", ".intercalate
      (registerTexts sh.rd f.rd ++ registerTexts sh.ra f.ra ++ registerTexts sh.rb f.rb ++ immediateTexts sh.imm f.imm)
  | _, _ => ""

end Sys2Proof.Machine
end

