-- ==== Sys2Proof/Safety.lean ====
section
/-! DEFINITION. The terms claims are stated in: valid points and lawful parameter sets, the invariants of the state, what
a command may write and raise, runs of host programs and what makes them clean. -/

namespace Sys2Proof.Machine

/-! ## Points and parameter sets -/

/-- A point value as R13 requires it: `Infinity`, or field elements that satisfy the curve equation. -/
def Point.Valid (c : Curve) : Point → Prop
  | .infinity => True
  | .affine x y => x.toNat < c.p ∧ y.toNat < c.p ∧ onCurve c x.toNat y.toNat = true

/-- The constraints on the value of `CURVE` (R8): the modulus is prime, the checkable constraints hold, and
`r · G = Infinity`. -/
structure LawfulCurve (c : Curve) : Prop where
  prime : c.p.Prime
  wf : c.wf = true
  order : ptSmul c (basePoint c) false c.r = .ok .infinity

/-- Repeated addition, starting from `Infinity` (42_point.md R146): the naive meaning of a scalar multiple. -/
def repeatedAdd (c : Curve) (p : Point) : (k : Nat) → Except Cause Point
  | 0 => .ok .infinity
  | k + 1 => do
    let q ← repeatedAdd c p k
    ptAdd c q p

/-- `z` is a square root of `v` in GF(p). -/
def IsRoot (c : Curve) (z v : Nat) : Prop := z * z % c.p = v % c.p

/-- `u` is the x coordinate of a point of the curve: a field element whose right side is a square. -/
def HasPoint (c : Curve) (u : Nat) : Prop := u < c.p ∧ ∃ y, y < c.p ∧ onCurve c u y = true

/-- `R` is the affine point that the slope formulas of R142 and R144 give for slope `lam` through `(x1, y1)` and a second
x coordinate `x2`: `x3 ≡ lam² - x1 - x2` and `y3 ≡ lam·(x1 - x3) - y1`, written without subtraction. -/
def IsSlopeResult (c : Curve) (lam x1 y1 x2 : Nat) (R : Point) : Prop :=
  ∃ x3 y3 : Num256, R = .affine x3 y3 ∧ x3.toNat < c.p ∧ y3.toNat < c.p ∧
    (x3.toNat + x1 + x2) % c.p = lam * lam % c.p ∧ (y3.toNat + y1 + lam * x3.toNat) % c.p = lam * x1 % c.p

/-- `R` is the double of `P` (R142): `Infinity` for `Infinity`; for `y ≠ 0` the tangent-slope result, the slope being the
`lam` with `lam · 2y ≡ 3x² + a`. No `R` is the double of a point with `y = 0`. -/
def IsDouble (c : Curve) (P R : Point) : Prop :=
  match P with
  | .infinity => R = .infinity
  | .affine x y =>
    y ≠ 0 ∧ ∃ lam, lam < c.p ∧ lam * (2 * y.toNat) % c.p = (3 * x.toNat * x.toNat + c.a) % c.p ∧
      IsSlopeResult c lam x.toNat y.toNat x.toNat R

/-- `R` is the sum of `P` and `Q` (R144): the identity, inverse points, equal points, and else the chord-slope result, the
slope being the `lam` with `lam · (x2 - x1) ≡ y2 - y1`. -/
def IsSum (c : Curve) (P Q R : Point) : Prop :=
  match P, Q with
  | .infinity, _ => R = Q
  | .affine _ _, .infinity => R = P
  | .affine x1 y1, .affine x2 y2 =>
    if x1 = x2 ∧ (y1.toNat + y2.toNat) % c.p = 0 then R = .infinity
    else if x1 = x2 ∧ y1 = y2 then IsDouble c P R
    else ∃ lam, lam < c.p ∧ (lam * x2.toNat + y1.toNat) % c.p = (lam * x1.toNat + y2.toNat) % c.p ∧
      IsSlopeResult c lam x1.toNat y1.toNat x2.toNat R

/-! ## Invariants -/

/-- The invariant of the point file (R24). -/
def State.PointFileValid (s : State) : Prop :=
  ∀ i q, s.getPT i = some q → q.val.Valid Config.curve

/-- A set known-order flag means that the point is the base point or its negative (R23: only `PLDG` sets the flag,
`PMOV` and `PNEG` copy it). -/
def State.KnownOrderIsBase (s : State) : Prop :=
  ∀ i q, s.getPT i = some q → q.ko = true →
    q.val = basePoint Config.curve ∨ q.val = ptNeg Config.curve (basePoint Config.curve)

/-- The fault registers (R27, R32, R33, R189): `BUSY` and `FAULT` are never both 1; with `FAULT = 0`, `FCAUSE` and `FINFO`
are 0; with `FAULT = 1` they describe the one outstanding fault, whose command is still in `CMDREG`. -/
def State.FaultStatusOk (s : State) : Prop :=
  (s.busy = true → s.fault = false) ∧
    (s.fault = false → s.fcause = 0 ∧ s.finfo = 0) ∧
      (s.fault = true → s.finfo = s.cmdreg ∧ ∃ c, c ≠ Cause.domainMismatch ∧ s.fcause = c.code)

/-- Everything above, and the canonical form of the buffer (the form is the model's choice, log entry 8). -/
structure State.Inv (s : State) : Prop where
  points : s.PointFileValid
  knownOrder : s.KnownOrderIsBase
  faultStatus : s.FaultStatusOk
  buffer : s.buf.wf

/-- The table of reset values (R37), as the registers, the buffer and the window show them. -/
structure State.AtReset (s : State) : Prop where
  fregs : ∀ i, s.getF i = none
  pregs : ∀ i, s.getPT i = none
  buf : ∀ a, a < Config.bufSize → s.readBuf a = 0x00
  status : s.statusWord = 0x00000000
  cmdreg : s.cmdreg = 0x00000000
  fcause : s.fcauseWord = 0x00000000
  finfo : s.finfo = 0x00000000

/-! ## What a command may write and raise -/

/-- The `F` register a command writes (10_state.md section 1). -/
def destF : Instr → Option FReg
  | .ldf d _ | .fli d _ | .fmov d _ | .fadd d _ _ | .fsub d _ _ | .fneg d _ | .fmul d _ _ | .finv d _ | .fsqrt d _
  | .pgetx d _ | .pgety d _ => some d
  | .stf _ _ | .pinf _ | .pldg _ | .pmk _ _ _ | .pmov _ _ | .pchk _ _ | .peq _ _ | .pneg _ _ | .pdbl _ _ | .padd _ _ _
  | .psmul _ _ _ | .pser _ _ _ | .pdes _ _ | .recy _ _ _ | .pfxe _ | .pfxd _ => none

/-- The `PT` register a command writes (10_state.md section 2); each such command also writes `INF` (R28). -/
def destPT : Instr → Option PReg
  | .pinf d | .pldg d | .pmk d _ _ | .pmov d _ | .pneg d _ | .pdbl d _ | .padd d _ _ | .psmul d _ _ | .pdes d _
  | .recy d _ _ => some d
  | .ldf _ _ | .stf _ _ | .fli _ _ | .fmov _ _ | .fadd _ _ _ | .fsub _ _ _ | .fneg _ _ | .fmul _ _ _ | .finv _ _
  | .fsqrt _ _ | .pgetx _ _ | .pgety _ _ | .pchk _ _ | .peq _ _ | .pser _ _ _ | .pfxe _ | .pfxd _ => none

/-- Whether a command writes `T` (R28). -/
def writesT : Instr → Bool
  | .fsqrt _ _ | .pchk _ _ | .peq _ _ => true
  | .ldf _ _ | .stf _ _ | .fli _ _ | .fmov _ _ | .fadd _ _ _ | .fsub _ _ _ | .fneg _ _ | .fmul _ _ _ | .finv _ _
  | .pinf _ | .pldg _ | .pmk _ _ _ | .pmov _ _ | .pgetx _ _ | .pgety _ _ | .pneg _ _ | .pdbl _ _ | .padd _ _ _
  | .psmul _ _ _ | .pser _ _ _ | .pdes _ _ | .recy _ _ _ | .pfxe _ | .pfxd _ => false

/-- Whether a command writes `OFFS` (R28). -/
def writesOffs : Instr → Bool
  | .recy _ _ _ | .pfxd _ => true
  | .ldf _ _ | .stf _ _ | .fli _ _ | .fmov _ _ | .fadd _ _ _ | .fsub _ _ _ | .fneg _ _ | .fmul _ _ _ | .finv _ _
  | .fsqrt _ _ | .pinf _ | .pldg _ | .pmk _ _ _ | .pmov _ _ | .pgetx _ _ | .pgety _ _ | .pchk _ _ | .peq _ _
  | .pneg _ _ | .pdbl _ _ | .padd _ _ _ | .psmul _ _ _ | .pser _ _ _ | .pdes _ _ | .pfxe _ => false

/-- The `F` registers a command reads (10_state.md section 1). -/
def sourcesF : Instr → List FReg
  | .stf a _ | .fmov _ a | .fneg _ a | .finv _ a | .fsqrt _ a | .recy _ a _ => [a]
  | .fadd _ a b | .fsub _ a b | .fmul _ a b | .pmk _ a b | .pchk a b => [a, b]
  | .psmul _ _ b => [b]
  | .ldf _ _ | .fli _ _ | .pinf _ | .pldg _ | .pmov _ _ | .pgetx _ _ | .pgety _ _ | .peq _ _ | .pneg _ _ | .pdbl _ _
  | .padd _ _ _ | .pser _ _ _ | .pdes _ _ | .pfxe _ | .pfxd _ => []

/-- The `PT` registers a command reads (10_state.md section 2). -/
def sourcesPT : Instr → List PReg
  | .pmov _ a | .pgetx _ a | .pgety _ a | .pneg _ a | .pdbl _ a | .psmul _ a _ | .pser a _ _ => [a]
  | .peq a b | .padd _ a b => [a, b]
  | .ldf _ _ | .stf _ _ | .fli _ _ | .fmov _ _ | .fadd _ _ _ | .fsub _ _ _ | .fneg _ _ | .fmul _ _ _ | .finv _ _
  | .fsqrt _ _ | .pinf _ | .pldg _ | .pmk _ _ _ | .pchk _ _ | .pdes _ _ | .recy _ _ _ | .pfxe _ | .pfxd _ => []

/-- Some register that the command reads is Empty (R21, R22, R182). -/
def State.HasEmptySource (s : State) (i : Instr) : Prop :=
  (∃ r ∈ sourcesF i, s.getF r = none) ∨ (∃ r ∈ sourcesPT i, s.getPT r = none)

/-- How many bytes a command stores, and from which byte address on (R61, R101, R163, R168, R169). -/
def storedBytes : Instr → Nat × Nat
  | .stf _ off => (off.toNat, 32)
  | .pser _ off m => (off.toNat, formLength m)
  | .pfxe off => (off.toNat, 1)
  | .pfxd off => (off.toNat, 1)
  | .ldf _ _ | .fli _ _ | .fmov _ _ | .fadd _ _ _ | .fsub _ _ _ | .fneg _ _ | .fmul _ _ _ | .finv _ _ | .fsqrt _ _
  | .pinf _ | .pldg _ | .pmk _ _ _ | .pmov _ _ | .pgetx _ _ | .pgety _ _ | .pchk _ _ | .peq _ _ | .pneg _ _ | .pdbl _ _
  | .padd _ _ _ | .psmul _ _ _ | .pdes _ _ | .recy _ _ _ => (0, 0)

/-- The causes a command may raise once its word is decoded: the table of R180, by command (R184). -/
def raisable : Instr → List Cause
  | .ldf _ _ => [.bufRange]
  | .stf _ _ => [.emptyOperand, .bufRange]
  | .fli _ _ | .pinf _ | .pldg _ | .pfxd _ => []
  | .fmov _ _ | .fadd _ _ _ | .fsub _ _ _ | .fneg _ _ | .fmul _ _ _ | .fsqrt _ _ | .pmov _ _ | .pchk _ _ | .peq _ _
  | .pneg _ _ | .padd _ _ _ => [.emptyOperand]
  | .finv _ _ => [.emptyOperand, .notInvertible]
  | .pmk _ _ _ => [.emptyOperand, .invalidCurvePoint]
  | .pgetx _ _ | .pgety _ _ => [.emptyOperand, .infinityOperand]
  | .pdbl _ _ | .psmul _ _ _ => [.emptyOperand, .verticalTangent]
  | .pser _ _ _ => [.emptyOperand, .bufRange, .infinityOperand]
  | .pdes _ _ => [.badPrefix, .bufRange, .invalidCurvePoint, .pointEncodingExhausted]
  | .recy _ _ _ => [.emptyOperand, .pointEncodingExhausted]
  | .pfxe _ => [.badPrefix]

/-! ## Host accesses -/

/-- A 32-bit read of a window offset returns `w` and has no side effect. -/
def State.WindowReads (s : State) (offset : Nat) (w : Word) : Prop :=
  hostTurn (.read .w32 offset) s = .next { s with reads := w :: s.reads }

/-- A 32-bit write of a window offset leaves the state as it is. -/
def State.IgnoresWrite (s : State) (offset : Nat) : Prop :=
  ∀ data, hostTurn (.write .w32 offset data) s = .next s

/-- The byte offset of an access. -/
def Access.offset : Access → Nat
  | .read _ offset => offset
  | .write _ offset _ => offset

/-- The three events that set `HERR` (R58): an access of unsupported width or alignment; an access of a `BUF` offset while
`BUSY = 1`; a write of `CMD` while `BUSY = 1` or `FAULT = 1`. -/
def State.Refuses (s : State) : Access → Prop
  | .read width offset => width ≠ .w32 ∨ offset % 4 ≠ 0 ∨ (s.busy = true ∧ 0x100 ≤ offset ∧ offset ≤ 0x17C)
  | .write width offset _ =>
    width ≠ .w32 ∨ offset % 4 ≠ 0 ∨ (s.busy = true ∧ 0x100 ≤ offset ∧ offset ≤ 0x17C) ∨
      (offset = 0x008 ∧ (s.busy = true ∨ s.fault = true))

/-- What a refused access leaves (R52, R55, R56): `HERR <- 1`, and the word 0 for a read. -/
def State.afterRefusal (s : State) : Access → State
  | .read _ _ => { s with herr := true, reads := 0x00000000 :: s.reads }
  | .write _ _ _ => { s with herr := true }

/-- The access is a 32-bit write of `CTRL` with `SRST = 1` (R31). -/
def Access.isSrst : Access → Bool
  | .read _ _ => false
  | .write width offset data => width == .w32 && offset == 0x00C && data.getLsbD 2

/-- The next turn is a reset (R210): the reset signal, or a `CTRL` write with `SRST = 1`. -/
def State.NextIsReset (s : State) : Prop :=
  ∃ rest, s.turns = .reset :: rest ∨ ∃ access, access.isSrst = true ∧ s.turns = .host access :: rest

/-- The word at window offset `0x100 + 4m` by which a host places a 256-bit number at `BUF[0]` (R60): the 32-bit group
`v[255-32m : 224-32m]` with its four bytes swapped. -/
def swappedGroup (v : Num256) (m : Nat) : Word :=
  v.extractLsb' (224 - 32 * m) 8 ++ v.extractLsb' (232 - 32 * m) 8 ++ v.extractLsb' (240 - 32 * m) 8 ++
    v.extractLsb' (248 - 32 * m) 8

/-! ## Runs of host programs (70_reset_and_hazards.md R217) -/

/-- One action of a host program (R217): a window read or write, or a `CMD` write followed by polling `STATUS` until
`BUSY = 0`. `waiting` holds the accesses made while the command is in progress, in order: the polls that see `BUSY = 1`,
and whatever else the host does then (program 4 of 95_test_vectors.md). How many there are is the schedule's choice, since
no duration is given (R216). -/
inductive HostAction where
  | access (a : Access)
  | command (w : Word) (waiting : List Access)
deriving DecidableEq, Repr

/-- A poll: a read of `STATUS` (R27, R212). -/
def poll : Access := .read .w32 0x004

/-- The turns of a `CMD` write and its polling: the write, the accesses while the command is in progress, the engine's
step, and the poll that finds `BUSY = 0`. -/
def commandTurns (w : Word) (waiting : List Access) : List Turn :=
  .host (.write .w32 0x008 w) :: waiting.map .host ++ [.engine, .host poll]

/-- The word of a supported write of `CMD`. -/
def Access.cmdWord : Access → Option Word
  | .read _ _ => none
  | .write width offset data => if width = .w32 ∧ offset = 0x008 then some data else none

/-- The turns of an action. Every `CMD` write is followed by polling (R217), also one given as a plain access. -/
def HostAction.turns : HostAction → List Turn
  | .access a =>
    match a.cmdWord with
    | some w => commandTurns w []
    | none => [.host a]
  | .command w waiting => commandTurns w waiting

/-- The turn is a supported read of `STATUS`, where a program that does not handle faults looks at `FAULT` (R213). -/
def Turn.readsStatus (turn : Turn) : Bool := turn == .host poll

/-- The turns of a whole host program. -/
def programTurns (actions : List HostAction) : List Turn := actions.flatMap HostAction.turns

/-- `n` steps of the machine from `s`. -/
def runSteps (n : Nat) (s : State) : Host.Outcome State Fault Refusal := Sys2Proof.core.run n s

/-- The state after the given turns, started from `s`. -/
def runTurns (ts : List Turn) (s : State) : Host.Outcome State Fault Refusal :=
  runSteps ts.length { s with turns := ts }

/-- The turns one by one, each one step of the machine, up to the first after which the program stops. -/
def runTurnsUntil (stop : Turn → State → Bool) : List Turn → State → Host.Outcome State Fault Refusal
  | [], s => .next s
  | turn :: rest, s =>
    match runTurns [turn] s with
    | .next t => if stop turn t then .next t else runTurnsUntil stop rest t
    | .fault r => .fault r
    | .refused r => .refused r

/-- A whole run of a host program that handles faults (R217): it ends when the last action has been done. -/
def runProgram (actions : List HostAction) (s : State) : Host.Outcome State Fault Refusal :=
  runTurnsUntil (fun _ _ => false) (programTurns actions) s

/-- A run of a host program that does not handle faults (R217): it ends at the first `STATUS` read that shows
`FAULT = 1`, or when the last action has been done. -/
def runUntilFault (actions : List HostAction) (s : State) : Host.Outcome State Fault Refusal :=
  runTurnsUntil (fun turn t => turn.readsStatus && t.fault) (programTurns actions) s

/-- The host kept the access rules for `n` steps (R190): `HERR = 0` throughout. -/
def HostKeepsRules (n : Nat) (s : State) : Prop :=
  ∀ k, k ≤ n → ∃ t, runSteps k s = .next t ∧ t.herr = false

/-- Every host access still to come lies in the window. -/
def State.TurnsInWindow (s : State) : Prop :=
  ∀ a, Turn.host a ∈ s.turns →
    match a with
    | .read _ offset => offset < windowSize
    | .write _ offset _ => offset < windowSize

end Sys2Proof.Machine
end

