-- ==== Sys2Proof/Certificates/Slice0/Obligations.lean ====
section
/-! DEFINITION. The statements for the provers, each with the rule of spec/ it rests on. -/

open Sys2Proof Sys2Proof.Machine

/-! ## Reset and invariants -/

/-- R37: what reset leaves, in `State.reset`, after `CTRL.SRST` and after the reset signal; and the constants, which are
the same in every state. -/
def Obligations.ResetLeavesTheTable : Prop :=
  State.reset.AtReset ∧
    (∀ (s : State) (data : Word), data.getLsbD 2 = true →
      ∃ t, hostTurn (.write .w32 0x00C data) s = .next t ∧ t.AtReset) ∧
    (∀ (s : State) (rest : List Turn), s.turns = .reset :: rest → ∃ t, step s = .next t ∧ t.AtReset) ∧
    ∀ s : State, s.WindowReads 0x000 0x4A510102 ∧ s.WindowReads 0x018 0x00800810 ∧
      ∀ k, k < 48 → s.WindowReads (0x040 + 4 * k) (cpWord Config.curve k)

/-- The state after reset has the invariant (R24, R27, R32, R33, R37). Its last clause, the canonical form of the list that
holds the buffer, is the model's choice (log entry 8), not a rule of the spec. -/
def Obligations.ResetSatisfiesInvariant : Prop := State.reset.Inv

/-- Every step keeps the invariant: valid points (R24), the known-order flag only on the base point and its negative
(R23), the fault registers as R27, R32, R33 and R189 describe them, the list that holds the buffer in its canonical form
(that form is the model's choice, log entry 8, not a rule of the spec). -/
def Obligations.StepKeepsInvariant : Prop := ∀ s t : State, s.Inv → step s = .next t → t.Inv

/-- R24: every step keeps every affine point of the point file a pair of field elements on the curve. -/
def Obligations.StepKeepsPointFileValid : Prop :=
  State.reset.PointFileValid ∧ ∀ s t : State, s.PointFileValid → step s = .next t → t.PointFileValid

/-- R21, R22: a register that holds a value becomes Empty again only by reset or `CTRL.SRST`, and after these all are. -/
def Obligations.RegistersEmptyOnlyByReset : Prop :=
  ∀ s t : State, step s = .next t →
    (¬s.NextIsReset → (∀ i, s.getF i ≠ none → t.getF i ≠ none) ∧ ∀ i, s.getPT i ≠ none → t.getPT i ≠ none) ∧
      (s.NextIsReset → (∀ i, t.getF i = none) ∧ ∀ i, t.getPT i = none)

/-! ## Encoding -/

/-- R81, R82, R86: every command, with every operand, is encoded with well-formed fields and decodes to itself. -/
def Obligations.DecodeOfEncode : Prop := ∀ i : Instr, i.wf = true ∧ decode (encode i) = .ok i

/-- R84: a word that spells a command is the encoding of that command, so that no bit of it is ignored. -/
def Obligations.EncodeOfDecode : Prop := ∀ (w : Word) (i : Instr), decode w = .ok i → encode i = w

/-- R84: a word spells a command exactly when it matches a row of the opcode map under its mask, at most one row
matches, and every match word is `op << 24`. -/
def Obligations.DecodeByMatchAndMask : Prop :=
  (∀ w : Word, (∃ i, decode w = .ok i) ↔ ∃ r ∈ opcodeTable, w &&& r.mask = r.matchWord) ∧
    (∀ (w : Word) (i : Instr), decode w = .ok i ↔
      ∃ r ∈ opcodeTable, w &&& r.mask = r.matchWord ∧ i = r.build (Fields.ofWord w)) ∧
    (∀ w : Word, ∀ r₁ ∈ opcodeTable, ∀ r₂ ∈ opcodeTable,
      w &&& r₁.mask = r₁.matchWord → w &&& r₂.mask = r₂.matchWord → r₁.op = r₂.op) ∧
    (opcodeTable.map Row.op).Nodup ∧ ∀ r ∈ opcodeTable, r.matchWord = r.op.setWidth 32 <<< 24

/-- R87: every printed mask is the one built from the columns of the opcode map. -/
def Obligations.MasksBuiltFromColumns : Prop :=
  ∀ r ∈ opcodeTable, ∃ sh, shapeOf r.op = some sh ∧ r.mask = sh.mask

/-- R81, R82, R85: a word spells a command exactly when its opcode is listed and every field is as the opcode's columns
require; the rejections name which of the two fails. -/
def Obligations.DecodeIffFieldsWellFormed : Prop :=
  ∀ w : Word,
    ((∃ i, decode w = .ok i) ↔ (Fields.ofWord w).wf = true) ∧
      (decode w = .error .unassignedOpcode ↔ shapeOf (w.extractLsb' 24 8) = none) ∧
      (decode w = .error .nonzeroReserved ↔
        ∃ sh, shapeOf (w.extractLsb' 24 8) = some sh ∧ sh.ok (Fields.ofWord w) = false)

/-- The example words of R88, decoded and assembled, and the illegal words that R85 and section 2.1 of the test vectors
list. -/
def Obligations.ExampleWordsDecode : Prop :=
  (decode 0x12100005 = .ok (.fli 1 5) ∧ decode 0x10200020 = .ok (.ldf 2 32) ∧ decode 0x11030000 = .ok (.stf 3 0) ∧
    decode 0x20012000 = .ok (.fadd 0 1 2) ∧ decode 0x31000000 = .ok (.pldg 0) ∧
    decode 0x3B104000 = .ok (.psmul 1 0 4) ∧ decode 0x3A201000 = .ok (.padd 2 0 1) ∧
    decode 0x40020121 = .ok (.pser 2 33 true) ∧ decode 0x42350100 = .ok (.recy 3 5 true) ∧
    decode 0x44000000 = .ok (.pfxd 0)) ∧
  (assemble "FLI F1, 5\nLDF F2, 32\nSTF F3, 0\nFADD F0, F1, F2\nPLDG P0" =
      some [0x12100005, 0x10200020, 0x11030000, 0x20012000, 0x31000000] ∧
    assemble "PSMUL P1, P0, F4\nPADD P2, P0, P1 # sum\nPSER P2, 33, 1\nRECY P3, F5, 1\nPFXD 0" =
      some [0x3B104000, 0x3A201000, 0x40020121, 0x42350100, 0x44000000] ∧
    assemble "FSQR F0, F1" = assemble "FMUL F0, F1, F1") ∧
  (decode 0x00000000 = .error .unassignedOpcode ∧ decode 0xFFFFFFFF = .error .unassignedOpcode ∧
    decode 0x14000000 = .error .unassignedOpcode ∧
    [0x20012001, 0x3A801000, 0x3A208000, 0x37009000, 0x30310000, 0x36112000, 0x12110005, 0x40000200, 0x40000180,
      0x42350101, 0x43000080].map decode = List.replicate 11 (.error .nonzeroReserved))

/-! ## The step -/

/-- A step runs the decoded command: with `BUSY = 1` and `CMDREG` spelling the command `i`, the engine's step, whether it
is listed as the next turn or no turn is listed, is `exec i` (R29, R185; the list of turns is the model's own, log
entry 3). -/
def Obligations.StepRunsDecodedCommand : Prop :=
  ∀ (s : State) (i : Instr), s.busy = true → decode s.cmdreg = .ok i →
    (s.turns = [] → step s = exec i s) ∧
      ∀ rest, s.turns = .engine :: rest → step s = exec i { s with turns := rest }

/-- R181: with `BUSY = 1` and `CMDREG` spelling no command, the engine's step raises `IllegalCommand`, whatever the
registers and the buffer hold, and `FINFO` records the word. -/
def Obligations.IllegalWordRaises : Prop :=
  ∀ (s : State) (e : DecodeError), s.busy = true → decode s.cmdreg = .error e →
    engineTurn s = .next { s with fault := true, fcause := 1, finfo := s.cmdreg, busy := false }

/-- R62, R185, R216: the other turns of a step: a host access acts at once on the state as it is, an engine with
`BUSY = 0` has no step (that this leaves the state unchanged is the model's choice, log entry 4). -/
def Obligations.StepTakesTheFirstTurn : Prop :=
  ∀ s : State,
    (∀ access rest, s.turns = .host access :: rest → step s = hostTurn access { s with turns := rest }) ∧
      (∀ rest, s.turns = .engine :: rest → s.busy = false → step s = .next { s with turns := rest }) ∧
      (s.turns = [] → s.busy = false → step s = .next s)

/-- What the host checks of the model: after `withFetchWord` of an encoded command the very next step runs it; and
`withFetchWord` is what an accepted `CMD` write does to an idle machine (R56; log entry 7). -/
def Obligations.FetchedWordRuns : Prop :=
  ∀ (s : State) (i : Instr),
    step (s.withFetchWord 32 (encode i).toNat) = exec i (s.withFetchWord 32 (encode i).toNat) ∧
      (s.Inv → s.busy = false → s.fault = false → s.turns = [] →
        hostTurn (.write .w32 0x008 (encode i)) s = .next (s.withFetchWord 32 (encode i).toNat))

/-- R186: when the engine's step sets `FAULT`, it sets `FAULT`, `FCAUSE`, `FINFO` and `BUSY` and changes nothing else. -/
def Obligations.FaultEntryIsPrecise : Prop :=
  ∀ s t : State, s.busy = true → s.fault = false → engineTurn s = .next t → t.fault = true →
    ∃ c : Cause, c ≠ .domainMismatch ∧
      t = { s with fault := true, fcause := c.code, finfo := s.cmdreg, busy := false }

/-- R185: every command ends in one step, with `BUSY = 0`: completed, with the fault registers as they were, or by fault
entry. -/
def Obligations.EveryCommandEndsInOneStep : Prop :=
  ∀ (i : Instr) (s : State),
    (∃ t, exec i s = .next t ∧ t.busy = false ∧ t.fault = s.fault ∧ t.fcause = s.fcause ∧ t.finfo = s.finfo ∧
      t.cmdreg = s.cmdreg ∧ t.herr = s.herr) ∨
    ∃ c : Cause, exec i s = .next { s with fault := true, fcause := c.code, finfo := s.cmdreg, busy := false }

/-- The frame of every command (10_state.md sections 1 and 2, R28, R58, R61): a command changes no register but its
destination, no flag but those R28 gives it, no byte but those it stores, and neither `HERR`, `CMDREG` nor what the outside
world has still to do and has read; the fault registers change by fault entry only. -/
def Obligations.CommandFrame : Prop :=
  ∀ (i : Instr) (s t : State), exec i s = .next t →
    (∀ r, destF i ≠ some r → t.getF r = s.getF r) ∧
      (∀ r, destPT i ≠ some r → t.getPT r = s.getPT r) ∧
      (writesT i = false → t.tflag = s.tflag) ∧ (destPT i = none → t.inf = s.inf) ∧
      (writesOffs i = false → t.offs = s.offs) ∧
      (∀ a, (a < (storedBytes i).1 ∨ (storedBytes i).1 + (storedBytes i).2 ≤ a) → t.readBuf a = s.readBuf a) ∧
      t.herr = s.herr ∧ t.cmdreg = s.cmdreg ∧ t.turns = s.turns ∧ t.reads = s.reads ∧
      ((t.fault = s.fault ∧ t.fcause = s.fcause ∧ t.finfo = s.finfo) ∨ (t.fault = true ∧ t.finfo = s.cmdreg))

/-! ## Causes and their order -/

/-- R182: a command with an Empty source register raises `EmptyOperand`, whatever its offset and values, and no other
command does; destination registers are not tested. -/
def Obligations.EmptyOperandFirst : Prop :=
  ∀ (i : Instr) (s : State),
    (s.HasEmptySource i → exec i s = .next (s.raise .emptyOperand)) ∧
      (¬s.HasEmptySource i → s.fault = false → exec i s ≠ .next (s.raise .emptyOperand))

/-- R183: which offsets raise `BufRange`, for each command that moves bytes, once its operands (and the prefix byte of
`PDES`) are there. -/
def Obligations.BufRangeLimits : Prop :=
  ∀ (s : State) (off : Off), s.fault = false →
    (∀ d, exec (.ldf d off) s = .next (s.raise .bufRange) ↔ 96 < off.toNat) ∧
      (∀ a, s.getF a ≠ none → (exec (.stf a off) s = .next (s.raise .bufRange) ↔ 96 < off.toNat)) ∧
      (∀ a, s.getPT a ≠ none → (exec (.pser a off true) s = .next (s.raise .bufRange) ↔ 95 < off.toNat)) ∧
      (∀ a, s.getPT a ≠ none → (exec (.pser a off false) s = .next (s.raise .bufRange) ↔ 63 < off.toNat)) ∧
      (s.readBuf off.toNat = 0x02 ∨ s.readBuf off.toNat = 0x03 →
        ∀ d, exec (.pdes d off) s = .next (s.raise .bufRange) ↔ 95 < off.toNat) ∧
      (s.readBuf off.toNat = 0x04 → ∀ d, exec (.pdes d off) s = .next (s.raise .bufRange) ↔ 63 < off.toNat) ∧
      exec (.pfxe off) s ≠ .next (s.raise .bufRange) ∧ exec (.pfxd off) s ≠ .next (s.raise .bufRange)

/-- R180, R184: with a valid point file, a command raises only causes that the table gives it. -/
def Obligations.CommandsRaiseOnlyTheirCauses : Prop :=
  ∀ (i : Instr) (s t : State), s.PointFileValid → s.fault = false → exec i s = .next t → t.fault = true →
    ∃ c ∈ raisable i, t.fcause = c.code

/-! ## The window -/

/-- R31: a `CTRL` write, whatever `BUSY` is. -/
def Obligations.CtrlWrite : Prop :=
  ∀ (s : State) (data : Word),
    (data.getLsbD 2 = true →
      hostTurn (.write .w32 0x00C data) s = .next { State.reset with turns := s.turns, reads := s.reads }) ∧
    (data.getLsbD 2 = false →
      hostTurn (.write .w32 0x00C data) s = .next
        { s with
          fault := s.fault && !data.getLsbD 0
          fcause := if data.getLsbD 0 then 0 else s.fcause
          finfo := if data.getLsbD 0 then 0 else s.finfo
          herr := s.herr && !data.getLsbD 1 })

/-- R56: a `CMD` write is accepted exactly when `BUSY = 0` and `FAULT = 0`, whatever the word. -/
def Obligations.CmdWrite : Prop :=
  ∀ (s : State) (w : Word),
    (s.busy = false ∧ s.fault = false →
      hostTurn (.write .w32 0x008 w) s = .next { s with cmdreg := w, busy := true }) ∧
    (s.busy = true ∨ s.fault = true → hostTurn (.write .w32 0x008 w) s = .next { s with herr := true })

/-- R27, R32, R33, R57: the words of `STATUS`, `FCAUSE` and `FINFO`, bit by bit, in every state. -/
def Obligations.StatusAndFaultWords : Prop :=
  ∀ s : State, ∃ w c : Word,
    s.WindowReads 0x004 w ∧ s.WindowReads 0x010 c ∧ s.WindowReads 0x014 s.finfo ∧
      (w.getLsbD 0 = s.busy ∧ w.getLsbD 1 = s.fault ∧ w.getLsbD 2 = s.herr ∧ w.getLsbD 3 = false ∧
        w.getLsbD 4 = s.tflag ∧ w.getLsbD 5 = s.inf ∧ w.extractLsb' 6 2 = 0 ∧ w.extractLsb' 8 7 = s.offs ∧
        w.extractLsb' 15 17 = 0) ∧
      c.extractLsb' 0 8 = s.fcause ∧ c.extractLsb' 8 24 = 0

/-- R52: an access of another width, or at an offset that is not a multiple of 4, is refused. -/
def Obligations.UnsupportedAccessRefused : Prop :=
  ∀ (s : State) (width : Width) (offset : Nat), offset < 0x1000 → width ≠ .w32 ∨ offset % 4 ≠ 0 →
    hostTurn (.read width offset) s = .next { s with herr := true, reads := 0x00000000 :: s.reads } ∧
      ∀ data, hostTurn (.write width offset data) s = .next { s with herr := true }

/-- R53: an aligned 32-bit access to a reserved offset, a write of a read-only register and a read of a write-only
register are harmless. -/
def Obligations.HarmlessAccesses : Prop :=
  ∀ s : State,
    (∀ offset, offset % 4 = 0 → (0x01C ≤ offset ∧ offset ≤ 0x03C) ∨ (0x180 ≤ offset ∧ offset ≤ 0xFFC) →
      s.WindowReads offset 0x00000000 ∧ s.IgnoresWrite offset) ∧
    (s.IgnoresWrite 0x000 ∧ s.IgnoresWrite 0x004 ∧ s.IgnoresWrite 0x010 ∧ s.IgnoresWrite 0x014 ∧ s.IgnoresWrite 0x018) ∧
    (∀ k, k < 48 → s.IgnoresWrite (0x040 + 4 * k)) ∧
    s.WindowReads 0x008 0x00000000 ∧ s.WindowReads 0x00C 0x00000000

/-- R54: the words of `CP`, least significant word first, readable in every state. -/
def Obligations.CpWords : Prop :=
  ∀ (s : State) (j : Nat), j ≤ 7 →
    s.WindowReads (0x040 + 4 * j) ((BitVec.ofNat 256 Config.curve.p).extractLsb' (32 * j) 32) ∧
      s.WindowReads (0x060 + 4 * j) ((BitVec.ofNat 256 Config.curve.a).extractLsb' (32 * j) 32) ∧
      s.WindowReads (0x080 + 4 * j) ((BitVec.ofNat 256 Config.curve.b).extractLsb' (32 * j) 32) ∧
      s.WindowReads (0x0A0 + 4 * j) ((BitVec.ofNat 256 Config.curve.gx).extractLsb' (32 * j) 32) ∧
      s.WindowReads (0x0C0 + 4 * j) ((BitVec.ofNat 256 Config.curve.gy).extractLsb' (32 * j) 32) ∧
      s.WindowReads (0x0E0 + 4 * j) ((BitVec.ofNat 256 Config.curve.r).extractLsb' (32 * j) 32)

/-- R55: `BUF` through the window: little-endian lanes when `BUSY = 0`, refused when `BUSY = 1`. -/
def Obligations.BufThroughWindow : Prop :=
  ∀ (s : State) (m : Nat), m ≤ 31 →
    (s.busy = false →
      (∃ w, s.WindowReads (0x100 + 4 * m) w ∧
        ∀ j, j < 4 → w.extractLsb' (8 * j) 8 = s.readBuf (4 * m + j)) ∧
      ∀ data, ∃ t, hostTurn (.write .w32 (0x100 + 4 * m) data) s = .next t ∧ t = { s with buf := t.buf } ∧
        (∀ j, j < 4 → t.readBuf (4 * m + j) = data.extractLsb' (8 * j) 8) ∧
        ∀ a, a < 4 * m ∨ 4 * m + 4 ≤ a → t.readBuf a = s.readBuf a) ∧
    (s.busy = true →
      hostTurn (.read .w32 (0x100 + 4 * m)) s = .next { s with herr := true, reads := 0x00000000 :: s.reads } ∧
        ∀ data, hostTurn (.write .w32 (0x100 + 4 * m) data) s = .next { s with herr := true })

/-- R58: `HERR` is set by exactly three events, each without another effect, and cleared only by `CTRL` and reset. -/
def Obligations.HerrEvents : Prop :=
  (∀ (s : State) (access : Access), access.offset < 0x1000 →
    (s.Refuses access → hostTurn access s = .next (s.afterRefusal access)) ∧
    (¬s.Refuses access → ∀ t, hostTurn access s = .next t → t.herr = true → s.herr = true)) ∧
  ∀ s t : State, step s = .next t →
    (s.herr = false → t.herr = true → ∃ access rest, s.turns = .host access :: rest ∧ s.Refuses access) ∧
    (s.herr = true → t.herr = false →
      s.NextIsReset ∨ ∃ data rest, s.turns = .host (.write .w32 0x00C data) :: rest ∧ data.getLsbD 1 = true)

/-- R60: eight window writes place a 256-bit number in `BUF[0..31]`, where `LDF` reads it, and touch no other byte. -/
def Obligations.NumberThroughWindow : Prop :=
  ∀ (s : State) (v : Num256), s.busy = false →
    ∃ t, runTurns ((List.range 8).map fun m => .host (.write .w32 (0x100 + 4 * m) (swappedGroup v m))) s = .next t ∧
      be (t.memRead 0 32) = v.toNat ∧ (∀ a, 32 ≤ a → t.readBuf a = s.readBuf a) ∧
      t = { s with buf := t.buf, turns := [] }

/-- R212: while `BUSY = 1` no access but a `CTRL` write with `SRST = 1` disturbs the command in progress: what the engine
then executes, its operands and the flags are as they were. -/
def Obligations.BusyHostCannotDisturb : Prop :=
  ∀ (s t : State) (access : Access), s.busy = true → access.isSrst = false → hostTurn access s = .next t →
    t.busy = true ∧ t.cmdreg = s.cmdreg ∧ t.fregs = s.fregs ∧ t.pregs = s.pregs ∧ t.buf = s.buf ∧
      t.tflag = s.tflag ∧ t.inf = s.inf ∧ t.offs = s.offs

/-- R20, R22, R50: no host access shows or changes an `F` or `PT` register: whatever the two files hold, every access
answers the same word and leaves the same rest of the state, and only `SRST` changes the files. -/
def Obligations.HostCannotSeeRegisters : Prop :=
  ∀ (s t : State) (F : Vector (Option Num256) 16) (P : Vector (Option PtReg) 8) (access : Access),
    hostTurn access s = .next t →
      (access.isSrst = false → t.fregs = s.fregs ∧ t.pregs = s.pregs) ∧
        ∃ u, hostTurn access { s with fregs := F, pregs := P } = .next u ∧
          { u with fregs := t.fregs, pregs := t.pregs } = t

/-- R28: no command's results depend on `T`, `INF`, `OFFS` or `HERR`, but for `PFXE`, which reads `OFFS`. -/
def Obligations.FlagsDoNotSteerCommands : Prop :=
  ∀ (i : Instr) (s₁ s₂ t₁ t₂ : State), s₁.fregs = s₂.fregs → s₁.pregs = s₂.pregs → s₁.buf = s₂.buf →
    (∀ off, i = .pfxe off → s₁.offs = s₂.offs) → s₁.fault = false → s₂.fault = false →
    exec i s₁ = .next t₁ → exec i s₂ = .next t₂ →
      t₁.fregs = t₂.fregs ∧ t₁.pregs = t₂.pregs ∧ t₁.buf = t₂.buf ∧ t₁.fault = t₂.fault ∧
        (t₁.fault = true → t₁.fcause = t₂.fcause) ∧
        (t₁.fault = false → (writesT i = true → t₁.tflag = t₂.tflag) ∧
          (destPT i ≠ none → t₁.inf = t₂.inf) ∧ (writesOffs i = true → t₁.offs = t₂.offs))

/-- R216: a busy engine steps: after the turns that are listed and one more step the machine is idle, for every word in
`CMDREG` (that the engine steps when no turn is listed is the model's form of fairness, log entry 3). -/
def Obligations.EngineEventuallyIdle : Prop :=
  ∀ s : State, s.TurnsInWindow →
    ∃ t, runSteps (s.turns.length + 1) s = .next t ∧ t.busy = false ∧ t.turns = []

/-! ## Data movement -/

/-- R100: `LDF` loads the big-endian number of the 32 bytes at `off`, or raises `BufRange`. -/
def Obligations.LdfResult : Prop :=
  ∀ (d : FReg) (off : Off) (s : State),
    (off.toNat ≤ 96 → ∃ v : Num256, v.toNat = be (s.memRead off.toNat 32) ∧
      exec (.ldf d off) s = .next { s.setF d v with busy := false }) ∧
    (96 < off.toNat → exec (.ldf d off) s = .next (s.raise .bufRange))

/-- R101: `STF` stores the number's 32 bytes, the most significant at `off`, and no other byte. -/
def Obligations.StfResult : Prop :=
  ∀ (a : FReg) (off : Off) (s : State),
    (∀ v, s.getF a = some v → off.toNat ≤ 96 →
      ∃ t, exec (.stf a off) s = .next t ∧ t = { s with buf := t.buf, busy := false } ∧
        (∀ k, k < 32 → t.readBuf (off.toNat + k) = v.extractLsb' (248 - 8 * k) 8) ∧
        ∀ k, k < off.toNat ∨ off.toNat + 32 ≤ k → t.readBuf k = s.readBuf k) ∧
    (s.getF a = none → exec (.stf a off) s = .next (s.raise .emptyOperand)) ∧
    (s.getF a ≠ none → 96 < off.toNat → exec (.stf a off) s = .next (s.raise .bufRange))

/-- R102, R103: `FLI` writes the immediate extended with zeros; `FMOV` copies the value as it stands. -/
def Obligations.FliFmovResult : Prop :=
  (∀ (d : FReg) (imm : Imm12) (s : State), ∃ v : Num256, v.toNat = imm.toNat ∧
    exec (.fli d imm) s = .next { s.setF d v with busy := false }) ∧
  ∀ (d a : FReg) (s : State),
    (∀ v, s.getF a = some v → exec (.fmov d a) s = .next { s.setF d v with busy := false }) ∧
    (s.getF a = none → exec (.fmov d a) s = .next (s.raise .emptyOperand))

/-! ## Field arithmetic -/

/-- R110, R112, R115: `FADD` and `FMUL` write the exact sum and product, reduced modulo `p`. -/
def Obligations.FaddFmulResult : Prop :=
  ∀ (d a b : FReg) (s : State),
    (∀ x y, s.getF a = some x → s.getF b = some y →
      (∃ z : Num256, z.toNat = (x.toNat + y.toNat) % Config.curve.p ∧
        exec (.fadd d a b) s = .next { s.setF d z with busy := false }) ∧
      ∃ z : Num256, z.toNat = x.toNat * y.toNat % Config.curve.p ∧
        exec (.fmul d a b) s = .next { s.setF d z with busy := false }) ∧
    (s.getF a = none ∨ s.getF b = none →
      exec (.fadd d a b) s = .next (s.raise .emptyOperand) ∧ exec (.fmul d a b) s = .next (s.raise .emptyOperand))

/-- R110, R113, R114: `FSUB` writes the one field element `z` with `z + y ≡ x`, `FNEG` the one with `z + x ≡ 0`. -/
def Obligations.FsubFnegResult : Prop :=
  (∀ (d a b : FReg) (s : State),
    (∀ x y, s.getF a = some x → s.getF b = some y →
      ∃ z : Num256, z.toNat < Config.curve.p ∧ (z.toNat + y.toNat) % Config.curve.p = x.toNat % Config.curve.p ∧
        exec (.fsub d a b) s = .next { s.setF d z with busy := false }) ∧
    (s.getF a = none ∨ s.getF b = none → exec (.fsub d a b) s = .next (s.raise .emptyOperand))) ∧
  ∀ (d a : FReg) (s : State),
    (∀ x, s.getF a = some x →
      ∃ z : Num256, z.toNat < Config.curve.p ∧ (z.toNat + x.toNat) % Config.curve.p = 0 ∧
        exec (.fneg d a) s = .next { s.setF d z with busy := false }) ∧
    (s.getF a = none → exec (.fneg d a) s = .next (s.raise .emptyOperand))

/-- R111, R116: `FINV` writes the inverse in `[1, p-1]` of every operand that is not 0 modulo `p`, and raises
`NotInvertible` on the others. -/
def Obligations.FinvResult : Prop :=
  ∀ (d a : FReg) (s : State),
    (∀ x, s.getF a = some x → x.toNat % Config.curve.p ≠ 0 →
      ∃ z : Num256, 1 ≤ z.toNat ∧ z.toNat ≤ Config.curve.p - 1 ∧ x.toNat * z.toNat % Config.curve.p = 1 ∧
        exec (.finv d a) s = .next { s.setF d z with busy := false }) ∧
    (∀ x, s.getF a = some x → x.toNat % Config.curve.p = 0 → exec (.finv d a) s = .next (s.raise .notInvertible)) ∧
    (s.getF a = none → exec (.finv d a) s = .next (s.raise .emptyOperand))

/-- R117: `FSQRT` writes `v ^ ((p+1)/4) mod p`; `T` tells whether `v` is a square, and then the result is a root of it;
else its square is `-v`. -/
def Obligations.FsqrtResult : Prop :=
  ∀ (d a : FReg) (s : State),
    (∀ x, s.getF a = some x →
      ∃ (z : Num256) (square : Bool), z.toNat = x.toNat ^ ((Config.curve.p + 1) / 4) % Config.curve.p ∧
        (square = true ↔ ∃ w, IsRoot Config.curve w x.toNat) ∧
        (square = true → IsRoot Config.curve z.toNat x.toNat) ∧
        (square = false → (z.toNat * z.toNat + x.toNat) % Config.curve.p = 0) ∧
        exec (.fsqrt d a) s = .next { s.setF d z with tflag := square, busy := false }) ∧
    (s.getF a = none → exec (.fsqrt d a) s = .next (s.raise .emptyOperand))

/-! ## Points -/

/-- R133, R134: `PINF` and `PLDG` write `Infinity` and the base point, the latter with a known order. -/
def Obligations.PinfPldgResult : Prop :=
  ∀ (d : PReg) (s : State),
    exec (.pinf d) s = .next { s.setPT d ⟨.infinity, false⟩ with inf := true, busy := false } ∧
      ∃ x y : Num256, x.toNat = Config.curve.gx ∧ y.toNat = Config.curve.gy ∧
        exec (.pldg d) s = .next { s.setPT d ⟨.affine x y, true⟩ with inf := false, busy := false }

/-- R131, R132, R135, R139: `PMK` makes the point of two field elements on the curve and rejects every other pair;
`PCHK` reports the curve equation in `T`, for any two values. -/
def Obligations.PmkPchkResult : Prop :=
  ∀ (a b : FReg) (s : State),
    (∀ x y, s.getF a = some x → s.getF b = some y →
      (∀ d, (x.toNat < Config.curve.p ∧ y.toNat < Config.curve.p ∧
          y.toNat * y.toNat % Config.curve.p =
            (x.toNat * x.toNat * x.toNat + Config.curve.a * x.toNat + Config.curve.b) % Config.curve.p →
          exec (.pmk d a b) s = .next { s.setPT d ⟨.affine x y, false⟩ with inf := false, busy := false }) ∧
        (¬(x.toNat < Config.curve.p ∧ y.toNat < Config.curve.p ∧
          y.toNat * y.toNat % Config.curve.p =
            (x.toNat * x.toNat * x.toNat + Config.curve.a * x.toNat + Config.curve.b) % Config.curve.p) →
          exec (.pmk d a b) s = .next (s.raise .invalidCurvePoint))) ∧
      exec (.pchk a b) s = .next { s with
        tflag := decide (y.toNat * y.toNat % Config.curve.p =
          (x.toNat * x.toNat * x.toNat + Config.curve.a * x.toNat + Config.curve.b) % Config.curve.p)
        busy := false }) ∧
    (s.getF a = none ∨ s.getF b = none →
      (∀ d, exec (.pmk d a b) s = .next (s.raise .emptyOperand)) ∧
        exec (.pchk a b) s = .next (s.raise .emptyOperand))

/-- R136, R140, R143: `PMOV` copies the point and its flag; `PNEG` writes the point with `y` replaced by the field element
`y'` with `y + y' ≡ 0`, and copies the flag. -/
def Obligations.PmovPnegResult : Prop :=
  ∀ (d a : PReg) (s : State),
    (∀ P ko, s.getPT a = some ⟨P, ko⟩ →
      exec (.pmov d a) s =
        .next { s.setPT d ⟨P, ko⟩ with inf := decide (P = .infinity), busy := false }) ∧
    (∀ ko, s.getPT a = some ⟨.infinity, ko⟩ →
      exec (.pneg d a) s = .next { s.setPT d ⟨.infinity, ko⟩ with inf := true, busy := false }) ∧
    (∀ x y ko, s.getPT a = some ⟨.affine x y, ko⟩ →
      ∃ y' : Num256, y'.toNat < Config.curve.p ∧ (y.toNat + y'.toNat) % Config.curve.p = 0 ∧
        exec (.pneg d a) s = .next { s.setPT d ⟨.affine x y', ko⟩ with inf := false, busy := false }) ∧
    (s.getPT a = none →
      exec (.pmov d a) s = .next (s.raise .emptyOperand) ∧ exec (.pneg d a) s = .next (s.raise .emptyOperand))

/-- R137, R138: `PGETX` and `PGETY` write a coordinate; `Infinity` has none. -/
def Obligations.PgetxPgetyResult : Prop :=
  ∀ (d : FReg) (a : PReg) (s : State),
    (∀ x y ko, s.getPT a = some ⟨.affine x y, ko⟩ →
      exec (.pgetx d a) s = .next { s.setF d x with busy := false } ∧
        exec (.pgety d a) s = .next { s.setF d y with busy := false }) ∧
    (∀ ko, s.getPT a = some ⟨.infinity, ko⟩ →
      exec (.pgetx d a) s = .next (s.raise .infinityOperand) ∧
        exec (.pgety d a) s = .next (s.raise .infinityOperand)) ∧
    (s.getPT a = none →
      exec (.pgetx d a) s = .next (s.raise .emptyOperand) ∧ exec (.pgety d a) s = .next (s.raise .emptyOperand))

/-- R13, R141: `PEQ` reports in `T` whether the two point values are the same; the flags do not matter. -/
def Obligations.PeqResult : Prop :=
  ∀ (a b : PReg) (s : State),
    (∀ P Q k₁ k₂, s.getPT a = some ⟨P, k₁⟩ → s.getPT b = some ⟨Q, k₂⟩ →
      exec (.peq a b) s = .next { s with tflag := decide (P = Q), busy := false }) ∧
    (s.getPT a = none ∨ s.getPT b = none → exec (.peq a b) s = .next (s.raise .emptyOperand))

/-- R142, R145: `PDBL` writes the double of a valid point, which exists and is valid on this curve; a point with `y = 0`
raises `VerticalTangent`. -/
def Obligations.PdblResult : Prop :=
  ∀ (d a : PReg) (s : State),
    (∀ P ko, s.getPT a = some ⟨P, ko⟩ → P.Valid Config.curve →
      ∃ R, IsDouble Config.curve P R ∧ R.Valid Config.curve ∧
        exec (.pdbl d a) s = .next { s.setPT d ⟨R, false⟩ with inf := decide (R = .infinity), busy := false }) ∧
    (∀ x ko, s.getPT a = some ⟨.affine x 0, ko⟩ → exec (.pdbl d a) s = .next (s.raise .verticalTangent)) ∧
    (s.getPT a = none → exec (.pdbl d a) s = .next (s.raise .emptyOperand))

/-- R144, R147: `PADD` writes the sum of two valid points, which always exists and is valid; it raises nothing but
`EmptyOperand`. -/
def Obligations.PaddResult : Prop :=
  ∀ (d a b : PReg) (s : State),
    (∀ P Q k₁ k₂, s.getPT a = some ⟨P, k₁⟩ → s.getPT b = some ⟨Q, k₂⟩ →
      P.Valid Config.curve → Q.Valid Config.curve →
      ∃ R, IsSum Config.curve P Q R ∧ R.Valid Config.curve ∧
        exec (.padd d a b) s = .next { s.setPT d ⟨R, false⟩ with inf := decide (R = .infinity), busy := false }) ∧
    (s.getPT a = none ∨ s.getPT b = none → exec (.padd d a b) s = .next (s.raise .emptyOperand))

/-- R146, R148: `PSMUL` of a valid point writes what repeated addition gives, with the scalar reduced modulo `r` first
where the order is known. -/
def Obligations.PsmulIsRepeatedAddition : Prop :=
  ∀ (d a : PReg) (b : FReg) (s : State),
    (∀ P ko k, s.getPT a = some ⟨P, ko⟩ → s.getF b = some k → P.Valid Config.curve →
      ∃ R, repeatedAdd Config.curve P (if ko then k.toNat % Config.curve.r else k.toNat) = .ok R ∧
        R.Valid Config.curve ∧
        exec (.psmul d a b) s = .next { s.setPT d ⟨R, false⟩ with inf := decide (R = .infinity), busy := false }) ∧
    (s.getPT a = none ∨ s.getF b = none → exec (.psmul d a b) s = .next (s.raise .emptyOperand))

/-- R146: reducing the scalar modulo the known order changes no result: in a state with the invariant, `PSMUL` writes what
`k`-fold addition of the point gives, for the scalar `k` as it is, with either value of the flag. -/
def Obligations.PsmulKnownOrderAgrees : Prop :=
  ∀ (d a : PReg) (b : FReg) (s : State) (q : PtReg) (k : Num256), s.Inv → s.getPT a = some q → s.getF b = some k →
    ∃ R, repeatedAdd Config.curve q.val k.toNat = .ok R ∧
      exec (.psmul d a b) s = .next { s.setPT d ⟨R, false⟩ with inf := decide (R = .infinity), busy := false }

/-- R150: the group laws, for all valid points of the curve. -/
def Obligations.GroupLaws : Prop :=
  (∀ P Q R : Point, P.Valid Config.curve → Q.Valid Config.curve → R.Valid Config.curve →
    ptAdd Config.curve P .infinity = .ok P ∧
      ptAdd Config.curve P (ptNeg Config.curve P) = .ok .infinity ∧
      ∃ PQ QR S, ptAdd Config.curve P Q = .ok PQ ∧ ptAdd Config.curve Q P = .ok PQ ∧
        ptAdd Config.curve Q R = .ok QR ∧ ptAdd Config.curve PQ R = .ok S ∧ ptAdd Config.curve P QR = .ok S) ∧
  (∀ (P Q : Point) (k : Nat), P.Valid Config.curve → Q.Valid Config.curve → k < 2 ^ 256 →
    ∃ PQ kP kQ S, ptAdd Config.curve P Q = .ok PQ ∧ ptSmul Config.curve P false k = .ok kP ∧
      ptSmul Config.curve Q false k = .ok kQ ∧ ptSmul Config.curve PQ false k = .ok S ∧
      ptAdd Config.curve kP kQ = .ok S) ∧
  ∀ ko, ptSmul Config.curve (basePoint Config.curve) ko Config.curve.r = .ok .infinity

/-- R8, R9: the parameter set that R7 gives this hardware is lawful: `p` is prime, the ranges hold, the base point is on
the curve, `r` times it is `Infinity`, the curve is non-singular (that the machine fixes the parameter at this value is
the model's choice, log entry 1). -/
def Obligations.CurveIsLawful : Prop := LawfulCurve Config.curve

/-! ## Codec -/

/-- R160, R163: the bytes `PSER` stores, for both forms, and the order of its faults. -/
def Obligations.PserResult : Prop :=
  ∀ (a : PReg) (off : Off) (s : State),
    (∀ x y ko, s.getPT a = some ⟨.affine x y, ko⟩ → off.toNat ≤ 95 →
      ∃ t, exec (.pser a off true) s = .next t ∧ t = { s with buf := t.buf, busy := false } ∧
        (t.readBuf off.toNat).toNat = 2 + y.toNat % 2 ∧
        (∀ k, k < 32 → t.readBuf (off.toNat + 1 + k) = x.extractLsb' (248 - 8 * k) 8) ∧
        ∀ k, k < off.toNat ∨ off.toNat + 33 ≤ k → t.readBuf k = s.readBuf k) ∧
    (∀ x y ko, s.getPT a = some ⟨.affine x y, ko⟩ → off.toNat ≤ 63 →
      ∃ t, exec (.pser a off false) s = .next t ∧ t = { s with buf := t.buf, busy := false } ∧
        t.readBuf off.toNat = 0x04 ∧
        (∀ k, k < 32 → t.readBuf (off.toNat + 1 + k) = x.extractLsb' (248 - 8 * k) 8) ∧
        (∀ k, k < 32 → t.readBuf (off.toNat + 33 + k) = y.extractLsb' (248 - 8 * k) 8) ∧
        ∀ k, k < off.toNat ∨ off.toNat + 65 ≤ k → t.readBuf k = s.readBuf k) ∧
    ∀ m : Bool,
      (s.getPT a = none → exec (.pser a off m) s = .next (s.raise .emptyOperand)) ∧
      (s.getPT a ≠ none → (if m then 95 else 63) < off.toNat → exec (.pser a off m) s = .next (s.raise .bufRange)) ∧
      (∀ ko, s.getPT a = some ⟨.infinity, ko⟩ → off.toNat ≤ (if m then 95 else 63) →
        exec (.pser a off m) s = .next (s.raise .infinityOperand))

/-- R164, R165: `PDES` of an uncompressed form, and its faults before any coordinate is read. -/
def Obligations.PdesUncompressed : Prop :=
  ∀ (d : PReg) (off : Off) (s : State),
    (s.readBuf off.toNat = 0x04 → off.toNat ≤ 63 →
      ∃ x y : Num256, x.toNat = be (s.memRead (off.toNat + 1) 32) ∧ y.toNat = be (s.memRead (off.toNat + 33) 32) ∧
        ((Point.affine x y).Valid Config.curve →
          exec (.pdes d off) s = .next { s.setPT d ⟨.affine x y, false⟩ with inf := false, busy := false }) ∧
        (¬(Point.affine x y).Valid Config.curve → exec (.pdes d off) s = .next (s.raise .invalidCurvePoint))) ∧
    (s.readBuf off.toNat = 0x04 → 63 < off.toNat → exec (.pdes d off) s = .next (s.raise .bufRange)) ∧
    (s.readBuf off.toNat = 0x02 ∨ s.readBuf off.toNat = 0x03 → 95 < off.toNat →
      exec (.pdes d off) s = .next (s.raise .bufRange)) ∧
    (s.readBuf off.toNat ≠ 0x02 → s.readBuf off.toNat ≠ 0x03 → s.readBuf off.toNat ≠ 0x04 →
      exec (.pdes d off) s = .next (s.raise .badPrefix))

/-- R161, R164, R165: `PDES` of a compressed form: the point with the `x` that was read and the parity of the prefix, where
there is one; `InvalidCurvePoint` where only an `x` above it has one; `PointEncodingExhausted` where none of the 128
has. -/
def Obligations.PdesCompressed : Prop :=
  ∀ (d : PReg) (off : Off) (s : State) (x : Num256), s.readBuf off.toNat = 0x02 ∨ s.readBuf off.toNat = 0x03 →
    off.toNat ≤ 95 → x.toNat = be (s.memRead (off.toNat + 1) 32) →
    (HasPoint Config.curve x.toNat →
      ∃ y : Num256, (Point.affine x y).Valid Config.curve ∧ y.toNat % 2 = (s.readBuf off.toNat).toNat % 2 ∧
        exec (.pdes d off) s = .next { s.setPT d ⟨.affine x y, false⟩ with inf := false, busy := false }) ∧
    (¬HasPoint Config.curve x.toNat → (∃ k, k < 128 ∧ HasPoint Config.curve (x.toNat + k)) →
      exec (.pdes d off) s = .next (s.raise .invalidCurvePoint)) ∧
    ((∀ k, k < 128 → ¬HasPoint Config.curve (x.toNat + k)) →
      exec (.pdes d off) s = .next (s.raise .pointEncodingExhausted))

/-- R161, R166: `RECY` finds the smallest offset below 128 that gives a point, writes that point with the wanted parity
and the offset in `OFFS`; where there is none it raises `PointEncodingExhausted`. -/
def Obligations.RecyResult : Prop :=
  ∀ (d : PReg) (a : FReg) (wantOdd : Bool) (s : State),
    (∀ x, s.getF a = some x → (∃ k, k < 128 ∧ HasPoint Config.curve (x.toNat + k)) →
      ∃ (k : Nat) (mx y : Num256), k < 128 ∧ mx.toNat = x.toNat + k ∧ (Point.affine mx y).Valid Config.curve ∧
        (∀ j, j < k → ¬HasPoint Config.curve (x.toNat + j)) ∧ decide (y.toNat % 2 = 1) = wantOdd ∧
        exec (.recy d a wantOdd) s = .next
          { s.setPT d ⟨.affine mx y, false⟩ with offs := BitVec.ofNat 7 k, inf := false, busy := false }) ∧
    (∀ x, s.getF a = some x → (∀ k, k < 128 → ¬HasPoint Config.curve (x.toNat + k)) →
      exec (.recy d a wantOdd) s = .next (s.raise .pointEncodingExhausted)) ∧
    (s.getF a = none → exec (.recy d a wantOdd) s = .next (s.raise .emptyOperand))

/-- R162, R168, R169: `PFXE` and `PFXD` with the layout `OFFSET_LOW`. -/
def Obligations.PfxePfxdResult : Prop :=
  ∀ (off : Off) (s : State),
    (s.readBuf off.toNat = 0x02 ∨ s.readBuf off.toNat = 0x03 →
      ∃ b : Byte, b.toNat = 128 * ((s.readBuf off.toNat).toNat % 2) + s.offs.toNat ∧
        exec (.pfxe off) s = .next { s.memWrite off.toNat [b] with busy := false }) ∧
    (s.readBuf off.toNat ≠ 0x02 → s.readBuf off.toNat ≠ 0x03 →
      exec (.pfxe off) s = .next (s.raise .badPrefix)) ∧
    ∃ (b : Byte) (v : BitVec 7), b.toNat = 2 + (s.readBuf off.toNat).toNat / 128 ∧
      v.toNat = (s.readBuf off.toNat).toNat % 128 ∧
      exec (.pfxd off) s = .next { s.memWrite off.toNat [b] with offs := v, busy := false }

/-- R162: in both layouts the two prefix functions are inverse bijections, with the bits where the table puts them. -/
def Obligations.PrefixFunctionsInverse : Prop :=
  (∀ (l : PfxLayout) (parity : Bool) (offset : BitVec 7), decPrefix l (encPrefix l parity offset) = (parity, offset)) ∧
    (∀ (l : PfxLayout) (byte : Byte), encPrefix l (decPrefix l byte).1 (decPrefix l byte).2 = byte) ∧
    ∀ (parity : Bool) (offset : BitVec 7),
      (encPrefix .offsetLow parity offset).toNat = parity.toNat <<< 7 ||| offset.toNat ∧
        (encPrefix .parityLow parity offset).toNat = offset.toNat <<< 1 ||| parity.toNat

/-- R169: `PFXD` after `PFXE` at the same address, with that byte and `OFFS` unchanged between, restores the byte and
leaves `OFFS` as it was. -/
def Obligations.PfxdUndoesPfxe : Prop :=
  ∀ (off : Off) (s t u : State), s.readBuf off.toNat = 0x02 ∨ s.readBuf off.toNat = 0x03 →
    exec (.pfxe off) s = .next t → u.readBuf off.toNat = t.readBuf off.toNat → u.offs = t.offs →
    ∃ v, exec (.pfxd off) u = .next v ∧ v.readBuf off.toNat = s.readBuf off.toNat ∧ v.offs = s.offs

/-- R165: a point that `PSER` stored, in either form, is the point that `PDES` reads back, if the bytes are unchanged
between. -/
def Obligations.CodecRoundTrip : Prop :=
  ∀ (a d : PReg) (off : Off) (m : Bool) (s u : State) (x y : Num256) (ko : Bool), s.getPT a = some ⟨.affine x y, ko⟩ →
    (Point.affine x y).Valid Config.curve → off.toNat ≤ (if m then 95 else 63) →
    ∃ t, exec (.pser a off m) s = .next t ∧
      ((∀ k, off.toNat ≤ k → k < off.toNat + formLength m → u.readBuf k = t.readBuf k) →
        exec (.pdes d off) u = .next { u.setPT d ⟨.affine x y, false⟩ with inf := false, busy := false })
end

