-- ==== Sys2Proof/Laws/State.lean ====
section
/-! SUPPORT. What each named update of the state does to each field: one lemma per field per update. -/

namespace Sys2Proof.Machine

/-! ## `State.setF` -/

@[simp] theorem State.setF_fregs (s : State) (i : FReg) (v : Num256) : (s.setF i v).fregs = s.fregs.set i.toNat (some v) := rfl
@[simp] theorem State.setF_pregs (s : State) (i : FReg) (v : Num256) : (s.setF i v).pregs = s.pregs := rfl
@[simp] theorem State.setF_buf (s : State) (i : FReg) (v : Num256) : (s.setF i v).buf = s.buf := rfl
@[simp] theorem State.setF_busy (s : State) (i : FReg) (v : Num256) : (s.setF i v).busy = s.busy := rfl
@[simp] theorem State.setF_fault (s : State) (i : FReg) (v : Num256) : (s.setF i v).fault = s.fault := rfl
@[simp] theorem State.setF_herr (s : State) (i : FReg) (v : Num256) : (s.setF i v).herr = s.herr := rfl
@[simp] theorem State.setF_tflag (s : State) (i : FReg) (v : Num256) : (s.setF i v).tflag = s.tflag := rfl
@[simp] theorem State.setF_inf (s : State) (i : FReg) (v : Num256) : (s.setF i v).inf = s.inf := rfl
@[simp] theorem State.setF_offs (s : State) (i : FReg) (v : Num256) : (s.setF i v).offs = s.offs := rfl
@[simp] theorem State.setF_cmdreg (s : State) (i : FReg) (v : Num256) : (s.setF i v).cmdreg = s.cmdreg := rfl
@[simp] theorem State.setF_fcause (s : State) (i : FReg) (v : Num256) : (s.setF i v).fcause = s.fcause := rfl
@[simp] theorem State.setF_finfo (s : State) (i : FReg) (v : Num256) : (s.setF i v).finfo = s.finfo := rfl
@[simp] theorem State.setF_turns (s : State) (i : FReg) (v : Num256) : (s.setF i v).turns = s.turns := rfl
@[simp] theorem State.setF_reads (s : State) (i : FReg) (v : Num256) : (s.setF i v).reads = s.reads := rfl
@[simp] theorem State.setF_getPT (s : State) (i : FReg) (v : Num256) (r : PReg) : (s.setF i v).getPT r = s.getPT r := rfl
@[simp] theorem State.setF_readBuf (s : State) (i : FReg) (v : Num256) (k : Nat) : (s.setF i v).readBuf k = s.readBuf k := rfl

/-! ## `State.setPT` -/

@[simp] theorem State.setPT_fregs (s : State) (i : PReg) (q : PtReg) : (s.setPT i q).fregs = s.fregs := rfl
@[simp] theorem State.setPT_pregs (s : State) (i : PReg) (q : PtReg) : (s.setPT i q).pregs = s.pregs.set i.toNat (some q) := rfl
@[simp] theorem State.setPT_buf (s : State) (i : PReg) (q : PtReg) : (s.setPT i q).buf = s.buf := rfl
@[simp] theorem State.setPT_busy (s : State) (i : PReg) (q : PtReg) : (s.setPT i q).busy = s.busy := rfl
@[simp] theorem State.setPT_fault (s : State) (i : PReg) (q : PtReg) : (s.setPT i q).fault = s.fault := rfl
@[simp] theorem State.setPT_herr (s : State) (i : PReg) (q : PtReg) : (s.setPT i q).herr = s.herr := rfl
@[simp] theorem State.setPT_tflag (s : State) (i : PReg) (q : PtReg) : (s.setPT i q).tflag = s.tflag := rfl
@[simp] theorem State.setPT_inf (s : State) (i : PReg) (q : PtReg) : (s.setPT i q).inf = s.inf := rfl
@[simp] theorem State.setPT_offs (s : State) (i : PReg) (q : PtReg) : (s.setPT i q).offs = s.offs := rfl
@[simp] theorem State.setPT_cmdreg (s : State) (i : PReg) (q : PtReg) : (s.setPT i q).cmdreg = s.cmdreg := rfl
@[simp] theorem State.setPT_fcause (s : State) (i : PReg) (q : PtReg) : (s.setPT i q).fcause = s.fcause := rfl
@[simp] theorem State.setPT_finfo (s : State) (i : PReg) (q : PtReg) : (s.setPT i q).finfo = s.finfo := rfl
@[simp] theorem State.setPT_turns (s : State) (i : PReg) (q : PtReg) : (s.setPT i q).turns = s.turns := rfl
@[simp] theorem State.setPT_reads (s : State) (i : PReg) (q : PtReg) : (s.setPT i q).reads = s.reads := rfl
@[simp] theorem State.setPT_getF (s : State) (i : PReg) (q : PtReg) (r : FReg) : (s.setPT i q).getF r = s.getF r := rfl
@[simp] theorem State.setPT_readBuf (s : State) (i : PReg) (q : PtReg) (k : Nat) : (s.setPT i q).readBuf k = s.readBuf k := rfl

/-! ## `State.memWrite` -/

@[simp] theorem State.memWrite_fregs (s : State) (a : Nat) (str : List Byte) : (s.memWrite a str).fregs = s.fregs := rfl
@[simp] theorem State.memWrite_pregs (s : State) (a : Nat) (str : List Byte) : (s.memWrite a str).pregs = s.pregs := rfl
@[simp] theorem State.memWrite_buf (s : State) (a : Nat) (str : List Byte) : (s.memWrite a str).buf = s.buf.writeBytes a str := rfl
@[simp] theorem State.memWrite_busy (s : State) (a : Nat) (str : List Byte) : (s.memWrite a str).busy = s.busy := rfl
@[simp] theorem State.memWrite_fault (s : State) (a : Nat) (str : List Byte) : (s.memWrite a str).fault = s.fault := rfl
@[simp] theorem State.memWrite_herr (s : State) (a : Nat) (str : List Byte) : (s.memWrite a str).herr = s.herr := rfl
@[simp] theorem State.memWrite_tflag (s : State) (a : Nat) (str : List Byte) : (s.memWrite a str).tflag = s.tflag := rfl
@[simp] theorem State.memWrite_inf (s : State) (a : Nat) (str : List Byte) : (s.memWrite a str).inf = s.inf := rfl
@[simp] theorem State.memWrite_offs (s : State) (a : Nat) (str : List Byte) : (s.memWrite a str).offs = s.offs := rfl
@[simp] theorem State.memWrite_cmdreg (s : State) (a : Nat) (str : List Byte) : (s.memWrite a str).cmdreg = s.cmdreg := rfl
@[simp] theorem State.memWrite_fcause (s : State) (a : Nat) (str : List Byte) : (s.memWrite a str).fcause = s.fcause := rfl
@[simp] theorem State.memWrite_finfo (s : State) (a : Nat) (str : List Byte) : (s.memWrite a str).finfo = s.finfo := rfl
@[simp] theorem State.memWrite_turns (s : State) (a : Nat) (str : List Byte) : (s.memWrite a str).turns = s.turns := rfl
@[simp] theorem State.memWrite_reads (s : State) (a : Nat) (str : List Byte) : (s.memWrite a str).reads = s.reads := rfl
@[simp] theorem State.memWrite_getF (s : State) (a : Nat) (str : List Byte) (r : FReg) : (s.memWrite a str).getF r = s.getF r := rfl
@[simp] theorem State.memWrite_getPT (s : State) (a : Nat) (str : List Byte) (r : PReg) : (s.memWrite a str).getPT r = s.getPT r := rfl

/-! ## `State.raise` -/

@[simp] theorem State.raise_fregs (s : State) (c : Cause) : (s.raise c).fregs = s.fregs := rfl
@[simp] theorem State.raise_pregs (s : State) (c : Cause) : (s.raise c).pregs = s.pregs := rfl
@[simp] theorem State.raise_buf (s : State) (c : Cause) : (s.raise c).buf = s.buf := rfl
@[simp] theorem State.raise_busy (s : State) (c : Cause) : (s.raise c).busy = false := rfl
@[simp] theorem State.raise_fault (s : State) (c : Cause) : (s.raise c).fault = true := rfl
@[simp] theorem State.raise_herr (s : State) (c : Cause) : (s.raise c).herr = s.herr := rfl
@[simp] theorem State.raise_tflag (s : State) (c : Cause) : (s.raise c).tflag = s.tflag := rfl
@[simp] theorem State.raise_inf (s : State) (c : Cause) : (s.raise c).inf = s.inf := rfl
@[simp] theorem State.raise_offs (s : State) (c : Cause) : (s.raise c).offs = s.offs := rfl
@[simp] theorem State.raise_cmdreg (s : State) (c : Cause) : (s.raise c).cmdreg = s.cmdreg := rfl
@[simp] theorem State.raise_fcause (s : State) (c : Cause) : (s.raise c).fcause = c.code := rfl
@[simp] theorem State.raise_finfo (s : State) (c : Cause) : (s.raise c).finfo = s.cmdreg := rfl
@[simp] theorem State.raise_turns (s : State) (c : Cause) : (s.raise c).turns = s.turns := rfl
@[simp] theorem State.raise_reads (s : State) (c : Cause) : (s.raise c).reads = s.reads := rfl
@[simp] theorem State.raise_getF (s : State) (c : Cause) (r : FReg) : (s.raise c).getF r = s.getF r := rfl
@[simp] theorem State.raise_getPT (s : State) (c : Cause) (r : PReg) : (s.raise c).getPT r = s.getPT r := rfl
@[simp] theorem State.raise_readBuf (s : State) (c : Cause) (k : Nat) : (s.raise c).readBuf k = s.readBuf k := rfl

/-! ## `State.clearFault` -/

@[simp] theorem State.clearFault_fregs (s : State) : (s.clearFault).fregs = s.fregs := rfl
@[simp] theorem State.clearFault_pregs (s : State) : (s.clearFault).pregs = s.pregs := rfl
@[simp] theorem State.clearFault_buf (s : State) : (s.clearFault).buf = s.buf := rfl
@[simp] theorem State.clearFault_busy (s : State) : (s.clearFault).busy = s.busy := rfl
@[simp] theorem State.clearFault_fault (s : State) : (s.clearFault).fault = false := rfl
@[simp] theorem State.clearFault_herr (s : State) : (s.clearFault).herr = s.herr := rfl
@[simp] theorem State.clearFault_tflag (s : State) : (s.clearFault).tflag = s.tflag := rfl
@[simp] theorem State.clearFault_inf (s : State) : (s.clearFault).inf = s.inf := rfl
@[simp] theorem State.clearFault_offs (s : State) : (s.clearFault).offs = s.offs := rfl
@[simp] theorem State.clearFault_cmdreg (s : State) : (s.clearFault).cmdreg = s.cmdreg := rfl
@[simp] theorem State.clearFault_fcause (s : State) : (s.clearFault).fcause = 0 := rfl
@[simp] theorem State.clearFault_finfo (s : State) : (s.clearFault).finfo = 0 := rfl
@[simp] theorem State.clearFault_turns (s : State) : (s.clearFault).turns = s.turns := rfl
@[simp] theorem State.clearFault_reads (s : State) : (s.clearFault).reads = s.reads := rfl
@[simp] theorem State.clearFault_getF (s : State) (r : FReg) : (s.clearFault).getF r = s.getF r := rfl
@[simp] theorem State.clearFault_getPT (s : State) (r : PReg) : (s.clearFault).getPT r = s.getPT r := rfl
@[simp] theorem State.clearFault_readBuf (s : State) (k : Nat) : (s.clearFault).readBuf k = s.readBuf k := rfl

/-! ## `State.clearHerr` -/

@[simp] theorem State.clearHerr_fregs (s : State) : (s.clearHerr).fregs = s.fregs := rfl
@[simp] theorem State.clearHerr_pregs (s : State) : (s.clearHerr).pregs = s.pregs := rfl
@[simp] theorem State.clearHerr_buf (s : State) : (s.clearHerr).buf = s.buf := rfl
@[simp] theorem State.clearHerr_busy (s : State) : (s.clearHerr).busy = s.busy := rfl
@[simp] theorem State.clearHerr_fault (s : State) : (s.clearHerr).fault = s.fault := rfl
@[simp] theorem State.clearHerr_herr (s : State) : (s.clearHerr).herr = false := rfl
@[simp] theorem State.clearHerr_tflag (s : State) : (s.clearHerr).tflag = s.tflag := rfl
@[simp] theorem State.clearHerr_inf (s : State) : (s.clearHerr).inf = s.inf := rfl
@[simp] theorem State.clearHerr_offs (s : State) : (s.clearHerr).offs = s.offs := rfl
@[simp] theorem State.clearHerr_cmdreg (s : State) : (s.clearHerr).cmdreg = s.cmdreg := rfl
@[simp] theorem State.clearHerr_fcause (s : State) : (s.clearHerr).fcause = s.fcause := rfl
@[simp] theorem State.clearHerr_finfo (s : State) : (s.clearHerr).finfo = s.finfo := rfl
@[simp] theorem State.clearHerr_turns (s : State) : (s.clearHerr).turns = s.turns := rfl
@[simp] theorem State.clearHerr_reads (s : State) : (s.clearHerr).reads = s.reads := rfl
@[simp] theorem State.clearHerr_getF (s : State) (r : FReg) : (s.clearHerr).getF r = s.getF r := rfl
@[simp] theorem State.clearHerr_getPT (s : State) (r : PReg) : (s.clearHerr).getPT r = s.getPT r := rfl
@[simp] theorem State.clearHerr_readBuf (s : State) (k : Nat) : (s.clearHerr).readBuf k = s.readBuf k := rfl

/-! ## `State.setHerr` -/

@[simp] theorem State.setHerr_fregs (s : State) : (s.setHerr).fregs = s.fregs := rfl
@[simp] theorem State.setHerr_pregs (s : State) : (s.setHerr).pregs = s.pregs := rfl
@[simp] theorem State.setHerr_buf (s : State) : (s.setHerr).buf = s.buf := rfl
@[simp] theorem State.setHerr_busy (s : State) : (s.setHerr).busy = s.busy := rfl
@[simp] theorem State.setHerr_fault (s : State) : (s.setHerr).fault = s.fault := rfl
@[simp] theorem State.setHerr_herr (s : State) : (s.setHerr).herr = true := rfl
@[simp] theorem State.setHerr_tflag (s : State) : (s.setHerr).tflag = s.tflag := rfl
@[simp] theorem State.setHerr_inf (s : State) : (s.setHerr).inf = s.inf := rfl
@[simp] theorem State.setHerr_offs (s : State) : (s.setHerr).offs = s.offs := rfl
@[simp] theorem State.setHerr_cmdreg (s : State) : (s.setHerr).cmdreg = s.cmdreg := rfl
@[simp] theorem State.setHerr_fcause (s : State) : (s.setHerr).fcause = s.fcause := rfl
@[simp] theorem State.setHerr_finfo (s : State) : (s.setHerr).finfo = s.finfo := rfl
@[simp] theorem State.setHerr_turns (s : State) : (s.setHerr).turns = s.turns := rfl
@[simp] theorem State.setHerr_reads (s : State) : (s.setHerr).reads = s.reads := rfl
@[simp] theorem State.setHerr_getF (s : State) (r : FReg) : (s.setHerr).getF r = s.getF r := rfl
@[simp] theorem State.setHerr_getPT (s : State) (r : PReg) : (s.setHerr).getPT r = s.getPT r := rfl
@[simp] theorem State.setHerr_readBuf (s : State) (k : Nat) : (s.setHerr).readBuf k = s.readBuf k := rfl

/-! ## `State.endCommand` -/

@[simp] theorem State.endCommand_fregs (s : State) : (s.endCommand).fregs = s.fregs := rfl
@[simp] theorem State.endCommand_pregs (s : State) : (s.endCommand).pregs = s.pregs := rfl
@[simp] theorem State.endCommand_buf (s : State) : (s.endCommand).buf = s.buf := rfl
@[simp] theorem State.endCommand_busy (s : State) : (s.endCommand).busy = false := rfl
@[simp] theorem State.endCommand_fault (s : State) : (s.endCommand).fault = s.fault := rfl
@[simp] theorem State.endCommand_herr (s : State) : (s.endCommand).herr = s.herr := rfl
@[simp] theorem State.endCommand_tflag (s : State) : (s.endCommand).tflag = s.tflag := rfl
@[simp] theorem State.endCommand_inf (s : State) : (s.endCommand).inf = s.inf := rfl
@[simp] theorem State.endCommand_offs (s : State) : (s.endCommand).offs = s.offs := rfl
@[simp] theorem State.endCommand_cmdreg (s : State) : (s.endCommand).cmdreg = s.cmdreg := rfl
@[simp] theorem State.endCommand_fcause (s : State) : (s.endCommand).fcause = s.fcause := rfl
@[simp] theorem State.endCommand_finfo (s : State) : (s.endCommand).finfo = s.finfo := rfl
@[simp] theorem State.endCommand_turns (s : State) : (s.endCommand).turns = s.turns := rfl
@[simp] theorem State.endCommand_reads (s : State) : (s.endCommand).reads = s.reads := rfl
@[simp] theorem State.endCommand_getF (s : State) (r : FReg) : (s.endCommand).getF r = s.getF r := rfl
@[simp] theorem State.endCommand_getPT (s : State) (r : PReg) : (s.endCommand).getPT r = s.getPT r := rfl
@[simp] theorem State.endCommand_readBuf (s : State) (k : Nat) : (s.endCommand).readBuf k = s.readBuf k := rfl

/-! ## `State.accept` -/

@[simp] theorem State.accept_fregs (s : State) (w : Word) : (s.accept w).fregs = s.fregs := rfl
@[simp] theorem State.accept_pregs (s : State) (w : Word) : (s.accept w).pregs = s.pregs := rfl
@[simp] theorem State.accept_buf (s : State) (w : Word) : (s.accept w).buf = s.buf := rfl
@[simp] theorem State.accept_busy (s : State) (w : Word) : (s.accept w).busy = true := rfl
@[simp] theorem State.accept_fault (s : State) (w : Word) : (s.accept w).fault = s.fault := rfl
@[simp] theorem State.accept_herr (s : State) (w : Word) : (s.accept w).herr = s.herr := rfl
@[simp] theorem State.accept_tflag (s : State) (w : Word) : (s.accept w).tflag = s.tflag := rfl
@[simp] theorem State.accept_inf (s : State) (w : Word) : (s.accept w).inf = s.inf := rfl
@[simp] theorem State.accept_offs (s : State) (w : Word) : (s.accept w).offs = s.offs := rfl
@[simp] theorem State.accept_cmdreg (s : State) (w : Word) : (s.accept w).cmdreg = w := rfl
@[simp] theorem State.accept_fcause (s : State) (w : Word) : (s.accept w).fcause = s.fcause := rfl
@[simp] theorem State.accept_finfo (s : State) (w : Word) : (s.accept w).finfo = s.finfo := rfl
@[simp] theorem State.accept_turns (s : State) (w : Word) : (s.accept w).turns = s.turns := rfl
@[simp] theorem State.accept_reads (s : State) (w : Word) : (s.accept w).reads = s.reads := rfl
@[simp] theorem State.accept_getF (s : State) (w : Word) (r : FReg) : (s.accept w).getF r = s.getF r := rfl
@[simp] theorem State.accept_getPT (s : State) (w : Word) (r : PReg) : (s.accept w).getPT r = s.getPT r := rfl
@[simp] theorem State.accept_readBuf (s : State) (w : Word) (k : Nat) : (s.accept w).readBuf k = s.readBuf k := rfl

/-! ## `State.setT` -/

@[simp] theorem State.setT_fregs (s : State) (b : Bool) : (s.setT b).fregs = s.fregs := rfl
@[simp] theorem State.setT_pregs (s : State) (b : Bool) : (s.setT b).pregs = s.pregs := rfl
@[simp] theorem State.setT_buf (s : State) (b : Bool) : (s.setT b).buf = s.buf := rfl
@[simp] theorem State.setT_busy (s : State) (b : Bool) : (s.setT b).busy = s.busy := rfl
@[simp] theorem State.setT_fault (s : State) (b : Bool) : (s.setT b).fault = s.fault := rfl
@[simp] theorem State.setT_herr (s : State) (b : Bool) : (s.setT b).herr = s.herr := rfl
@[simp] theorem State.setT_tflag (s : State) (b : Bool) : (s.setT b).tflag = b := rfl
@[simp] theorem State.setT_inf (s : State) (b : Bool) : (s.setT b).inf = s.inf := rfl
@[simp] theorem State.setT_offs (s : State) (b : Bool) : (s.setT b).offs = s.offs := rfl
@[simp] theorem State.setT_cmdreg (s : State) (b : Bool) : (s.setT b).cmdreg = s.cmdreg := rfl
@[simp] theorem State.setT_fcause (s : State) (b : Bool) : (s.setT b).fcause = s.fcause := rfl
@[simp] theorem State.setT_finfo (s : State) (b : Bool) : (s.setT b).finfo = s.finfo := rfl
@[simp] theorem State.setT_turns (s : State) (b : Bool) : (s.setT b).turns = s.turns := rfl
@[simp] theorem State.setT_reads (s : State) (b : Bool) : (s.setT b).reads = s.reads := rfl
@[simp] theorem State.setT_getF (s : State) (b : Bool) (r : FReg) : (s.setT b).getF r = s.getF r := rfl
@[simp] theorem State.setT_getPT (s : State) (b : Bool) (r : PReg) : (s.setT b).getPT r = s.getPT r := rfl
@[simp] theorem State.setT_readBuf (s : State) (b : Bool) (k : Nat) : (s.setT b).readBuf k = s.readBuf k := rfl

/-! ## `State.setInf` -/

@[simp] theorem State.setInf_fregs (s : State) (b : Bool) : (s.setInf b).fregs = s.fregs := rfl
@[simp] theorem State.setInf_pregs (s : State) (b : Bool) : (s.setInf b).pregs = s.pregs := rfl
@[simp] theorem State.setInf_buf (s : State) (b : Bool) : (s.setInf b).buf = s.buf := rfl
@[simp] theorem State.setInf_busy (s : State) (b : Bool) : (s.setInf b).busy = s.busy := rfl
@[simp] theorem State.setInf_fault (s : State) (b : Bool) : (s.setInf b).fault = s.fault := rfl
@[simp] theorem State.setInf_herr (s : State) (b : Bool) : (s.setInf b).herr = s.herr := rfl
@[simp] theorem State.setInf_tflag (s : State) (b : Bool) : (s.setInf b).tflag = s.tflag := rfl
@[simp] theorem State.setInf_inf (s : State) (b : Bool) : (s.setInf b).inf = b := rfl
@[simp] theorem State.setInf_offs (s : State) (b : Bool) : (s.setInf b).offs = s.offs := rfl
@[simp] theorem State.setInf_cmdreg (s : State) (b : Bool) : (s.setInf b).cmdreg = s.cmdreg := rfl
@[simp] theorem State.setInf_fcause (s : State) (b : Bool) : (s.setInf b).fcause = s.fcause := rfl
@[simp] theorem State.setInf_finfo (s : State) (b : Bool) : (s.setInf b).finfo = s.finfo := rfl
@[simp] theorem State.setInf_turns (s : State) (b : Bool) : (s.setInf b).turns = s.turns := rfl
@[simp] theorem State.setInf_reads (s : State) (b : Bool) : (s.setInf b).reads = s.reads := rfl
@[simp] theorem State.setInf_getF (s : State) (b : Bool) (r : FReg) : (s.setInf b).getF r = s.getF r := rfl
@[simp] theorem State.setInf_getPT (s : State) (b : Bool) (r : PReg) : (s.setInf b).getPT r = s.getPT r := rfl
@[simp] theorem State.setInf_readBuf (s : State) (b : Bool) (k : Nat) : (s.setInf b).readBuf k = s.readBuf k := rfl

/-! ## `State.setOffs` -/

@[simp] theorem State.setOffs_fregs (s : State) (v : BitVec 7) : (s.setOffs v).fregs = s.fregs := rfl
@[simp] theorem State.setOffs_pregs (s : State) (v : BitVec 7) : (s.setOffs v).pregs = s.pregs := rfl
@[simp] theorem State.setOffs_buf (s : State) (v : BitVec 7) : (s.setOffs v).buf = s.buf := rfl
@[simp] theorem State.setOffs_busy (s : State) (v : BitVec 7) : (s.setOffs v).busy = s.busy := rfl
@[simp] theorem State.setOffs_fault (s : State) (v : BitVec 7) : (s.setOffs v).fault = s.fault := rfl
@[simp] theorem State.setOffs_herr (s : State) (v : BitVec 7) : (s.setOffs v).herr = s.herr := rfl
@[simp] theorem State.setOffs_tflag (s : State) (v : BitVec 7) : (s.setOffs v).tflag = s.tflag := rfl
@[simp] theorem State.setOffs_inf (s : State) (v : BitVec 7) : (s.setOffs v).inf = s.inf := rfl
@[simp] theorem State.setOffs_offs (s : State) (v : BitVec 7) : (s.setOffs v).offs = v := rfl
@[simp] theorem State.setOffs_cmdreg (s : State) (v : BitVec 7) : (s.setOffs v).cmdreg = s.cmdreg := rfl
@[simp] theorem State.setOffs_fcause (s : State) (v : BitVec 7) : (s.setOffs v).fcause = s.fcause := rfl
@[simp] theorem State.setOffs_finfo (s : State) (v : BitVec 7) : (s.setOffs v).finfo = s.finfo := rfl
@[simp] theorem State.setOffs_turns (s : State) (v : BitVec 7) : (s.setOffs v).turns = s.turns := rfl
@[simp] theorem State.setOffs_reads (s : State) (v : BitVec 7) : (s.setOffs v).reads = s.reads := rfl
@[simp] theorem State.setOffs_getF (s : State) (v : BitVec 7) (r : FReg) : (s.setOffs v).getF r = s.getF r := rfl
@[simp] theorem State.setOffs_getPT (s : State) (v : BitVec 7) (r : PReg) : (s.setOffs v).getPT r = s.getPT r := rfl
@[simp] theorem State.setOffs_readBuf (s : State) (v : BitVec 7) (k : Nat) : (s.setOffs v).readBuf k = s.readBuf k := rfl

/-! ## `State.putPoint` -/

@[simp] theorem State.putPoint_fregs (s : State) (d : PReg) (val : Point) (ko : Bool) : (s.putPoint d val ko).fregs = s.fregs := rfl
@[simp] theorem State.putPoint_pregs (s : State) (d : PReg) (val : Point) (ko : Bool) : (s.putPoint d val ko).pregs = s.pregs.set d.toNat (some ⟨val, ko⟩) := rfl
@[simp] theorem State.putPoint_buf (s : State) (d : PReg) (val : Point) (ko : Bool) : (s.putPoint d val ko).buf = s.buf := rfl
@[simp] theorem State.putPoint_busy (s : State) (d : PReg) (val : Point) (ko : Bool) : (s.putPoint d val ko).busy = s.busy := rfl
@[simp] theorem State.putPoint_fault (s : State) (d : PReg) (val : Point) (ko : Bool) : (s.putPoint d val ko).fault = s.fault := rfl
@[simp] theorem State.putPoint_herr (s : State) (d : PReg) (val : Point) (ko : Bool) : (s.putPoint d val ko).herr = s.herr := rfl
@[simp] theorem State.putPoint_tflag (s : State) (d : PReg) (val : Point) (ko : Bool) : (s.putPoint d val ko).tflag = s.tflag := rfl
@[simp] theorem State.putPoint_inf (s : State) (d : PReg) (val : Point) (ko : Bool) : (s.putPoint d val ko).inf = val.isInfinity := rfl
@[simp] theorem State.putPoint_offs (s : State) (d : PReg) (val : Point) (ko : Bool) : (s.putPoint d val ko).offs = s.offs := rfl
@[simp] theorem State.putPoint_cmdreg (s : State) (d : PReg) (val : Point) (ko : Bool) : (s.putPoint d val ko).cmdreg = s.cmdreg := rfl
@[simp] theorem State.putPoint_fcause (s : State) (d : PReg) (val : Point) (ko : Bool) : (s.putPoint d val ko).fcause = s.fcause := rfl
@[simp] theorem State.putPoint_finfo (s : State) (d : PReg) (val : Point) (ko : Bool) : (s.putPoint d val ko).finfo = s.finfo := rfl
@[simp] theorem State.putPoint_turns (s : State) (d : PReg) (val : Point) (ko : Bool) : (s.putPoint d val ko).turns = s.turns := rfl
@[simp] theorem State.putPoint_reads (s : State) (d : PReg) (val : Point) (ko : Bool) : (s.putPoint d val ko).reads = s.reads := rfl
@[simp] theorem State.putPoint_getF (s : State) (d : PReg) (val : Point) (ko : Bool) (r : FReg) : (s.putPoint d val ko).getF r = s.getF r := rfl
@[simp] theorem State.putPoint_readBuf (s : State) (d : PReg) (val : Point) (ko : Bool) (k : Nat) : (s.putPoint d val ko).readBuf k = s.readBuf k := rfl

/-! ## `State.reply` -/

@[simp] theorem State.reply_fregs (s : State) (w : Word) : (s.reply w).fregs = s.fregs := rfl
@[simp] theorem State.reply_pregs (s : State) (w : Word) : (s.reply w).pregs = s.pregs := rfl
@[simp] theorem State.reply_buf (s : State) (w : Word) : (s.reply w).buf = s.buf := rfl
@[simp] theorem State.reply_busy (s : State) (w : Word) : (s.reply w).busy = s.busy := rfl
@[simp] theorem State.reply_fault (s : State) (w : Word) : (s.reply w).fault = s.fault := rfl
@[simp] theorem State.reply_herr (s : State) (w : Word) : (s.reply w).herr = s.herr := rfl
@[simp] theorem State.reply_tflag (s : State) (w : Word) : (s.reply w).tflag = s.tflag := rfl
@[simp] theorem State.reply_inf (s : State) (w : Word) : (s.reply w).inf = s.inf := rfl
@[simp] theorem State.reply_offs (s : State) (w : Word) : (s.reply w).offs = s.offs := rfl
@[simp] theorem State.reply_cmdreg (s : State) (w : Word) : (s.reply w).cmdreg = s.cmdreg := rfl
@[simp] theorem State.reply_fcause (s : State) (w : Word) : (s.reply w).fcause = s.fcause := rfl
@[simp] theorem State.reply_finfo (s : State) (w : Word) : (s.reply w).finfo = s.finfo := rfl
@[simp] theorem State.reply_turns (s : State) (w : Word) : (s.reply w).turns = s.turns := rfl
@[simp] theorem State.reply_reads (s : State) (w : Word) : (s.reply w).reads = w :: s.reads := rfl
@[simp] theorem State.reply_getF (s : State) (w : Word) (r : FReg) : (s.reply w).getF r = s.getF r := rfl
@[simp] theorem State.reply_getPT (s : State) (w : Word) (r : PReg) : (s.reply w).getPT r = s.getPT r := rfl
@[simp] theorem State.reply_readBuf (s : State) (w : Word) (k : Nat) : (s.reply w).readBuf k = s.readBuf k := rfl

/-! ## Reset and the turns -/


@[simp] theorem State.resetEngine_fregs (s : State) : s.resetEngine.fregs = Vector.replicate 16 none := rfl
@[simp] theorem State.resetEngine_pregs (s : State) : s.resetEngine.pregs = Vector.replicate 8 none := rfl
@[simp] theorem State.resetEngine_buf (s : State) : s.resetEngine.buf = [] := rfl
@[simp] theorem State.resetEngine_busy (s : State) : s.resetEngine.busy = false := rfl
@[simp] theorem State.resetEngine_fault (s : State) : s.resetEngine.fault = false := rfl
@[simp] theorem State.resetEngine_herr (s : State) : s.resetEngine.herr = false := rfl
@[simp] theorem State.resetEngine_tflag (s : State) : s.resetEngine.tflag = false := rfl
@[simp] theorem State.resetEngine_inf (s : State) : s.resetEngine.inf = false := rfl
@[simp] theorem State.resetEngine_offs (s : State) : s.resetEngine.offs = 0 := rfl
@[simp] theorem State.resetEngine_cmdreg (s : State) : s.resetEngine.cmdreg = 0 := rfl
@[simp] theorem State.resetEngine_fcause (s : State) : s.resetEngine.fcause = 0 := rfl
@[simp] theorem State.resetEngine_finfo (s : State) : s.resetEngine.finfo = 0 := rfl
@[simp] theorem State.resetEngine_turns (s : State) : s.resetEngine.turns = s.turns := rfl
@[simp] theorem State.resetEngine_reads (s : State) : s.resetEngine.reads = s.reads := rfl
@[simp] theorem State.withTurns_fregs (s : State) (ts : List Turn) : ({ s with turns := ts } : State).fregs = s.fregs := rfl
@[simp] theorem State.withTurns_pregs (s : State) (ts : List Turn) : ({ s with turns := ts } : State).pregs = s.pregs := rfl
@[simp] theorem State.withTurns_buf (s : State) (ts : List Turn) : ({ s with turns := ts } : State).buf = s.buf := rfl
@[simp] theorem State.withTurns_busy (s : State) (ts : List Turn) : ({ s with turns := ts } : State).busy = s.busy := rfl
@[simp] theorem State.withTurns_fault (s : State) (ts : List Turn) : ({ s with turns := ts } : State).fault = s.fault := rfl
@[simp] theorem State.withTurns_herr (s : State) (ts : List Turn) : ({ s with turns := ts } : State).herr = s.herr := rfl
@[simp] theorem State.withTurns_tflag (s : State) (ts : List Turn) : ({ s with turns := ts } : State).tflag = s.tflag := rfl
@[simp] theorem State.withTurns_inf (s : State) (ts : List Turn) : ({ s with turns := ts } : State).inf = s.inf := rfl
@[simp] theorem State.withTurns_offs (s : State) (ts : List Turn) : ({ s with turns := ts } : State).offs = s.offs := rfl
@[simp] theorem State.withTurns_cmdreg (s : State) (ts : List Turn) : ({ s with turns := ts } : State).cmdreg = s.cmdreg := rfl
@[simp] theorem State.withTurns_fcause (s : State) (ts : List Turn) : ({ s with turns := ts } : State).fcause = s.fcause := rfl
@[simp] theorem State.withTurns_finfo (s : State) (ts : List Turn) : ({ s with turns := ts } : State).finfo = s.finfo := rfl
@[simp] theorem State.withTurns_turns (s : State) (ts : List Turn) : ({ s with turns := ts } : State).turns = ts := rfl
@[simp] theorem State.withTurns_reads (s : State) (ts : List Turn) : ({ s with turns := ts } : State).reads = s.reads := rfl

end Sys2Proof.Machine
end

