-- ==== Sys2Proof/Laws/Memory.lean ====
section
/-! SUPPORT. The buffer: a read after a write, the canonical form and that every operation keeps it, and byte strings
(00_scope.md R11, 20_memory.md R61). -/

namespace Sys2Proof.Machine

@[simp] theorem Memory.read_nil (a : Nat) : Memory.read [] a = unlistedByte := rfl

theorem Memory.read_cons (c : Host.Cell) (m : Memory) (a : Nat) :
    Memory.read (c :: m) a = if c.1 = a then c.2 else Memory.read m a := rfl

theorem Memory.read_of_not_listed {m : Memory} {a : Nat} (h : ∀ c ∈ m, c.1 ≠ a) : m.read a = unlistedByte := by
  induction m with
  | nil => rfl
  | cons c m ih =>
    rw [Memory.read_cons, if_neg (h c (by simp))]
    exact ih fun d hd => h d (by simp [hd])

theorem Memory.read_erase (m : Memory) (a k : Nat) :
    (m.erase a).read k = if k = a then unlistedByte else m.read k := by
  induction m with
  | nil => simp [Memory.erase]
  | cons c m ih =>
    simp only [Memory.erase, List.filter_cons] at ih ⊢
    by_cases hca : c.1 = a
    · by_cases hk : k = a
      · simpa [hca, hk] using ih
      · have : ¬ a = k := fun h => hk h.symm
        simpa [hca, hk, Memory.read_cons, this] using ih
    · by_cases hk : k = a
      · subst hk
        simpa [hca, Memory.read_cons] using ih
      · simp only [bne_iff_ne, ne_eq, hca, not_false_eq_true, if_true, Memory.read_cons, ih, hk, if_false]

theorem Memory.read_insert {m : Memory} {a : Nat} (h : ∀ c ∈ m, c.1 ≠ a) (b : Byte) (k : Nat) :
    (m.insert a b).read k = if k = a then b else m.read k := by
  induction m with
  | nil => simp [Memory.insert, Memory.read_cons, eq_comm]
  | cons c m ih =>
    have hc : c.1 ≠ a := h c (by simp)
    have ih := ih fun d hd => h d (by simp [hd])
    unfold Memory.insert
    split
    · simp [Memory.read_cons, eq_comm]
    · simp only [Memory.read_cons, ih]
      by_cases hk : k = a
      · simp [hk, hc]
      · simp [hk]

theorem Memory.not_listed_erase (m : Memory) (a : Nat) : ∀ c ∈ m.erase a, c.1 ≠ a := by
  intro c hc
  simpa using (List.mem_filter.mp hc).2

/-- What a write of one byte does to every read. -/
theorem Memory.read_write (m : Memory) (a : Nat) (b : Byte) (k : Nat) :
    (m.write a b).read k = if k = a then b else m.read k := by
  unfold Memory.write
  split
  · subst_vars
    exact Memory.read_erase m a k
  · rw [Memory.read_insert (Memory.not_listed_erase m a), Memory.read_erase]
    split <;> rfl

/-- What a write of a byte string does to every read. -/
theorem Memory.read_writeBytes (m : Memory) (a : Nat) (str : List Byte) (k : Nat) :
    (m.writeBytes a str).read k =
      if h : a ≤ k ∧ k < a + str.length then str[k - a]'(by omega) else m.read k := by
  induction str generalizing m a with
  | nil => simp [Memory.writeBytes]
  | cons b str ih =>
    rw [Memory.writeBytes, ih, Memory.read_write]
    by_cases hk : k = a
    · subst hk
      simp
    · by_cases hin : a + 1 ≤ k ∧ k < a + 1 + str.length
      · have h2 : a ≤ k ∧ k < a + (b :: str).length := by simp; omega
        rw [dif_pos hin, dif_pos h2, List.getElem_cons, dif_neg (by omega)]
        congr 1
      · have h2 : ¬ (a ≤ k ∧ k < a + (b :: str).length) := by simp; omega
        rw [dif_neg hin, dif_neg h2, if_neg hk]

theorem Memory.read_writeBytes_outside (m : Memory) (a : Nat) (str : List Byte) (k : Nat)
    (h : k < a ∨ a + str.length ≤ k) : (m.writeBytes a str).read k = m.read k := by
  rw [Memory.read_writeBytes, dif_neg (by omega)]

@[simp] theorem Memory.length_readBytes (m : Memory) (a n : Nat) : (m.readBytes a n).length = n := by
  induction n generalizing a with
  | zero => rfl
  | succ n ih => simp [Memory.readBytes, ih]

theorem Memory.getElem_readBytes (m : Memory) (a n i : Nat) (h : i < (m.readBytes a n).length) :
    (m.readBytes a n)[i] = m.read (a + i) := by
  induction n generalizing a i with
  | zero => simp [Memory.readBytes] at h
  | succ n ih =>
    cases i with
    | zero => simp [Memory.readBytes]
    | succ i =>
      have h' : i < (m.readBytes (a + 1) n).length := by simpa [Memory.readBytes] using h
      have := ih (a + 1) i h'
      simp only [Memory.readBytes, List.getElem_cons_succ]
      rw [this]
      congr 1
      omega

/-- Two reads of strings agree where the bytes agree. -/
theorem Memory.readBytes_congr {m m' : Memory} {a n : Nat} (h : ∀ k, a ≤ k → k < a + n → m.read k = m'.read k) :
    m.readBytes a n = m'.readBytes a n := by
  apply List.ext_getElem (by simp)
  intro i h1 h2
  rw [Memory.getElem_readBytes, Memory.getElem_readBytes]
  exact h _ (by omega) (by simp at h1; omega)

/-- A string that was written is the string that is read. -/
theorem Memory.readBytes_writeBytes (m : Memory) (a : Nat) (str : List Byte) :
    (m.writeBytes a str).readBytes a str.length = str := by
  apply List.ext_getElem (by simp)
  intro i h1 h2
  rw [Memory.getElem_readBytes, Memory.read_writeBytes, dif_pos (by simp at h1; omega)]
  congr 1
  omega

/-! ## The canonical form -/

theorem Memory.wf_nil : Memory.wf [] := by simp [Memory.wf]

theorem Memory.wf_erase {m : Memory} (h : m.wf) (a : Nat) : (m.erase a).wf :=
  ⟨h.1.sublist List.filter_sublist, fun c hc => h.2 c (List.mem_of_mem_filter hc)⟩

theorem Memory.mem_insert {m : Memory} {a : Nat} {b : Byte} {c : Host.Cell} (h : c ∈ m.insert a b) :
    c = (a, b) ∨ c ∈ m := by
  induction m with
  | nil => simpa [Memory.insert] using h
  | cons d m ih =>
    unfold Memory.insert at h
    split at h
    · simpa using h
    · rcases List.mem_cons.mp h with rfl | h
      · simp
      · rcases ih h with h | h <;> simp [h]

theorem Memory.wf_insert {m : Memory} (h : m.wf) {a : Nat} (ha : a < Config.bufSize) (hfree : ∀ c ∈ m, c.1 ≠ a)
    {b : Byte} (hb : b ≠ unlistedByte) : (m.insert a b).wf := by
  refine ⟨?_, fun c hc => ?_⟩
  · induction m with
    | nil => simp [Memory.insert]
    | cons d m ih =>
      have hd := List.pairwise_cons.mp h.1
      unfold Memory.insert
      split
      · rename_i hlt
        refine List.pairwise_cons.mpr ⟨fun c hc => ?_, h.1⟩
        rcases List.mem_cons.mp hc with rfl | hc
        · exact hlt
        · exact lt_trans hlt (hd.1 c hc)
      · rename_i hge
        refine List.pairwise_cons.mpr ⟨fun c hc => ?_, ih ⟨hd.2, fun c hc => h.2 c (by simp [hc])⟩
          fun c hc => hfree c (by simp [hc])⟩
        rcases Memory.mem_insert hc with rfl | hc
        · exact lt_of_le_of_ne (not_lt.mp hge) (hfree d (by simp))
        · exact hd.1 c hc
  · rcases Memory.mem_insert hc with rfl | hc
    · exact ⟨ha, hb⟩
    · exact h.2 c hc

theorem Memory.wf_write {m : Memory} (h : m.wf) {a : Nat} (ha : a < Config.bufSize) (b : Byte) : (m.write a b).wf := by
  unfold Memory.write
  split
  · exact Memory.wf_erase h a
  · rename_i hb
    exact Memory.wf_insert (Memory.wf_erase h a) ha (Memory.not_listed_erase m a) hb

theorem Memory.wf_writeBytes {m : Memory} (h : m.wf) {a : Nat} {str : List Byte}
    (ha : a + str.length ≤ Config.bufSize) : (m.writeBytes a str).wf := by
  induction str generalizing m a with
  | nil => exact h
  | cons b str ih =>
    simp only [List.length_cons] at ha
    exact ih (Memory.wf_write h (by omega) b) (by omega)

theorem State.reset_buf_wf : State.reset.buf.wf := Memory.wf_nil

end Sys2Proof.Machine
end

