-- ==== Sys2Proof/Laws/Bytes.lean ====
section
/-! SUPPORT. Numbers as big-endian byte strings (00_scope.md R11, 20_memory.md R59). -/

namespace Sys2Proof.Machine

@[simp] theorem length_bytesBE (n v : Nat) : (bytesBE n v).length = n := by
  induction n with
  | zero => rfl
  | succ n ih => simp [bytesBE, ih]

@[simp] theorem length_bytesBE32 (v : Num256) : (bytesBE32 v).length = 32 := length_bytesBE 32 v.toNat

theorem getElem_bytesBE (n v i : Nat) (h : i < (bytesBE n v).length) :
    (bytesBE n v)[i] = BitVec.ofNat 8 (v / 256 ^ (n - 1 - i)) := by
  induction n generalizing i with
  | zero => simp [bytesBE] at h
  | succ n ih =>
    cases i with
    | zero => simp [bytesBE]
    | succ i =>
      have h' : i < (bytesBE n v).length := by simpa [bytesBE] using h
      simp only [bytesBE, List.getElem_cons_succ, ih i h']
      congr 3
      omega

theorem be_foldl_bytesBE (n v acc : Nat) :
    (bytesBE n v).foldl (fun acc b => acc * 256 + b.toNat) acc = acc * 256 ^ n + v % 256 ^ n := by
  induction n generalizing acc with
  | zero => simp [bytesBE, Nat.mod_one]
  | succ n ih =>
    have h : v % 256 ^ (n + 1) = v % 256 ^ n + 256 ^ n * (v / 256 ^ n % 256) := Nat.mod_pow_succ
    rw [bytesBE, List.foldl_cons, ih, BitVec.toNat_ofNat, h, show (2 : Nat) ^ 8 = 256 from rfl]
    generalize v / 256 ^ n % 256 = q
    generalize v % 256 ^ n = r
    ring

theorem be_bytesBE (n v : Nat) : be (bytesBE n v) = v % 256 ^ n := by
  simpa [be] using be_foldl_bytesBE n v 0

@[simp] theorem be_bytesBE32 (v : Num256) : be (bytesBE32 v) = v.toNat := by
  rw [bytesBE32, be_bytesBE]
  exact Nat.mod_eq_of_lt (by have := v.isLt; norm_num at this ⊢; exact this)

theorem be_foldl_bound (str : List Byte) (acc : Nat) :
    str.foldl (fun acc b => acc * 256 + b.toNat) acc = acc * 256 ^ str.length + be str := by
  induction str generalizing acc with
  | nil => simp [be]
  | cons b str ih =>
    simp only [be, List.foldl_cons, List.length_cons, Nat.zero_mul, Nat.zero_add]
    rw [ih, ih b.toNat]
    ring

theorem be_cons (b : Byte) (str : List Byte) : be (b :: str) = b.toNat * 256 ^ str.length + be str := by
  have := be_foldl_bound str b.toNat
  simpa [be] using this

theorem be_lt (str : List Byte) : be str < 256 ^ str.length := by
  induction str with
  | nil => simp [be]
  | cons b str ih =>
    rw [be_cons, List.length_cons, pow_succ]
    have := b.isLt
    nlinarith

theorem bytesBE_be (str : List Byte) : bytesBE str.length (be str) = str := by
  apply List.ext_getElem (by simp)
  intro i h1 h2
  rw [getElem_bytesBE]
  induction str generalizing i with
  | nil => simp at h2
  | cons b str ih =>
    have hlt := be_lt str
    have hpos : 0 < 256 ^ str.length := by positivity
    cases i with
    | zero =>
      simp only [List.length_cons, be_cons, Nat.add_sub_cancel, Nat.sub_zero, List.getElem_cons_zero]
      rw [Nat.add_comm, Nat.add_mul_div_right _ _ hpos, Nat.div_eq_of_lt hlt, Nat.zero_add]
      simp
    | succ i =>
      have hi : i < str.length := by simpa using h2
      have hsplit : str.length = (str.length - 1 - i) + (i + 1) := by omega
      have hidx : str.length + 1 - 1 - (i + 1) = str.length - 1 - i := by omega
      simp only [List.length_cons, be_cons, List.getElem_cons_succ, hidx]
      rw [← ih i (by simpa using hi) hi]
      have : b.toNat * 256 ^ str.length = 256 ^ (str.length - 1 - i) * (256 * (256 ^ i * b.toNat)) := by
        conv_lhs => rw [hsplit, pow_add, pow_succ]
        ring
      rw [this, Nat.mul_add_div (by positivity)]
      apply BitVec.eq_of_toNat_eq
      simp [Nat.add_mod, Nat.mul_mod_right]

@[simp] theorem toNat_readNum (s : State) (a : Nat) : (s.readNum a).toNat = be (s.memRead a 32) := by
  have := be_lt (s.memRead a 32)
  simp only [State.memRead, Memory.length_readBytes] at this
  rw [State.readNum, BitVec.toNat_ofNat]
  exact Nat.mod_eq_of_lt (by norm_num at this ⊢; exact this)

/-- The bytes a number is read from are its big-endian bytes. -/
theorem bytesBE32_readNum (s : State) (a : Nat) : bytesBE32 (s.readNum a) = s.memRead a 32 := by
  rw [bytesBE32, toNat_readNum]
  have := bytesBE_be (s.memRead a 32)
  rwa [State.memRead, Memory.length_readBytes] at this

/-- A number that was written is the number that is read. -/
theorem readNum_memWrite (s : State) (a : Nat) (v : Num256) : (s.memWrite a (bytesBE32 v)).readNum a = v := by
  have h := Memory.readBytes_writeBytes s.buf a (bytesBE32 v)
  rw [length_bytesBE32] at h
  apply BitVec.eq_of_toNat_eq
  rw [toNat_readNum, State.memRead, State.memWrite_buf, h, be_bytesBE32]

/-- A number is the one read from bytes that are its big-endian bytes. -/
theorem readNum_eq_of_memRead {s : State} {a : Nat} {v : Num256} (h : s.memRead a 32 = bytesBE32 v) : s.readNum a = v := by
  apply BitVec.eq_of_toNat_eq
  rw [toNat_readNum, h, be_bytesBE32]

end Sys2Proof.Machine
end

