-- ==== Sys2Proof/Laws/Registers.lean ====
section
/-! SUPPORT. Reading a register after a write (10_state.md R20 to R22), and the registers after reset (R37). -/

namespace Sys2Proof.Machine

theorem State.getF_setF (s : State) (i j : FReg) (v : Num256) :
    (s.setF i v).getF j = if j = i then some v else s.getF j := by
  simp only [State.getF, State.setF, Vector.getElem_set, BitVec.toNat_inj, eq_comm]

@[simp] theorem State.getF_setF_same (s : State) (i : FReg) (v : Num256) : (s.setF i v).getF i = some v := by
  simp [State.getF_setF]

theorem State.getF_setF_other (s : State) (i j : FReg) (v : Num256) (h : j ≠ i) :
    (s.setF i v).getF j = s.getF j := by
  simp [State.getF_setF, h]

theorem State.getPT_setPT (s : State) (i j : PReg) (q : PtReg) :
    (s.setPT i q).getPT j = if j = i then some q else s.getPT j := by
  simp only [State.getPT, State.setPT, Vector.getElem_set, BitVec.toNat_inj, eq_comm]

@[simp] theorem State.getPT_setPT_same (s : State) (i : PReg) (q : PtReg) : (s.setPT i q).getPT i = some q := by
  simp [State.getPT_setPT]

theorem State.getPT_putPoint (s : State) (i j : PReg) (val : Point) (ko : Bool) :
    (s.putPoint i val ko).getPT j = if j = i then some ⟨val, ko⟩ else s.getPT j :=
  State.getPT_setPT s i j ⟨val, ko⟩

@[simp] theorem State.getF_reset (i : FReg) : State.reset.getF i = none := by
  simp [State.getF, State.reset]

@[simp] theorem State.getPT_reset (i : PReg) : State.reset.getPT i = none := by
  simp [State.getPT, State.reset]

@[simp] theorem State.getF_resetEngine (s : State) (i : FReg) : s.resetEngine.getF i = none := by
  simp [State.getF]

@[simp] theorem State.getPT_resetEngine (s : State) (i : PReg) : s.resetEngine.getPT i = none := by
  simp [State.getPT]

end Sys2Proof.Machine
end

