-- ==== Sys2Proof/Laws/Outcome.lean ====
section
/-! SUPPORT. What the shared operations that obtain operands and end a command can do: one lemma each, which later proofs
cite instead of unfolding them (60_exceptions.md R182, R183, R185, R186). -/

namespace Sys2Proof.Machine

/-- An engine step always gives a next state: the completed one, or fault entry. -/
theorem finish_cases (s : State) (r : Except Cause State) :
    (∃ t, r = .ok t ∧ finish s r = .next t.endCommand) ∨ (∃ c, r = .error c ∧ finish s r = .next (s.raise c)) := by
  cases r with
  | ok t => exact .inl ⟨t, rfl, rfl⟩
  | error c => exact .inr ⟨c, rfl, rfl⟩

@[simp] theorem finish_ok (s t : State) : finish s (.ok t) = .next t.endCommand := rfl
@[simp] theorem finish_error (s : State) (c : Cause) : finish s (.error c) = .next (s.raise c) := rfl
@[simp] theorem finish_pure (s t : State) : finish s (pure t) = .next t.endCommand := rfl

@[simp] theorem except_ok_bind {α β : Type} (a : α) (f : α → Except Cause β) : (Except.ok a >>= f) = f a := rfl
@[simp] theorem except_error_bind {α β : Type} (c : Cause) (f : α → Except Cause β) :
    ((Except.error c : Except Cause α) >>= f) = .error c := rfl

/-- A sequence of two computations raises what the first raises, or what the second raises after it. -/
theorem except_bind_eq_error {α β : Type} {x : Except Cause α} {f : α → Except Cause β} {c : Cause} :
    (x >>= f) = .error c ↔ x = .error c ∨ ∃ a, x = .ok a ∧ f a = .error c := by
  cases x with
  | ok a => simp
  | error d => simp

/-- A sequence of two computations succeeds where both do. -/
theorem except_bind_eq_ok {α β : Type} {x : Except Cause α} {f : α → Except Cause β} {b : β} :
    (x >>= f) = .ok b ↔ ∃ a, x = .ok a ∧ f a = .ok b := by
  cases x with
  | ok a => simp
  | error d => simp

theorem State.readF_of_some {s : State} {i : FReg} {v : Num256} (h : s.getF i = some v) : s.readF i = .ok v := by
  simp [State.readF, h]

theorem State.readF_of_none {s : State} {i : FReg} (h : s.getF i = none) : s.readF i = .error .emptyOperand := by
  simp [State.readF, h]

theorem State.readF_eq_ok {s : State} {i : FReg} {v : Num256} : s.readF i = .ok v ↔ s.getF i = some v := by
  unfold State.readF
  split <;> simp_all

theorem State.readF_eq_error {s : State} {i : FReg} {c : Cause} :
    s.readF i = .error c ↔ s.getF i = none ∧ c = .emptyOperand := by
  rcases h : s.getF i with _ | v
  · simp [State.readF_of_none h, eq_comm]
  · simp [State.readF_of_some h]

theorem State.readPT_of_some {s : State} {i : PReg} {q : PtReg} (h : s.getPT i = some q) : s.readPT i = .ok q := by
  simp [State.readPT, h]

theorem State.readPT_of_none {s : State} {i : PReg} (h : s.getPT i = none) : s.readPT i = .error .emptyOperand := by
  simp [State.readPT, h]

theorem State.readPT_eq_ok {s : State} {i : PReg} {q : PtReg} : s.readPT i = .ok q ↔ s.getPT i = some q := by
  unfold State.readPT
  split <;> simp_all

theorem State.readPT_eq_error {s : State} {i : PReg} {c : Cause} :
    s.readPT i = .error c ↔ s.getPT i = none ∧ c = .emptyOperand := by
  rcases h : s.getPT i with _ | q
  · simp [State.readPT_of_none h, eq_comm]
  · simp [State.readPT_of_some h]

theorem checkRange_of_le {off n : Nat} (h : off + n ≤ 128) : checkRange off n = .ok () := by
  rw [checkRange, if_neg]
  exact not_lt.mpr h

theorem checkRange_of_gt {off n : Nat} (h : 128 < off + n) : checkRange off n = .error .bufRange := by
  rw [checkRange, if_pos]
  exact h

theorem checkRange_eq_ok {off n : Nat} : checkRange off n = .ok () ↔ off + n ≤ 128 := by
  rcases Nat.lt_or_ge 128 (off + n) with h | h
  · rw [checkRange_of_gt h]
    simp
    omega
  · simp [checkRange_of_le h, h]

theorem checkRange_eq_error {off n : Nat} {c : Cause} : checkRange off n = .error c ↔ 128 < off + n ∧ c = .bufRange := by
  rcases Nat.lt_or_ge 128 (off + n) with h | h
  · simp [checkRange_of_gt h, h, eq_comm]
  · rw [checkRange_of_le h]
    simp
    omega

theorem Point.coords_eq_ok {P : Point} {xy : Num256 × Num256} : P.coords = .ok xy ↔ P = .affine xy.1 xy.2 := by
  cases P with
  | infinity => simp [Point.coords]
  | affine x y => obtain ⟨a, b⟩ := xy; simp [Point.coords]

theorem Point.coords_eq_error {P : Point} {c : Cause} : P.coords = .error c ↔ P = .infinity ∧ c = .infinityOperand := by
  cases P with
  | infinity => simp [Point.coords, eq_comm]
  | affine x y => simp [Point.coords]

/-- Every command's meaning is one `finish` (R185). -/
theorem exec_eq_finish (i : Instr) (s : State) : ∃ r, exec i s = finish s r := by
  cases i <;>
    simp only [exec, execLdf, execStf, execFli, execFmov, execFadd, execFsub, execFneg, execFmul, execFinv, execFsqrt,
      execPinf, execPldg, execPmk, execPmov, execPgetx, execPgety, execPchk, execPeq, execPneg, execPdbl, execPadd,
      execPsmul, execPser, execPdes, execRecy, execPfxe, execPfxd] <;>
    exact ⟨_, rfl⟩

end Sys2Proof.Machine
end

