-- ==== Sys2Proof/Laws/FieldArith.lean ====
section
/-! SUPPORT. What `modp`, the power and the inverse modulo `m` compute (00_scope.md R10, 41_field.md R111, R117). -/

namespace Sys2Proof.Machine

theorem modp_lt {c : Curve} (hp : 0 < c.p) (x : Int) : modp c x < c.p := by
  have h1 := Int.emod_nonneg x (show (c.p : Int) ≠ 0 by omega)
  have h2 := Int.emod_lt_of_pos x (show (0 : Int) < c.p by omega)
  unfold modp
  omega

theorem modp_cast {c : Curve} (hp : 0 < c.p) (x : Int) : ((modp c x : Nat) : Int) = x % (c.p : Int) := by
  have h1 := Int.emod_nonneg x (show (c.p : Int) ≠ 0 by omega)
  unfold modp
  omega

theorem modp_natCast (c : Curve) (n : Nat) : modp c (n : Int) = n % c.p := by
  unfold modp
  omega

theorem modp_natCast_of_lt {c : Curve} {n : Nat} (h : n < c.p) : modp c (n : Int) = n := by
  rw [modp_natCast, Nat.mod_eq_of_lt h]

/-- `modp x` is the field element that `x` is. -/
theorem modp_zmod {c : Curve} (hp : 0 < c.p) (x : Int) : ((modp c x : Nat) : ZMod c.p) = (x : ZMod c.p) := by
  have h : (((modp c x : Nat) : Int) : ZMod c.p) = ((x % (c.p : Int) : Int) : ZMod c.p) := by rw [modp_cast hp]
  rw [ZMod.intCast_mod] at h
  exact_mod_cast h

theorem toNat_toNum {v : Nat} (h : v < 2 ^ 256) : (toNum v).toNat = v := by
  rw [toNum, BitVec.toNat_ofNat]
  exact Nat.mod_eq_of_lt h

@[simp] theorem toNum_toNat (v : Num256) : toNum v.toNat = v := by simp [toNum]

/-! ## Powers -/

theorem powModLoop_eq {m : Nat} (bits b e acc : Nat) (he : e < 2 ^ bits) :
    powModLoop m bits b e acc % m = acc * b ^ e % m := by
  induction bits generalizing b e acc with
  | zero =>
    have : e = 0 := by simpa using he
    simp [powModLoop, this]
  | succ bits ih =>
    rw [powModLoop, ih _ _ _ (by rw [pow_succ] at he; omega)]
    have hsplit : b ^ e = (b * b) ^ (e / 2) * b ^ (e % 2) := by
      rw [← pow_two, ← pow_mul, ← pow_add, Nat.div_add_mod]
    by_cases hodd : e % 2 = 1
    · rw [if_pos hodd, hsplit, hodd, pow_one]
      conv_rhs => rw [show acc * ((b * b) ^ (e / 2) * b) = acc * b * (b * b) ^ (e / 2) by ring]
      rw [Nat.mul_mod, Nat.mod_mod, Nat.pow_mod, Nat.mod_mod, ← Nat.pow_mod, ← Nat.mul_mod]
    · have h0 : e % 2 = 0 := by omega
      rw [if_neg hodd, hsplit, h0, pow_zero, mul_one]
      conv_lhs => rw [Nat.mul_mod, Nat.pow_mod, Nat.mod_mod, ← Nat.pow_mod, ← Nat.mul_mod]

theorem powModLoop_lt {m : Nat} (hm : 0 < m) (bits b e acc : Nat) (hacc : acc < m) :
    powModLoop m bits b e acc < m := by
  induction bits generalizing b e acc with
  | zero => exact hacc
  | succ bits ih =>
    rw [powModLoop]
    apply ih
    split
    · exact Nat.mod_lt _ hm
    · exact hacc

/-- `powMod` is the power, reduced. -/
theorem powMod_eq {m : Nat} (hm : 0 < m) (b e : Nat) : powMod b e m = b ^ e % m := by
  unfold powMod
  rw [← Nat.mod_eq_of_lt (powModLoop_lt hm (e.log2 + 1) (b % m) e (1 % m) (Nat.mod_lt _ hm)),
    powModLoop_eq _ _ _ _ Nat.lt_log2_self, Nat.mul_mod, Nat.mod_mod, ← Nat.mul_mod, Nat.one_mul, ← Nat.pow_mod]

theorem powMod_zmod {m : Nat} (hm : 0 < m) (b e : Nat) : ((powMod b e m : Nat) : ZMod m) = (b : ZMod m) ^ e := by
  rw [powMod_eq hm, ZMod.natCast_mod, Nat.cast_pow]

/-! ## The inverse -/

theorem euclidLoop_gcd (k r0 r1 : Nat) (t0 t1 : Int) (hk : r1 ≤ k) :
    (euclidLoop k r0 r1 t0 t1).1 = Nat.gcd r0 r1 := by
  induction k generalizing r0 r1 t0 t1 with
  | zero =>
    have : r1 = 0 := by omega
    simp [euclidLoop, this]
  | succ k ih =>
    unfold euclidLoop
    split
    · simp_all
    · rename_i h
      have hrem : r0 - r0 / r1 * r1 = r0 % r1 := by rw [Nat.mod_eq_sub_mul_div, Nat.mul_comm]
      have hlt := Nat.mod_lt r0 (Nat.pos_of_ne_zero h)
      rw [hrem, ih _ _ _ _ (by omega), Nat.gcd_comm r1, ← Nat.gcd_rec, Nat.gcd_comm]

theorem euclidLoop_coeff (a m : Int) (k r0 r1 : Nat) (t0 t1 : Int) (h0 : m ∣ t0 * a - r0) (h1 : m ∣ t1 * a - r1) :
    m ∣ (euclidLoop k r0 r1 t0 t1).2 * a - (euclidLoop k r0 r1 t0 t1).1 := by
  induction k generalizing r0 r1 t0 t1 with
  | zero => exact h0
  | succ k ih =>
    unfold euclidLoop
    split
    · exact h0
    · apply ih
      · exact h1
      · have hle : r0 / r1 * r1 ≤ r0 := Nat.div_mul_le_self r0 r1
        have : (t0 - (r0 / r1 : Nat) * t1) * a - ((r0 - r0 / r1 * r1 : Nat) : Int) =
            (t0 * a - r0) - (r0 / r1 : Nat) * (t1 * a - r1) := by
          push_cast [Nat.cast_sub hle]
          ring
        rw [this]
        exact Int.dvd_sub h0 (Dvd.dvd.mul_left h1 _)

/-- The inverse of R111, where there is one: in `[1, m-1]`, and the product is 1 modulo `m`. -/
theorem invMod_ok {a : Int} {m t : Nat} (hm : 2 ≤ m) (h : invMod a m = .ok t) :
    1 ≤ t ∧ t ≤ m - 1 ∧ a * t % (m : Int) = 1 := by
  have hpos : (0 : Int) < m := by omega
  unfold invMod at h
  simp only at h
  split at h
  · cases h
  · split at h
    · cases h
    · rename_i hg
      simp only [ne_eq, not_not] at hg
      have ha := Int.emod_nonneg a hpos.ne'
      have hco := euclidLoop_coeff (a % m) m m m (a % (m : Int)).toNat 0 1 (by simp) (by
        rw [Int.toNat_of_nonneg ha]; simp)
      rw [hg] at hco
      injection h with h
      generalize (euclidLoop m m (a % (m : Int)).toNat 0 1).2 = u at *
      have hu := Int.emod_nonneg u hpos.ne'
      have hu' := Int.emod_lt_of_pos u hpos
      have hprod : a * (u % m) % (m : Int) = 1 := by
        have h1 : (u * (a % m) - 1) % (m : Int) = 0 := Int.emod_eq_zero_of_dvd (by simpa using hco)
        have h2 : a * (u % m) % (m : Int) = u * (a % m) % m := by
          rw [Int.mul_emod, Int.emod_emod_of_dvd _ dvd_rfl, Int.mul_comm, Int.mul_emod u, Int.emod_emod_of_dvd _ dvd_rfl]
        rw [h2]
        have h3 := (Int.emod_emod_of_dvd (u * (a % m)) (dvd_refl (m : Int)))
        have h4 : u * (a % m) % (m : Int) = 1 % m := (Int.emod_eq_emod_iff_emod_sub_eq_zero).mpr h1
        rw [h4, Int.emod_eq_of_lt (by norm_num) (by omega)]
      have ht : (t : Int) = u % m := by omega
      refine ⟨?_, by omega, by rw [ht]; exact hprod⟩
      rcases Nat.eq_zero_or_pos t with h0 | h0
      · exfalso
        rw [← ht, h0] at hprod
        simp at hprod
      · exact h0

/-- `invMod` fails only by `NotInvertible`, and exactly when the operand shares a factor with the modulus. -/
theorem invMod_error_iff {a : Int} {m : Nat} (hm : 2 ≤ m) (cause : Cause) :
    invMod a m = .error cause ↔ cause = .notInvertible ∧ Nat.gcd m (a % (m : Int)).toNat ≠ 1 := by
  have hlt := Int.emod_lt_of_pos a (show (0 : Int) < m by omega)
  unfold invMod
  simp only
  split
  · rename_i h
    rw [h]
    constructor
    · rintro h; injection h with h; exact ⟨h.symm, by simp; omega⟩
    · rintro ⟨rfl, -⟩; rfl
  · rw [euclidLoop_gcd _ _ _ _ _ (by omega)]
    split
    · rename_i h
      constructor
      · rintro h'; injection h' with h'; exact ⟨h'.symm, h⟩
      · rintro ⟨rfl, -⟩; rfl
    · rename_i h
      constructor
      · intro h'; cases h'
      · rintro ⟨-, h'⟩; exact absurd h' h

/-- Modulo a prime every operand that is not 0 has an inverse. -/
theorem invMod_prime {a : Int} {p : Nat} (hp : p.Prime) (ha : a % (p : Int) ≠ 0) : ∃ t, invMod a p = .ok t := by
  rcases h : invMod a p with cause | t
  · exfalso
    obtain ⟨-, hg⟩ := (invMod_error_iff hp.two_le cause).mp h
    apply hg
    have h1 := Int.emod_nonneg a (show (p : Int) ≠ 0 by have := hp.pos; omega)
    have h2 := Int.emod_lt_of_pos a (show (0 : Int) < p by have := hp.pos; omega)
    exact (hp.coprime_iff_not_dvd).mpr (Nat.not_dvd_of_pos_of_lt (by omega) (by omega))
  · exact ⟨t, rfl⟩

end Sys2Proof.Machine
end

