-- ==== Sys2Proof/Laws/Group.lean ====
section
/-! SUPPORT. The point functions (42_point.md R140, R142, R144, R146) compute in the group of the curve: each is carried to
Mathlib's group of points of the Weierstrass curve `y² = x³ + a·x + b` over GF(p). For every parameter set whose modulus
is prime and that meets the checkable constraints of R8. -/

namespace Sys2Proof.Machine

variable {c : Curve}

theorem Curve.facts_of_wf (h : c.wf = true) :
    3 ≤ c.p ∧ c.p < 2 ^ 256 ∧ c.p % 4 = 3 ∧ (4 * c.a ^ 3 + 27 * c.b ^ 2) % c.p ≠ 0 := by
  simp only [Curve.wf, Bool.and_eq_true, decide_eq_true_eq, beq_iff_eq, bne_iff_ne] at h
  obtain ⟨⟨⟨⟨⟨⟨h1, h2⟩, h3⟩, -⟩, -⟩, -⟩, h4⟩ := h
  exact ⟨h1, h2, h3, h4⟩

/-- The curve of R130 as Mathlib has it. -/
noncomputable def curveW (c : Curve) : WeierstrassCurve.Affine (ZMod c.p) where
  a₁ := 0
  a₂ := 0
  a₃ := 0
  a₄ := (c.a : ZMod c.p)
  a₆ := (c.b : ZMod c.p)

@[simp] theorem curveW_a₁ : (curveW c).a₁ = 0 := rfl
@[simp] theorem curveW_a₂ : (curveW c).a₂ = 0 := rfl
@[simp] theorem curveW_a₃ : (curveW c).a₃ = 0 := rfl
@[simp] theorem curveW_a₄ : (curveW c).a₄ = (c.a : ZMod c.p) := rfl
@[simp] theorem curveW_a₆ : (curveW c).a₆ = (c.b : ZMod c.p) := rfl

theorem onCurve_iff_equation (x y : Nat) :
    onCurve c x y = true ↔ (curveW c).Equation (x : ZMod c.p) (y : ZMod c.p) := by
  rw [WeierstrassCurve.Affine.equation_iff, onCurve, beq_iff_eq, ← ZMod.natCast_eq_natCast_iff']
  push_cast
  simp only [curveW_a₁, curveW_a₂, curveW_a₃, curveW_a₄, curveW_a₆]
  constructor <;> intro h <;> linear_combination h

theorem two_ne_zero_zmod (hwf : c.wf = true) : (2 : ZMod c.p) ≠ 0 := by
  obtain ⟨h3, -, hm, -⟩ := Curve.facts_of_wf hwf
  intro h
  have h' : ((2 : Nat) : ZMod c.p) = ((0 : Nat) : ZMod c.p) := by exact_mod_cast h
  rw [ZMod.natCast_eq_natCast_iff', Nat.mod_eq_of_lt (by omega), Nat.zero_mod] at h'
  omega

theorem nonsingular_of_equation [Fact c.p.Prime] (hwf : c.wf = true) {x y : ZMod c.p}
    (h : (curveW c).Equation x y) : (curveW c).Nonsingular x y := by
  refine ((curveW c).equation_iff_nonsingular_of_Δ_ne_zero ?_).mp h
  obtain ⟨-, -, -, hs⟩ := Curve.facts_of_wf hwf
  have h2 := two_ne_zero_zmod hwf
  have hs' : (4 * (c.a : ZMod c.p) ^ 3 + 27 * (c.b : ZMod c.p) ^ 2) ≠ 0 := by
    intro h0
    apply hs
    have : ((4 * c.a ^ 3 + 27 * c.b ^ 2 : Nat) : ZMod c.p) = 0 := by push_cast; exact h0
    rwa [ZMod.natCast_eq_zero_iff, Nat.dvd_iff_mod_eq_zero] at this
  have hΔ : (curveW c).Δ = -(2 ^ 4) * (4 * (c.a : ZMod c.p) ^ 3 + 27 * (c.b : ZMod c.p) ^ 2) := by
    simp only [WeierstrassCurve.Δ, WeierstrassCurve.b₂, WeierstrassCurve.b₄, WeierstrassCurve.b₆,
      WeierstrassCurve.b₈, curveW_a₁, curveW_a₂, curveW_a₃, curveW_a₄, curveW_a₆]
    ring
  rw [hΔ]
  exact mul_ne_zero (neg_ne_zero.mpr (pow_ne_zero 4 h2)) hs'

theorem Point.Valid.nonsingular [Fact c.p.Prime] (hwf : c.wf = true) {x y : Num256} (h : (Point.affine x y).Valid c) :
    (curveW c).Nonsingular (x.toNat : ZMod c.p) (y.toNat : ZMod c.p) :=
  nonsingular_of_equation hwf ((onCurve_iff_equation _ _).mp h.2.2)

open Classical in
/-- A point value as a point of Mathlib's curve (a pair that is no point of it goes to 0). -/
noncomputable def Point.toW (c : Curve) : Point → (curveW c).Point
  | .infinity => 0
  | .affine x y =>
    if h : (curveW c).Nonsingular (x.toNat : ZMod c.p) (y.toNat : ZMod c.p) then .some _ _ h else 0

@[simp] theorem Point.toW_infinity : Point.toW c .infinity = 0 := rfl

theorem Point.toW_affine {x y : Num256} (h : (curveW c).Nonsingular (x.toNat : ZMod c.p) (y.toNat : ZMod c.p)) :
    Point.toW c (.affine x y) = .some _ _ h := by
  simp [Point.toW, h]

/-- Two numbers below `p` are equal when they are the same field element. -/
theorem num_eq_of_zmod {x y : Num256} (hx : x.toNat < c.p) (hy : y.toNat < c.p)
    (h : (x.toNat : ZMod c.p) = (y.toNat : ZMod c.p)) : x = y := by
  rw [ZMod.natCast_eq_natCast_iff', Nat.mod_eq_of_lt hx, Nat.mod_eq_of_lt hy] at h
  exact BitVec.eq_of_toNat_eq h

/-- Different valid points are different points of the curve. -/
theorem Point.toW_injective [Fact c.p.Prime] (hwf : c.wf = true) {P Q : Point} (hP : P.Valid c) (hQ : Q.Valid c)
    (h : Point.toW c P = Point.toW c Q) : P = Q := by
  cases P with
  | infinity =>
    cases Q with
    | infinity => rfl
    | affine x y =>
      rw [Point.toW_affine (hQ.nonsingular hwf)] at h
      exact absurd h.symm (WeierstrassCurve.Affine.Point.some_ne_zero _)
  | affine x y =>
    cases Q with
    | infinity =>
      rw [Point.toW_affine (hP.nonsingular hwf)] at h
      exact absurd h (WeierstrassCurve.Affine.Point.some_ne_zero _)
    | affine x' y' =>
      rw [Point.toW_affine (hP.nonsingular hwf), Point.toW_affine (hQ.nonsingular hwf)] at h
      injection h with h1 h2
      rw [num_eq_of_zmod hP.1 hQ.1 h1, num_eq_of_zmod hP.2.1 hQ.2.1 h2]

/-- A pair of field elements that satisfies the equation is a valid point, and goes to that point of the curve. -/
theorem Point.valid_of_equation [Fact c.p.Prime] (hwf : c.wf = true) {u v : Nat} (hu : u < c.p) (hv : v < c.p)
    (h : (curveW c).Equation (u : ZMod c.p) (v : ZMod c.p)) :
    (Point.affine (toNum u) (toNum v)).Valid c ∧
      Point.toW c (.affine (toNum u) (toNum v)) = .some _ _ (nonsingular_of_equation hwf h) := by
  obtain ⟨-, hb, -, -⟩ := Curve.facts_of_wf hwf
  have hu' : (toNum u).toNat = u := toNat_toNum (by omega)
  have hv' : (toNum v).toNat = v := toNat_toNum (by omega)
  have hval : (Point.affine (toNum u) (toNum v)).Valid c :=
    ⟨by omega, by omega, by rw [hu', hv']; exact (onCurve_iff_equation _ _).mpr h⟩
  refine ⟨hval, ?_⟩
  rw [Point.toW_affine (hval.nonsingular hwf)]
  simp only [hu', hv']

theorem modp_neg_zmod (hp : 0 < c.p) (v : Nat) :
    ((modp c ((c.p : Int) - v) : Nat) : ZMod c.p) = -(v : ZMod c.p) := by
  rw [modp_zmod hp]
  push_cast
  simp

/-- `pt_neg` (R140) is the negation of the group. -/
theorem ptNeg_toW [Fact c.p.Prime] (hwf : c.wf = true) {P : Point} (hP : P.Valid c) :
    (ptNeg c P).Valid c ∧ Point.toW c (ptNeg c P) = -Point.toW c P := by
  cases P with
  | infinity => exact ⟨trivial, by simp [ptNeg]⟩
  | affine x y =>
    obtain ⟨h3, hb, -, -⟩ := Curve.facts_of_wf hwf
    have hpos : 0 < c.p := by omega
    have hneg := modp_neg_zmod hpos y.toNat (c := c)
    have heq : (curveW c).Equation (x.toNat : ZMod c.p) ((modp c ((c.p : Int) - y.toNat) : Nat) : ZMod c.p) := by
      rw [hneg]
      have := ((curveW c).equation_neg _ _).mpr (hP.nonsingular hwf).1
      simpa [WeierstrassCurve.Affine.negY] using this
    obtain ⟨hv, hw⟩ := Point.valid_of_equation hwf hP.1 (modp_lt hpos _) heq
    rw [toNum_toNat] at hv hw
    refine ⟨hv, ?_⟩
    rw [ptNeg, hw, Point.toW_affine (hP.nonsingular hwf), WeierstrassCurve.Affine.Point.neg_some]
    simp only [WeierstrassCurve.Affine.Point.some.injEq, true_and]
    simp [WeierstrassCurve.Affine.negY, hneg]

/-- Where the inverse exists it is the inverse of the field. -/
theorem invMod_zmod [Fact c.p.Prime] {x : Int} {t : Nat} (hp2 : 2 ≤ c.p) (h : invMod x c.p = .ok t) :
    (t : ZMod c.p) = (x : ZMod c.p)⁻¹ := by
  obtain ⟨-, -, hmul⟩ := invMod_ok hp2 h
  have hone : (x : ZMod c.p) * (t : ZMod c.p) = 1 := by
    have : ((x * t % (c.p : Int) : Int) : ZMod c.p) = ((1 : Int) : ZMod c.p) := by rw [hmul]
    rw [ZMod.intCast_mod] at this
    push_cast at this
    exact this
  exact (eq_inv_of_mul_eq_one_right hone)

/-- The end of the slope formulas (R142, R144), for the slope of the line through the two points. -/
theorem chordPoint_toW [Fact c.p.Prime] (hwf : c.wf = true) {x1 y1 x2 y2 : Num256} {lam : Nat}
    (hP : (Point.affine x1 y1).Valid c) (hQ : (Point.affine x2 y2).Valid c)
    (hne : ¬((x1.toNat : ZMod c.p) = x2.toNat ∧
      (y1.toNat : ZMod c.p) = (curveW c).negY (x2.toNat : ZMod c.p) (y2.toNat : ZMod c.p)))
    (hlam : (lam : ZMod c.p) =
      (curveW c).slope (x1.toNat : ZMod c.p) (x2.toNat : ZMod c.p) (y1.toNat : ZMod c.p) (y2.toNat : ZMod c.p)) :
    (chordPoint c lam x1.toNat y1.toNat x2.toNat).Valid c ∧
      Point.toW c (chordPoint c lam x1.toNat y1.toNat x2.toNat) =
        Point.toW c (.affine x1 y1) + Point.toW c (.affine x2 y2) := by
  obtain ⟨h3, -, -, -⟩ := Curve.facts_of_wf hwf
  have hpos : 0 < c.p := by omega
  have hx : ((modp c ((lam : Int) * lam - x1.toNat - x2.toNat) : Nat) : ZMod c.p) =
      (curveW c).addX (x1.toNat : ZMod c.p) (x2.toNat : ZMod c.p) (lam : ZMod c.p) := by
    rw [modp_zmod hpos]
    push_cast
    simp only [WeierstrassCurve.Affine.addX, curveW_a₁, curveW_a₂]
    ring
  have hy : ((modp c ((lam : Int) *
        ((x1.toNat : Int) - (modp c ((lam : Int) * lam - x1.toNat - x2.toNat) : Nat)) - y1.toNat) : Nat) : ZMod c.p) =
      (curveW c).addY (x1.toNat : ZMod c.p) (x2.toNat : ZMod c.p) (y1.toNat : ZMod c.p) (lam : ZMod c.p) := by
    rw [modp_zmod hpos]
    push_cast
    rw [hx]
    simp only [WeierstrassCurve.Affine.addY, WeierstrassCurve.Affine.negAddY, WeierstrassCurve.Affine.negY, curveW_a₁,
      curveW_a₃]
    ring
  have heq := WeierstrassCurve.Affine.equation_add (hP.nonsingular hwf).1 (hQ.nonsingular hwf).1 hne
  rw [← hlam, ← hx, ← hy] at heq
  obtain ⟨hv, hw⟩ := Point.valid_of_equation hwf (modp_lt hpos _) (modp_lt hpos _) heq
  refine ⟨hv, ?_⟩
  rw [Point.toW_affine (hP.nonsingular hwf), Point.toW_affine (hQ.nonsingular hwf),
    WeierstrassCurve.Affine.Point.add_some hne]
  refine hw.trans ?_
  simp only [WeierstrassCurve.Affine.Point.some.injEq]
  exact ⟨by rw [hx, hlam], by rw [hy, hlam]⟩

/-- Field elements of a valid point are 0 only where the number is 0. -/
theorem zmod_eq_zero_iff {v : Num256} (hv : v.toNat < c.p) : (v.toNat : ZMod c.p) = 0 ↔ v = 0 := by
  rw [ZMod.natCast_eq_zero_iff]
  constructor
  · intro h
    exact BitVec.eq_of_toNat_eq (by simpa using Nat.eq_zero_of_dvd_of_lt h hv)
  · rintro rfl
    simp

theorem intCast_emod_ne_zero [Fact c.p.Prime] {x : Int} (h : (x : ZMod c.p) ≠ 0) : x % (c.p : Int) ≠ 0 := by
  intro h0
  apply h
  rw [← ZMod.intCast_mod, h0, Int.cast_zero]

/-- `pt_double` (R142) is the double of the group, for a valid point whose `y` is not 0. -/
theorem ptDouble_toW [Fact c.p.Prime] (hwf : c.wf = true) {P : Point} (hP : P.Valid c)
    (hy : ∀ x, P ≠ .affine x 0) :
    ∃ R, ptDouble c P = .ok R ∧ R.Valid c ∧ Point.toW c R = Point.toW c P + Point.toW c P := by
  cases P with
  | infinity => exact ⟨.infinity, rfl, trivial, by simp⟩
  | affine x y =>
    obtain ⟨h3, -, -, -⟩ := Curve.facts_of_wf hwf
    have hpos : 0 < c.p := by omega
    have h2 := two_ne_zero_zmod hwf
    have hy0 : y ≠ 0 := fun h => hy x (by rw [h])
    have hyz : (y.toNat : ZMod c.p) ≠ 0 := fun h => hy0 ((zmod_eq_zero_iff hP.2.1).mp h)
    have h2y : ((2 * (y.toNat : Int) : Int) : ZMod c.p) ≠ 0 := by
      push_cast
      exact mul_ne_zero h2 hyz
    obtain ⟨t, ht⟩ := invMod_prime (Fact.out : c.p.Prime) (intCast_emod_ne_zero h2y)
    have htz := invMod_zmod (by omega) ht
    have hnegY : (y.toNat : ZMod c.p) ≠ (curveW c).negY (x.toNat : ZMod c.p) (y.toNat : ZMod c.p) := by
      simp only [WeierstrassCurve.Affine.negY, curveW_a₁, curveW_a₃]
      intro h
      apply mul_ne_zero h2 hyz
      linear_combination h
    have hlam : ((modp c ((3 * (x.toNat : Int) * x.toNat + c.a) * t) : Nat) : ZMod c.p) =
        (curveW c).slope (x.toNat : ZMod c.p) (x.toNat : ZMod c.p) (y.toNat : ZMod c.p) (y.toNat : ZMod c.p) := by
      rw [modp_zmod hpos, WeierstrassCurve.Affine.slope_of_Y_ne rfl hnegY]
      push_cast
      rw [htz, div_eq_mul_inv]
      simp only [WeierstrassCurve.Affine.negY, curveW_a₁, curveW_a₂, curveW_a₃, curveW_a₄]
      push_cast
      congr 1
      · ring
      · congr 1
        ring
    obtain ⟨hv, hw⟩ := chordPoint_toW hwf hP hP (fun h => hnegY h.2) hlam
    refine ⟨_, ?_, hv, hw⟩
    simp only [ptDouble, if_neg hy0, ht]
    rfl

/-- `pt_add` (R144) is the addition of the group, for all valid points; it raises nothing. -/
theorem ptAdd_toW [Fact c.p.Prime] (hwf : c.wf = true) {P Q : Point} (hP : P.Valid c) (hQ : Q.Valid c) :
    ∃ R, ptAdd c P Q = .ok R ∧ R.Valid c ∧ Point.toW c R = Point.toW c P + Point.toW c Q := by
  cases P with
  | infinity => exact ⟨Q, by cases Q <;> rfl, hQ, by simp⟩
  | affine x1 y1 =>
    cases Q with
    | infinity => exact ⟨.affine x1 y1, rfl, hP, by simp⟩
    | affine x2 y2 =>
      obtain ⟨h3, -, -, -⟩ := Curve.facts_of_wf hwf
      have hpos : 0 < c.p := by omega
      have hsum : modp c ((y1.toNat : Int) + y2.toNat) = 0 ↔
          (y1.toNat : ZMod c.p) = (curveW c).negY (x2.toNat : ZMod c.p) (y2.toNat : ZMod c.p) := by
        simp only [WeierstrassCurve.Affine.negY, curveW_a₁, curveW_a₃]
        have hz := modp_zmod hpos ((y1.toNat : Int) + y2.toNat)
        push_cast at hz
        constructor
        · intro h
          rw [h, Nat.cast_zero] at hz
          linear_combination -hz
        · intro h
          have h0 : ((modp c ((y1.toNat : Int) + y2.toNat) : Nat) : ZMod c.p) = 0 := by
            rw [hz]; linear_combination h
          rw [ZMod.natCast_eq_zero_iff] at h0
          exact Nat.eq_zero_of_dvd_of_lt h0 (modp_lt hpos _)
      by_cases hinv : x1 = x2 ∧ modp c ((y1.toNat : Int) + y2.toNat) = 0
      · refine ⟨.infinity, by simp [ptAdd, hinv], trivial, ?_⟩
        rw [Point.toW_affine (hP.nonsingular hwf), Point.toW_affine (hQ.nonsingular hwf),
          WeierstrassCurve.Affine.Point.add_of_Y_eq (by rw [hinv.1]) (hsum.mp hinv.2)]
        rfl
      by_cases heq : x1 = x2 ∧ y1 = y2
      · obtain ⟨rfl, rfl⟩ := heq
        have hne : ∀ x, Point.affine x1 y1 ≠ .affine x 0 := by
          intro x h
          injection h with _ h
          exact hinv ⟨rfl, by simp [h, modp]⟩
        obtain ⟨R, hR, hRv, hRw⟩ := ptDouble_toW hwf hP hne
        refine ⟨R, ?_, hRv, hRw⟩
        rw [ptAdd, if_neg hinv, if_pos ⟨rfl, rfl⟩]
        exact hR
      · have hxne : (x1.toNat : ZMod c.p) ≠ (x2.toNat : ZMod c.p) := by
          intro hx
          obtain rfl := num_eq_of_zmod hP.1 hQ.1 hx
          rcases WeierstrassCurve.Affine.Y_eq_of_X_eq (hP.nonsingular hwf).1 (hQ.nonsingular hwf).1 rfl with h | h
          · exact heq ⟨rfl, num_eq_of_zmod hP.2.1 hQ.2.1 h⟩
          · exact hinv ⟨rfl, hsum.mpr h⟩
        have hsub : (((x2.toNat : Int) - x1.toNat : Int) : ZMod c.p) ≠ 0 := by
          push_cast
          exact sub_ne_zero.mpr hxne.symm
        obtain ⟨t, ht⟩ := invMod_prime (Fact.out : c.p.Prime) (intCast_emod_ne_zero hsub)
        have htz := invMod_zmod (by omega) ht
        have hlam : ((modp c (((y2.toNat : Int) - y1.toNat) * t) : Nat) : ZMod c.p) =
            (curveW c).slope (x1.toNat : ZMod c.p) (x2.toNat : ZMod c.p) (y1.toNat : ZMod c.p)
              (y2.toNat : ZMod c.p) := by
          rw [modp_zmod hpos, WeierstrassCurve.Affine.slope_of_X_ne hxne]
          push_cast
          rw [htz]
          push_cast
          rw [← neg_sub (y1.toNat : ZMod c.p), ← neg_sub (x1.toNat : ZMod c.p), inv_neg, neg_mul_neg, div_eq_mul_inv]
        obtain ⟨hv, hw⟩ := chordPoint_toW hwf hP hQ (fun h => hxne h.1) hlam
        refine ⟨_, ?_, hv, hw⟩
        rw [ptAdd, if_neg hinv, if_neg heq, ht]
        rfl

/-- Repeated addition is the multiple of the group. -/
theorem repeatedAdd_toW [Fact c.p.Prime] (hwf : c.wf = true) {P : Point} (hP : P.Valid c) (k : Nat) :
    ∃ R, repeatedAdd c P k = .ok R ∧ R.Valid c ∧ Point.toW c R = k • Point.toW c P := by
  induction k with
  | zero => exact ⟨.infinity, rfl, trivial, by simp⟩
  | succ k ih =>
    obtain ⟨Q, hQ, hQv, hQw⟩ := ih
    obtain ⟨R, hR, hRv, hRw⟩ := ptAdd_toW hwf hQv hP
    refine ⟨R, ?_, hRv, ?_⟩
    · simp only [repeatedAdd, hQ]
      exact hR
    · rw [hRw, hQw, succ_nsmul]

/-- The curve has no valid point with `y = 0`, so that `VerticalTangent` cannot arise (R142). -/
def NoVerticalTangent (c : Curve) : Prop := ∀ x, ¬(Point.affine x 0).Valid c

/-- One round of the loop (R146): with `R = d·P` before it, `R = (2d + bit(3e) - bit(e))·P` after it. -/
theorem smulRound_toW [Fact c.p.Prime] (hwf : c.wf = true) (hnv : NoVerticalTangent c) {P R : Point} (hP : P.Valid c)
    (hR : R.Valid c) (e3 e i : Nat) (d : Int) (hd : Point.toW c R = d • Point.toW c P) :
    ∃ R', smulRound c P (ptNeg c P) e3 e i R = .ok R' ∧ R'.Valid c ∧
      Point.toW c R' = (2 * d + ((e3.testBit i).toNat : Int) - ((e.testBit i).toNat : Int)) • Point.toW c P := by
  obtain ⟨D, hD, hDv, hDw⟩ := ptDouble_toW hwf hR (fun x h => hnv x (h ▸ hR))
  obtain ⟨hNv, hNw⟩ := ptNeg_toW hwf hP
  have h2 : Point.toW c D = (2 * d) • Point.toW c P := by
    rw [hDw, hd, ← add_zsmul]
    congr 1
    ring
  simp only [smulRound, hD]
  cases h3 : e3.testBit i <;> cases h1 : e.testBit i
  · exact ⟨D, rfl, hDv, by simpa using h2⟩
  · obtain ⟨R', hR', hv, hw⟩ := ptAdd_toW hwf hDv hNv
    refine ⟨R', hR', hv, ?_⟩
    rw [hw, hNw, h2, ← neg_one_zsmul, ← add_zsmul]
    simp [sub_eq_add_neg]
  · obtain ⟨R', hR', hv, hw⟩ := ptAdd_toW hwf hDv hP
    refine ⟨R', hR', hv, ?_⟩
    rw [hw, h2]
    simp [add_zsmul]
  · exact ⟨D, rfl, hDv, by rw [h2]; congr 1; simp⟩

/-- The bits of `n` from bit `i` up, by the bit `i` and those above it. -/
theorem shiftRight_split (n i : Nat) : ((n >>> i : Nat) : Int) = 2 * ((n >>> (i + 1) : Nat) : Int) + (n.testBit i).toNat := by
  rw [Nat.shiftRight_succ, Nat.toNat_testBit, ← Nat.shiftRight_eq_div_pow]
  omega

theorem smulLoop_toW [Fact c.p.Prime] (hwf : c.wf = true) (hnv : NoVerticalTangent c) {P : Point} (hP : P.Valid c)
    (e3 e : Nat) : ∀ (i : Nat) (R : Point), R.Valid c →
      Point.toW c R = (((e3 >>> (i + 1) : Nat) : Int) - ((e >>> (i + 1) : Nat) : Int)) • Point.toW c P →
      ∃ R', smulLoop c P (ptNeg c P) e3 e i R = .ok R' ∧ R'.Valid c ∧
        Point.toW c R' = (((e3 >>> 1 : Nat) : Int) - ((e >>> 1 : Nat) : Int)) • Point.toW c P
  | 0, R, hR, hw => ⟨R, rfl, hR, hw⟩
  | i + 1, R, hR, hw => by
    obtain ⟨R1, h1, hv1, hw1⟩ := smulRound_toW hwf hnv hP hR e3 e (i + 1) _ hw
    obtain ⟨R', h', hv', hw'⟩ := smulLoop_toW hwf hnv hP e3 e i R1 hv1 (by
      rw [hw1, shiftRight_split e3 (i + 1), shiftRight_split e (i + 1)]
      congr 1
      ring)
    exact ⟨R', by simp only [smulLoop, h1]; exact h', hv', hw'⟩

/-- `pt_smul` (R146) is the multiple of the group by `e`, where no point of the curve has `y = 0`. -/
theorem ptSmul_toW [Fact c.p.Prime] (hwf : c.wf = true) (hnv : NoVerticalTangent c) {P : Point} (hP : P.Valid c)
    (ko : Bool) (k : Nat) :
    ∃ R, ptSmul c P ko k = .ok R ∧ R.Valid c ∧ Point.toW c R = (if ko then k % c.r else k) • Point.toW c P := by
  unfold ptSmul
  simp only
  generalize (if ko = true then k % c.r else k) = e
  by_cases he : e = 0
  · exact ⟨.infinity, by simp [he], trivial, by simp [he]⟩
  by_cases hinf : P = .infinity
  · exact ⟨.infinity, by simp [he, hinf], trivial, by simp [hinf]⟩
  rw [if_neg he, if_neg hinf]
  have h3e : 3 * e ≠ 0 := by omega
  have hlog1 : 1 ≤ (3 * e).log2 := by
    rw [Nat.le_log2 h3e]
    omega
  have hlo := Nat.log2_self_le h3e
  have hhi := Nat.lt_log2_self (n := 3 * e)
  rw [pow_succ] at hhi
  have htop3 : (3 * e) >>> ((3 * e).log2 - 1 + 1) = 1 := by
    rw [Nat.sub_add_cancel hlog1, Nat.shiftRight_eq_div_pow]
    exact Nat.div_eq_of_lt_le (by omega) (by omega)
  have htop : e >>> ((3 * e).log2 - 1 + 1) = 0 := by
    rw [Nat.sub_add_cancel hlog1, Nat.shiftRight_eq_div_pow]
    exact Nat.div_eq_of_lt (by omega)
  obtain ⟨R, hR, hv, hw⟩ := smulLoop_toW hwf hnv hP (3 * e) e ((3 * e).log2 - 1) P hP (by rw [htop3, htop]; simp)
  refine ⟨R, hR, hv, ?_⟩
  rw [hw, ← natCast_zsmul]
  congr 1
  rw [Nat.shiftRight_eq_div_pow, Nat.shiftRight_eq_div_pow]
  omega

end Sys2Proof.Machine
end

