-- ==== Sys2Proof/Laws/Prime.lean ====
section
/-! SUPPORT. The modulus of the built-in curve is prime (00_scope.md R8, R9): a Pratt certificate, each prime of the chain
shown by a generator of the units and the prime factors of its predecessor. -/

namespace Sys2Proof.Machine

/-- Lucas' test: `n` is prime when some `a` has order `n - 1` modulo `n`, the factors of `n - 1` being known primes. -/
theorem prime_of_generator (n a : Nat) (factors : List Nat) (hn : 2 ≤ n) (hprod : factors.prod = n - 1)
    (hprimes : ∀ q ∈ factors, q.Prime) (hone : powMod a (n - 1) n = 1)
    (hne : ∀ q ∈ factors, powMod a ((n - 1) / q) n ≠ 1) : n.Prime := by
  have hpos : 0 < n := by omega
  refine lucas_primality n (a : ZMod n) ?_ fun q hq hdvd heq => ?_
  · rw [← powMod_zmod hpos, hone, Nat.cast_one]
  · rw [← hprod] at hdvd
    obtain ⟨q', hmem, hqq⟩ := (Nat.Prime.prime hq).dvd_prod_iff.mp hdvd
    obtain rfl := (Nat.prime_dvd_prime_iff_eq hq (hprimes q' hmem)).mp hqq
    apply hne q hmem
    have heq' : ((powMod a ((n - 1) / q) n : Nat) : ZMod n) = ((1 : Nat) : ZMod n) := by
      rw [powMod_zmod hpos, heq, Nat.cast_one]
    rw [ZMod.natCast_eq_natCast_iff'] at heq'
    rwa [Nat.mod_eq_of_lt (by rw [powMod_eq hpos]; exact Nat.mod_lt _ hpos), Nat.mod_eq_of_lt (by omega)] at heq'

theorem prime_24_bits_1831 : Nat.Prime 13331831 :=
  prime_of_generator _ 13 [2, 5, 971, 1373] (by decide +kernel) (by decide +kernel)
    (by
      simp only [List.forall_mem_cons, List.not_mem_nil, false_imp_iff, implies_true, and_true]
      exact ⟨by norm_num, by norm_num, by norm_num, by norm_num⟩)
    (by decide +kernel) (by decide +kernel)

theorem prime_58_bits_1801 : Nat.Prime 173378833005251801 :=
  prime_of_generator _ 6 [2, 2, 2, 5, 5, 2621, 24809, 13331831] (by decide +kernel) (by decide +kernel)
    (by
      simp only [List.forall_mem_cons, List.not_mem_nil, false_imp_iff, implies_true, and_true]
      exact ⟨by norm_num, by norm_num, by norm_num, by norm_num, by norm_num, by norm_num, by norm_num, prime_24_bits_1831⟩)
    (by decide +kernel) (by decide +kernel)

theorem prime_75_bits_1353 : Nat.Prime 22149492674086928081353 :=
  prime_of_generator _ 5 [2, 2, 2, 3, 5323, 173378833005251801] (by decide +kernel) (by decide +kernel)
    (by
      simp only [List.forall_mem_cons, List.not_mem_nil, false_imp_iff, implies_true, and_true]
      exact ⟨by norm_num, by norm_num, by norm_num, by norm_num, by norm_num, prime_58_bits_1801⟩)
    (by decide +kernel) (by decide +kernel)

theorem prime_77_bits_8119 : Nat.Prime 132896956044521568488119 :=
  prime_of_generator _ 6 [2, 3, 22149492674086928081353] (by decide +kernel) (by decide +kernel)
    (by
      simp only [List.forall_mem_cons, List.not_mem_nil, false_imp_iff, implies_true, and_true]
      exact ⟨by norm_num, by norm_num, prime_75_bits_1353⟩)
    (by decide +kernel) (by decide +kernel)

theorem prime_21_bits_6781 : Nat.Prime 1206781 :=
  prime_of_generator _ 10 [2, 2, 3, 5, 20113] (by decide +kernel) (by decide +kernel)
    (by
      simp only [List.forall_mem_cons, List.not_mem_nil, false_imp_iff, implies_true, and_true]
      exact ⟨by norm_num, by norm_num, by norm_num, by norm_num, by norm_num⟩)
    (by decide +kernel) (by decide +kernel)

theorem prime_23_bits_687 : Nat.Prime 7240687 :=
  prime_of_generator _ 3 [2, 3, 1206781] (by decide +kernel) (by decide +kernel)
    (by
      simp only [List.forall_mem_cons, List.not_mem_nil, false_imp_iff, implies_true, and_true]
      exact ⟨by norm_num, by norm_num, prime_21_bits_6781⟩)
    (by decide +kernel) (by decide +kernel)

theorem prime_27_bits_1 : Nat.Prime 107590001 :=
  prime_of_generator _ 3 [2, 2, 2, 2, 5, 5, 5, 5, 7, 29, 53] (by decide +kernel) (by decide +kernel)
    (by
      simp only [List.forall_mem_cons, List.not_mem_nil, false_imp_iff, implies_true, and_true]
      exact ⟨by norm_num, by norm_num, by norm_num, by norm_num, by norm_num, by norm_num, by norm_num, by norm_num, by norm_num, by norm_num, by norm_num⟩)
    (by decide +kernel) (by decide +kernel)

theorem prime_128_bits_5977 : Nat.Prime 255515944373312847190720520512484175977 :=
  prime_of_generator _ 3 [2, 2, 2, 7, 7, 11, 1627, 2657, 4423, 41201, 96557, 7240687, 107590001] (by decide +kernel) (by decide +kernel)
    (by
      simp only [List.forall_mem_cons, List.not_mem_nil, false_imp_iff, implies_true, and_true]
      exact ⟨by norm_num, by norm_num, by norm_num, by norm_num, by norm_num, by norm_num, by norm_num, by norm_num, by norm_num, by norm_num, by norm_num, prime_23_bits_687, prime_27_bits_1⟩)
    (by decide +kernel) (by decide +kernel)

theorem prime_237_bits_7371 : Nat.Prime 205115282021455665897114700593932402728804164701536103180137503955397371 :=
  prime_of_generator _ 10 [2, 3, 5, 29, 29, 31, 7723, 132896956044521568488119, 255515944373312847190720520512484175977] (by decide +kernel) (by decide +kernel)
    (by
      simp only [List.forall_mem_cons, List.not_mem_nil, false_imp_iff, implies_true, and_true]
      exact ⟨by norm_num, by norm_num, by norm_num, by norm_num, by norm_num, by norm_num, by norm_num, prime_77_bits_8119, prime_128_bits_5977⟩)
    (by decide +kernel) (by decide +kernel)

theorem prime_modulus : Nat.Prime Config.curve.p :=
  prime_of_generator _ 3 [2, 3, 7, 13441, 205115282021455665897114700593932402728804164701536103180137503955397371] (by decide +kernel) (by decide +kernel)
    (by
      simp only [List.forall_mem_cons, List.not_mem_nil, false_imp_iff, implies_true, and_true]
      exact ⟨by norm_num, by norm_num, by norm_num, by norm_num, prime_237_bits_7371⟩)
    (by decide +kernel) (by decide +kernel)

end Sys2Proof.Machine
end

