-- ==== Sys2Proof/Laws/Recover.lean ====
section
/-! SUPPORT. Square roots by the exponent `(p+1)/4` (41_field.md R117), what the search of `recover_y` can answer
(43_codec.md R161), and that no point of this hardware's curve has `y = 0` (42_point.md R142). -/

namespace Sys2Proof.Machine

variable {c : Curve}

theorem curve_wf : Config.curve.wf = true := by decide +kernel

/-! ## Roots -/

theorem isRoot_iff (z v : Nat) : IsRoot c z v ↔ (z : ZMod c.p) * z = v := by
  rw [IsRoot, ← ZMod.natCast_eq_natCast_iff']
  push_cast
  rfl

/-- Euler's criterion for a modulus that is 3 modulo 4: the candidate's square is `v` or `-v`. -/
theorem sqrtCandidate_sq [Fact c.p.Prime] (hm : c.p % 4 = 3) (v : Nat) :
    ((sqrtCandidate c v : Nat) : ZMod c.p) * (sqrtCandidate c v : Nat) = v ∨
      ((sqrtCandidate c v : Nat) : ZMod c.p) * (sqrtCandidate c v : Nat) = -v := by
  have hpos : 0 < c.p := by omega
  rw [sqrtCandidate, powMod_zmod hpos, ← pow_add]
  by_cases hv : (v : ZMod c.p) = 0
  · left
    rw [hv, zero_pow (by omega)]
  · have he : (c.p + 1) / 4 + (c.p + 1) / 4 = c.p / 2 + 1 := by omega
    rw [he, pow_succ]
    rcases ZMod.pow_div_two_eq_neg_one_or_one c.p hv with h | h
    · left; rw [h, one_mul]
    · right; rw [h, neg_one_mul]

/-- The candidate is a root exactly when there is one. -/
theorem sqrtCandidate_root_iff [Fact c.p.Prime] (hm : c.p % 4 = 3) (v : Nat) :
    IsRoot c (sqrtCandidate c v) v ↔ ∃ w, IsRoot c w v := by
  refine ⟨fun h => ⟨_, h⟩, fun ⟨w, hw⟩ => ?_⟩
  rw [isRoot_iff] at hw ⊢
  have hpos : 0 < c.p := by omega
  by_cases hw0 : (w : ZMod c.p) = 0
  · rw [hw0, zero_mul] at hw
    rcases sqrtCandidate_sq (c := c) hm v with h | h
    · exact h
    · rw [h, ← hw, neg_zero]
  · rw [sqrtCandidate, powMod_zmod hpos, ← hw, ← pow_add, ← pow_two, ← pow_mul]
    have he : 2 * ((c.p + 1) / 4 + (c.p + 1) / 4) = (c.p - 1) + 2 := by omega
    rw [he, pow_add, ZMod.pow_card_sub_one_eq_one hw0, one_mul]

theorem sqrtCandidate_lt (hp : 0 < c.p) (v : Nat) : sqrtCandidate c v < c.p := by
  rw [sqrtCandidate, powMod_eq hp]
  exact Nat.mod_lt _ hp

theorem onCurve_iff_isRoot (u y : Nat) : onCurve c u y = true ↔ IsRoot c y (curveRhs c u) := by
  rw [onCurve, beq_iff_eq, IsRoot, curveRhs, Nat.mod_mod]

/-- The candidate `y` satisfies the curve equation exactly when some `y` does. -/
theorem onCurve_candidate_iff [Fact c.p.Prime] (hm : c.p % 4 = 3) (u : Nat) (hu : u < c.p) :
    onCurve c u (sqrtCandidate c (curveRhs c u)) = true ↔ HasPoint c u := by
  have hpos : 0 < c.p := by omega
  rw [onCurve_iff_isRoot, sqrtCandidate_root_iff hm]
  constructor
  · rintro ⟨w, hw⟩
    refine ⟨hu, w % c.p, Nat.mod_lt _ hpos, ?_⟩
    rw [onCurve_iff_isRoot, IsRoot, ← Nat.mul_mod]
    exact hw
  · rintro ⟨-, y, -, hy⟩
    exact ⟨y, (onCurve_iff_isRoot u y).mp hy⟩

/-! ## Parity -/

theorem chooseParity_lt (hp : 0 < c.p) {y : Nat} (hy : y < c.p) (wantOdd : Bool) : chooseParity c wantOdd y < c.p := by
  unfold chooseParity
  split
  · exact modp_lt hp _
  · exact hy

theorem onCurve_chooseParity (hp : 0 < c.p) {u y : Nat} (wantOdd : Bool) (h : onCurve c u y = true) :
    onCurve c u (chooseParity c wantOdd y) = true := by
  unfold chooseParity
  split
  · rw [onCurve_iff_equation] at h ⊢
    rw [modp_neg_zmod hp]
    simp only [WeierstrassCurve.Affine.equation_iff, curveW_a₁, curveW_a₂, curveW_a₃] at h ⊢
    linear_combination h
  · exact h

/-- Both roots of a non-zero square have a parity of their own, because `p` is odd. -/
theorem chooseParity_parity (hm : c.p % 4 = 3) {y : Nat} (h0 : y ≠ 0) (hy : y < c.p) (wantOdd : Bool) :
    decide (chooseParity c wantOdd y % 2 = 1) = wantOdd := by
  have hneg : modp c ((c.p : Int) - y) = c.p - y := by
    have : (c.p : Int) - y = ((c.p - y : Nat) : Int) := by omega
    rw [this, modp_natCast_of_lt (by omega)]
  unfold chooseParity
  rw [hneg]
  cases wantOdd
  · by_cases h : y % 2 = 1
    · simp [h]; omega
    · have : y % 2 = 0 := by omega
      simp [this]
  · by_cases h : y % 2 = 1
    · simp [h]
    · have : y % 2 = 0 := by omega
      simp [this]; omega

/-! ## The search -/

/-- What the search can answer: the first candidate from `offset` on that has a point, with a root on the curve chosen for
its parity; or, where none of the candidates has a point, `PointEncodingExhausted`. -/
theorem recoverSearch_cases [Fact c.p.Prime] (hm : c.p % 4 = 3) (x : Nat) (wantOdd : Bool) (n offset : Nat) :
    (∃ k y, offset ≤ k ∧ k < offset + n ∧ (∀ j, offset ≤ j → j < k → ¬HasPoint c (x + j)) ∧ x + k < c.p ∧ y < c.p ∧
      onCurve c (x + k) y = true ∧ recoverSearch c x wantOdd n offset = .ok (x + k, chooseParity c wantOdd y, k)) ∨
    ((∀ j, offset ≤ j → j < offset + n → ¬HasPoint c (x + j)) ∧
      recoverSearch c x wantOdd n offset = .error .pointEncodingExhausted) := by
  have hpos : 0 < c.p := by omega
  induction n generalizing offset with
  | zero => exact .inr ⟨fun j h1 h2 => by omega, rfl⟩
  | succ n ih =>
    have skip (hno : ¬HasPoint c (x + offset))
        (heq : recoverSearch c x wantOdd (n + 1) offset = recoverSearch c x wantOdd n (offset + 1)) :
        (∃ k y, offset ≤ k ∧ k < offset + (n + 1) ∧ (∀ j, offset ≤ j → j < k → ¬HasPoint c (x + j)) ∧ x + k < c.p ∧
          y < c.p ∧ onCurve c (x + k) y = true ∧
          recoverSearch c x wantOdd (n + 1) offset = .ok (x + k, chooseParity c wantOdd y, k)) ∨
        ((∀ j, offset ≤ j → j < offset + (n + 1) → ¬HasPoint c (x + j)) ∧
          recoverSearch c x wantOdd (n + 1) offset = .error .pointEncodingExhausted) := by
      have below (j : Nat) (h1 : offset ≤ j) (h2 : ¬offset + 1 ≤ j) : ¬HasPoint c (x + j) := by
        have : j = offset := by omega
        rw [this]; exact hno
      rcases ih (offset + 1) with ⟨k, y, h1, h2, h3, h4, h5, h6, h7⟩ | ⟨h1, h2⟩
      · refine .inl ⟨k, y, by omega, by omega, fun j hj hk => ?_, h4, h5, h6, heq.trans h7⟩
        by_cases hj' : offset + 1 ≤ j
        · exact h3 j hj' hk
        · exact below j hj hj'
      · refine .inr ⟨fun j hj hk => ?_, heq.trans h2⟩
        by_cases hj' : offset + 1 ≤ j
        · exact h1 j hj' (by omega)
        · exact below j hj hj'
    by_cases hbig : x + offset ≥ c.p
    · exact skip (fun h => absurd h.1 (by omega)) (by rw [recoverSearch, if_pos hbig])
    · by_cases hon : onCurve c (x + offset) (sqrtCandidate c (curveRhs c (x + offset))) = true
      · refine .inl ⟨offset, sqrtCandidate c (curveRhs c (x + offset)), le_rfl, by omega, fun j h1 h2 => by omega,
          by omega, sqrtCandidate_lt hpos _, hon, ?_⟩
        rw [recoverSearch, if_neg hbig]
        simp only [hon, if_true]
      · refine skip (fun h => hon ((onCurve_candidate_iff hm _ h.1).mpr h)) ?_
        rw [recoverSearch, if_neg hbig]
        simp only [hon, if_false, Bool.false_eq_true]

/-! ## This hardware's curve -/

theorem curve_fact_prime : Fact Config.curve.p.Prime := ⟨prime_modulus⟩

theorem curve_mod_four : Config.curve.p % 4 = 3 := by decide +kernel

/-- `-7` is not a cube modulo `p`, so that no point of the curve has `y = 0`. -/
theorem curve_noVerticalTangent : NoVerticalTangent Config.curve := by
  rintro x ⟨-, -, h⟩
  have := curve_fact_prime
  rw [onCurve_iff_equation, WeierstrassCurve.Affine.equation_iff] at h
  simp only [curveW_a₁, curveW_a₂, curveW_a₃, curveW_a₄, curveW_a₆] at h
  have ha : ((Config.curve.a : Nat) : ZMod Config.curve.p) = 0 := by
    rw [show Config.curve.a = 0 from rfl, Nat.cast_zero]
  have hb : ((Config.curve.b : Nat) : ZMod Config.curve.p) = 7 := by
    rw [show Config.curve.b = 7 from rfl, Nat.cast_ofNat]
  have hcube : (x.toNat : ZMod Config.curve.p) ^ 3 = -7 := by
    rw [ha, hb] at h
    have h0 : (((0 : Num256).toNat : Nat) : ZMod Config.curve.p) = 0 := by simp
    rw [h0] at h
    linear_combination -h
  have hne : (x.toNat : ZMod Config.curve.p) ≠ 0 := by
    intro h0
    rw [h0] at hcube
    have h7 : ((7 : Nat) : ZMod Config.curve.p) = 0 := by
      push_cast
      linear_combination hcube
    rw [ZMod.natCast_eq_zero_iff] at h7
    exact absurd h7 (by decide +kernel)
  have hone := ZMod.pow_card_sub_one_eq_one hne
  have hsplit : Config.curve.p - 1 = 3 * ((Config.curve.p - 1) / 3) := by decide +kernel
  rw [hsplit, pow_mul, hcube] at hone
  have hcast : (-7 : ZMod Config.curve.p) = ((Config.curve.p - 7 : Nat) : ZMod Config.curve.p) := by
    rw [Nat.cast_sub (by decide +kernel)]
    simp
  rw [hcast, ← powMod_zmod prime_modulus.pos, show (1 : ZMod Config.curve.p) = ((1 : Nat) : ZMod Config.curve.p) by simp,
    ZMod.natCast_eq_natCast_iff'] at hone
  exact absurd hone (by decide +kernel)

end Sys2Proof.Machine
end

