-- ==== Sys2Proof/Laws/Codec.lean ====
section
/-! SUPPORT. What the validation of a point can answer (42_point.md R132), the prefix bytes (43_codec.md R160, R162), the
bytes of a number one by one (20_memory.md R59), and the sizes of this hardware's modulus. -/

namespace Sys2Proof.Machine

variable {c : Curve}

/-! ## Construction -/

theorem makePoint_of_valid {x y : Num256} (h : (Point.affine x y).Valid c) : makePoint c x y = .ok (.affine x y) := by
  obtain ⟨hx, hy, hon⟩ := h
  rw [makePoint, if_neg (by omega), if_pos hon]

theorem makePoint_of_not_valid {x y : Num256} (h : ¬(Point.affine x y).Valid c) :
    makePoint c x y = .error .invalidCurvePoint := by
  rw [makePoint]
  split
  · rfl
  · rename_i hr
    push Not at hr
    exact if_neg fun hon => h ⟨hr.1, hr.2, hon⟩

/-- A point is made only of two field elements on the curve, and a rejection has one cause. -/
theorem makePoint_eq_ok {x y : Num256} {P : Point} :
    makePoint c x y = .ok P ↔ P = .affine x y ∧ (Point.affine x y).Valid c := by
  by_cases h : (Point.affine x y).Valid c
  · simp [makePoint_of_valid h, h, eq_comm]
  · simp [makePoint_of_not_valid h, h]

theorem makePoint_eq_error {x y : Num256} {cause : Cause} :
    makePoint c x y = .error cause ↔ cause = .invalidCurvePoint ∧ ¬(Point.affine x y).Valid c := by
  by_cases h : (Point.affine x y).Valid c
  · simp [makePoint_of_valid h, h]
  · simp [makePoint_of_not_valid h, h, eq_comm]

/-! ## Prefix bytes -/

theorem isCompressedPrefix_iff (b : Byte) : isCompressedPrefix b = true ↔ b = 0x02 ∨ b = 0x03 := by
  simp only [isCompressedPrefix, Bool.or_eq_true, beq_iff_eq]

theorem getLsbD_zero_eq {w : Nat} (v : BitVec w) : v.getLsbD 0 = decide (v.toNat % 2 = 1) := by
  rw [BitVec.getLsbD, Nat.testBit_zero]

theorem toNat_compressedPrefix (odd : Bool) : (compressedPrefix odd).toNat = 2 + odd.toNat := by
  cases odd <;> rfl

/-! ## Bytes of a number -/

theorem getElem_bytesBE32 (v : Num256) (k : Nat) (hk : k < (bytesBE32 v).length) :
    (bytesBE32 v)[k] = v.extractLsb' (248 - 8 * k) 8 := by
  have hk' : k < 32 := by simpa using hk
  simp only [bytesBE32, getElem_bytesBE]
  apply BitVec.eq_of_toNat_eq
  simp only [BitVec.toNat_ofNat, BitVec.extractLsb'_toNat, Nat.shiftRight_eq_div_pow]
  congr 2
  rw [show (256 : Nat) = 2 ^ 8 from rfl, ← pow_mul]
  congr 1
  omega

/-- Bytes that are those of a number, most significant first, read as that number. -/
theorem be_memRead_of_bytes {s : State} {a : Nat} {v : Num256}
    (h : ∀ k, k < 32 → s.readBuf (a + k) = v.extractLsb' (248 - 8 * k) 8) : be (s.memRead a 32) = v.toNat := by
  have heq : s.memRead a 32 = bytesBE32 v := by
    apply List.ext_getElem (by simp [State.memRead])
    intro i h1 h2
    have hi : i < 32 := by simpa using h2
    rw [getElem_bytesBE32 v i h2, ← h i hi]
    exact Memory.getElem_readBytes _ _ _ _ _
  rw [heq, be_bytesBE32]

/-! ## The modulus of this hardware -/

theorem curve_p_pos : 0 < Config.curve.p := by decide +kernel

theorem curve_p_lt : Config.curve.p < 2 ^ 256 := by decide +kernel

theorem toNat_toNum_of_lt {v : Nat} (h : v < Config.curve.p) : (toNum v).toNat = v :=
  toNat_toNum (lt_trans h curve_p_lt)

/-- No point of the curve has `y = 0`, in numbers. -/
theorem onCurve_y_ne_zero {u y : Nat} (hu : u < Config.curve.p) (hon : onCurve Config.curve u y = true) : y ≠ 0 := by
  rintro rfl
  refine curve_noVerticalTangent (toNum u) ⟨?_, curve_p_pos, ?_⟩
  · rw [toNat_toNum_of_lt hu]
    exact hu
  · rw [toNat_toNum_of_lt hu]
    exact hon

end Sys2Proof.Machine
end

