-- ==== Sys2Proof/Laws/Causes.lean ====
section
/-! SUPPORT. Which causes each shared operation can raise, on any operands (60_exceptions.md R180). -/

namespace Sys2Proof.Machine

variable {c : Curve} {cause : Cause}

theorem Cause.code_inj {c₁ c₂ : Cause} (h : c₁.code = c₂.code) : c₁ = c₂ := by
  revert h
  cases c₁ <;> cases c₂ <;> decide

/-- Fault entry shows which cause was raised. -/
theorem State.raise_inj {s : State} {c₁ c₂ : Cause} (h : s.raise c₁ = s.raise c₂) : c₁ = c₂ :=
  Cause.code_inj (congrArg State.fcause h)

theorem ptDouble_cause (hp : 2 ≤ c.p) {P : Point} (h : ptDouble c P = .error cause) :
    cause = .verticalTangent ∨ cause = .notInvertible := by
  cases P with
  | infinity => cases h
  | affine x y =>
    simp only [ptDouble] at h
    split at h
    · cases h
      exact .inl rfl
    · rcases except_bind_eq_error.mp h with h | ⟨_, _, h⟩
      · exact .inr ((invMod_error_iff hp cause).mp h).1
      · cases h

theorem ptAdd_cause (hp : 2 ≤ c.p) {P Q : Point} (h : ptAdd c P Q = .error cause) :
    cause = .verticalTangent ∨ cause = .notInvertible := by
  cases P with
  | infinity => cases h
  | affine x1 y1 =>
    cases Q with
    | infinity => cases h
    | affine x2 y2 =>
      simp only [ptAdd] at h
      split at h
      · cases h
      · split at h
        · exact ptDouble_cause hp h
        · rcases except_bind_eq_error.mp h with h | ⟨_, _, h⟩
          · exact .inr ((invMod_error_iff hp cause).mp h).1
          · cases h

theorem smulRound_cause (hp : 2 ≤ c.p) {P N R : Point} {e3 e i : Nat} (h : smulRound c P N e3 e i R = .error cause) :
    cause = .verticalTangent ∨ cause = .notInvertible := by
  rcases except_bind_eq_error.mp h with h | ⟨_, _, h⟩
  · exact ptDouble_cause hp h
  · split at h
    · exact ptAdd_cause hp h
    · split at h
      · exact ptAdd_cause hp h
      · cases h

theorem smulLoop_cause (hp : 2 ≤ c.p) {P N : Point} {e3 e : Nat} (i : Nat) {R : Point}
    (h : smulLoop c P N e3 e i R = .error cause) : cause = .verticalTangent ∨ cause = .notInvertible := by
  induction i generalizing R with
  | zero => cases h
  | succ i ih =>
    rcases except_bind_eq_error.mp h with h | ⟨_, _, h⟩
    · exact smulRound_cause hp h
    · exact ih h

theorem ptSmul_cause (hp : 2 ≤ c.p) {P : Point} {ko : Bool} {k : Nat} (h : ptSmul c P ko k = .error cause) :
    cause = .verticalTangent ∨ cause = .notInvertible := by
  unfold ptSmul at h
  simp only at h
  generalize (if ko = true then k % c.r else k) = e at h
  split at h
  · cases h
  · split at h
    · cases h
    · exact smulLoop_cause hp _ h

theorem recoverSearch_cause {x : Nat} {wantOdd : Bool} (n : Nat) {offset : Nat}
    (h : recoverSearch c x wantOdd n offset = .error cause) : cause = .pointEncodingExhausted := by
  induction n generalizing offset with
  | zero =>
    cases h
    rfl
  | succ n ih =>
    simp only [recoverSearch] at h
    split at h
    · exact ih h
    · split at h
      · cases h
      · exact ih h

theorem deserialize_cause {s : State} {off : Nat} (h : s.deserialize c off = .error cause) :
    cause = .badPrefix ∨ cause = .invalidCurvePoint ∨ cause = .pointEncodingExhausted := by
  simp only [State.deserialize] at h
  split at h
  · exact .inr (.inl (makePoint_eq_error.mp h).1)
  · split at h
    · rcases except_bind_eq_error.mp h with h | ⟨_, _, h⟩
      · exact .inr (.inr (recoverSearch_cause _ h))
      · exact .inr (.inl (makePoint_eq_error.mp h).1)
    · cases h
      exact .inl rfl

end Sys2Proof.Machine
end

