-- ==== Sys2Proof/Laws/Decode.lean ====
section
/-! SUPPORT. The five fields and the word they make (30_encoding.md R81), and the register and immediate fields
(R82, R83). -/

namespace Sys2Proof

theorem Fields.ofWord_toWord (f : Fields) : Fields.ofWord f.toWord = f := by
  obtain ⟨op, rd, ra, rb, imm⟩ := f
  simp only [Fields.ofWord, Fields.toWord, Fields.mk.injEq]
  refine ⟨?_, ?_, ?_, ?_, ?_⟩ <;>
    · apply BitVec.eq_of_getLsbD_eq
      intro i hi
      simp only [BitVec.getLsbD_extractLsb', BitVec.getLsbD_append, hi, decide_true, Bool.true_and]
      repeat' split
      all_goals first | (exfalso; omega) | (congr 1; omega)

theorem Fields.toWord_ofWord (w : Word) : (Fields.ofWord w).toWord = w := by
  simp only [Fields.ofWord, Fields.toWord]
  apply BitVec.eq_of_getLsbD_eq
  intro i hi
  simp only [BitVec.getLsbD_extractLsb', BitVec.getLsbD_append]
  repeat' split
  all_goals
    rw [decide_eq_true (by omega), Bool.true_and]
    congr 1
    omega

/-- Words agree under a mask exactly when their fields agree under the mask's fields. -/
theorem Fields.and_toWord_eq_iff (f m g : Fields) :
    f.toWord &&& m.toWord = g.toWord ↔
      f.op &&& m.op = g.op ∧ f.rd &&& m.rd = g.rd ∧ f.ra &&& m.ra = g.ra ∧ f.rb &&& m.rb = g.rb ∧
        f.imm &&& m.imm = g.imm := by
  have hand : f.toWord &&& m.toWord =
      Fields.toWord ⟨f.op &&& m.op, f.rd &&& m.rd, f.ra &&& m.ra, f.rb &&& m.rb, f.imm &&& m.imm⟩ := by
    simp only [Fields.toWord]
    apply BitVec.eq_of_getLsbD_eq
    intro i hi
    simp only [BitVec.getLsbD_and, BitVec.getLsbD_append]
    repeat' split
    all_goals rfl
  rw [hand]
  constructor
  · intro h
    have := congrArg Fields.ofWord h
    rw [Fields.ofWord_toWord, Fields.ofWord_toWord] at this
    rw [← this]
    exact ⟨rfl, rfl, rfl, rfl, rfl⟩
  · rintro ⟨h1, h2, h3, h4, h5⟩
    rw [h1, h2, h3, h4, h5]

/-- The match word of a row is the word of its opcode with every other field 0 (R84). -/
theorem Row.matchWord_eq (r : Row) : r.matchWord = (Fields.mk r.op 0 0 0 0).toWord := by
  have hop : ∀ op : BitVec 8, (op ++ 0#24 : Word) = op ++ 0#4 ++ 0#4 ++ 0#4 ++ 0#12 := by decide +kernel
  exact hop r.op

/-- The row found for an opcode is a row of the table with that opcode. -/
theorem rowOf_eq_some {op : BitVec 8} {r : Row} (h : rowOf op = some r) : r ∈ opcodeTable ∧ r.op = op := by
  unfold rowOf at h
  exact ⟨List.mem_of_find?_eq_some h, by simpa using List.find?_some h⟩

/-- The opcodes of the table differ, so that a row is the one found for its opcode. -/
theorem rowOf_op {r : Row} (h : r ∈ opcodeTable) : rowOf r.op = some r := by
  have hnodup : (opcodeTable.map Row.op).Nodup := by decide
  unfold rowOf
  rw [List.find?_eq_some_iff_getElem]
  obtain ⟨i, hi, rfl⟩ := List.getElem_of_mem h
  refine ⟨by simp, i, hi, rfl, fun j hj => ?_⟩
  have hne : (opcodeTable.map Row.op)[j]'(by simp; omega) ≠ (opcodeTable.map Row.op)[i]'(by simpa using hi) :=
    fun heq => absurd ((List.Nodup.getElem_inj_iff hnodup).mp heq) (by omega)
  simpa using hne

theorem Row.mask_op : ∀ r ∈ opcodeTable, (Fields.ofWord r.mask).op = 0xFF := by
  simp only [opcodeTable, List.forall_mem_cons]
  decide

/-- A word that matches a row under its mask has the row's opcode. -/
theorem Row.op_of_match {r : Row} (hr : r ∈ opcodeTable) {w : Word} (hw : w &&& r.mask = r.matchWord) :
    (Fields.ofWord w).op = r.op := by
  have hall : ∀ op : BitVec 8, op &&& 0xFF = op := by decide
  rw [← Fields.toWord_ofWord w, Row.matchWord_eq, ← Fields.toWord_ofWord r.mask, Fields.and_toWord_eq_iff,
    Row.mask_op r hr, hall] at hw
  exact hw.1

@[simp] theorem fregOf_fregField (r : FReg) : fregOf (fregField r) = r := rfl

@[simp] theorem pregOf_pregField (r : PReg) : pregOf (pregField r) = r := by
  revert r; decide

@[simp] theorem offOf_bufField (off : Off) (m : Bool) : offOf (bufField off m) = off := by
  revert off m; decide +kernel

@[simp] theorem modeOf_bufField (off : Off) (m : Bool) : modeOf (bufField off m) = m := by
  revert off m; decide +kernel

theorem pregField_pregOf {field : BitVec 4} (h : RegUse.preg.ok field = true) : pregField (pregOf field) = field := by
  revert field; decide

theorem RegUse.ok_pregField (r : PReg) : RegUse.preg.ok (pregField r) = true := by
  revert r; decide

end Sys2Proof
end

