-- ==== Sys2Proof/Laws/Window.lean ====
section
/-! SUPPORT. What stands where in the window and which of the three shapes a host access takes (20_memory.md R50 to R55). -/

namespace Sys2Proof.Machine

/-- A supported read. -/
theorem hostTurn_read_w32 (s : State) {offset : Nat} (hlt : offset < 0x1000) (hal : offset % 4 = 0) :
    hostTurn (.read .w32 offset) s = .next (s.readReg (windowReg offset)) := by
  have h : ¬windowSize ≤ offset := by unfold windowSize; omega
  simp [hostTurn, h, unsupported, hal]

/-- A supported write. -/
theorem hostTurn_write_w32 (s : State) {offset : Nat} (data : Word) (hlt : offset < 0x1000) (hal : offset % 4 = 0) :
    hostTurn (.write .w32 offset data) s = .next (s.writeReg data (windowReg offset)) := by
  have h : ¬windowSize ≤ offset := by unfold windowSize; omega
  simp [hostTurn, h, unsupported, hal]

/-- What a host access can do: leave the machine (outside the window), be refused, or act on the register at its
offset. -/
theorem hostTurn_cases (access : Access) (s : State) :
    hostTurn access s = .fault .outsideWindow ∨
      (∃ width offset, access = .read width offset ∧ offset < 0x1000 ∧ unsupported width offset = true ∧
        hostTurn access s = .next (s.setHerr.reply 0)) ∨
      (∃ offset, access = .read .w32 offset ∧ offset < 0x1000 ∧ offset % 4 = 0 ∧
        hostTurn access s = .next (s.readReg (windowReg offset))) ∨
      (∃ width offset data, access = .write width offset data ∧ offset < 0x1000 ∧ unsupported width offset = true ∧
        hostTurn access s = .next s.setHerr) ∨
      ∃ offset data, access = .write .w32 offset data ∧ offset < 0x1000 ∧ offset % 4 = 0 ∧
        hostTurn access s = .next (s.writeReg data (windowReg offset)) := by
  cases access with
  | read width offset =>
    by_cases hw : windowSize ≤ offset
    · exact .inl (by simp [hostTurn, hw])
    · have hlt : offset < 0x1000 := by unfold windowSize at hw; omega
      by_cases hu : unsupported width offset = true
      · exact .inr (.inl ⟨width, offset, rfl, hlt, hu, by simp [hostTurn, hw, hu]⟩)
      · have hsup : width = .w32 ∧ offset % 4 = 0 := by simpa [unsupported] using hu
        obtain ⟨rfl, hal⟩ := hsup
        exact .inr (.inr (.inl ⟨offset, rfl, hlt, hal, hostTurn_read_w32 s hlt hal⟩))
  | write width offset data =>
    by_cases hw : windowSize ≤ offset
    · exact .inl (by simp [hostTurn, hw])
    · have hlt : offset < 0x1000 := by unfold windowSize at hw; omega
      by_cases hu : unsupported width offset = true
      · exact .inr (.inr (.inr (.inl ⟨width, offset, data, rfl, hlt, hu, by simp [hostTurn, hw, hu]⟩)))
      · have hsup : width = .w32 ∧ offset % 4 = 0 := by simpa [unsupported] using hu
        obtain ⟨rfl, hal⟩ := hsup
        exact .inr (.inr (.inr (.inr ⟨offset, data, rfl, hlt, hal, hostTurn_write_w32 s data hlt hal⟩)))

theorem windowReg_cp {k : Nat} (hk : k < 48) : windowReg (0x040 + 4 * k) = .cp k := by
  unfold windowReg
  iterate 7 rw [if_neg (by omega)]
  rw [if_pos (by omega)]
  congr 1
  omega

theorem windowReg_buf {m : Nat} (hm : m ≤ 31) : windowReg (0x100 + 4 * m) = .buf m := by
  unfold windowReg
  iterate 8 rw [if_neg (by omega)]
  rw [if_pos (by omega)]
  congr 1
  omega

theorem windowReg_reserved {offset : Nat}
    (h : (0x01C ≤ offset ∧ offset ≤ 0x03C) ∨ (0x180 ≤ offset ∧ offset ≤ 0xFFC)) : windowReg offset = .reserved := by
  unfold windowReg
  iterate 9 rw [if_neg (by omega)]

/-- The offsets of the `BUF` words, and the index of the word there. -/
theorem windowReg_eq_buf {offset m : Nat} (h : windowReg offset = .buf m) :
    0x100 ≤ offset ∧ offset ≤ 0x17C ∧ m = (offset - 0x100) / 4 := by
  unfold windowReg at h
  iterate 8 (split at h; · cases h)
  split at h
  · rename_i hin
    cases h
    exact ⟨hin.1, hin.2, rfl⟩
  · cases h

theorem windowReg_eq_cmd {offset : Nat} : windowReg offset = .cmd ↔ offset = 0x008 := by
  constructor
  · intro h
    unfold windowReg at h
    repeat' split at h
    all_goals first | assumption | cases h
  · rintro rfl
    rfl

theorem windowReg_eq_ctrl {offset : Nat} : windowReg offset = .ctrl ↔ offset = 0x00C := by
  constructor
  · intro h
    unfold windowReg at h
    repeat' split at h
    all_goals first | assumption | cases h
  · rintro rfl
    rfl

/-- Lane `j` of a word of `BUF` is the byte `4m + j` (R55). -/
theorem lane_bufWord (s : State) (m : Nat) {j : Nat} (hj : j < 4) :
    (s.bufWord m).extractLsb' (8 * j) 8 = s.readBuf (4 * m + j) := by
  have hfour : j = 0 ∨ j = 1 ∨ j = 2 ∨ j = 3 := by omega
  unfold State.bufWord
  generalize hb3 : s.readBuf (4 * m + 3) = b3
  generalize hb2 : s.readBuf (4 * m + 2) = b2
  generalize hb1 : s.readBuf (4 * m + 1) = b1
  generalize hb0 : s.readBuf (4 * m) = b0
  rcases hfour with rfl | rfl | rfl | rfl
  all_goals
    simp only [Nat.add_zero, hb0, hb1, hb2, hb3]
    apply BitVec.eq_of_getLsbD_eq
    intro i hi
    simp only [BitVec.getLsbD_extractLsb', BitVec.getLsbD_append, hi, decide_true, Bool.true_and]
    repeat' split
    all_goals first | (exfalso; omega) | (congr 1; omega)

end Sys2Proof.Machine
end

