-- ==== Sys2Proof/Laws/Program.lean ====
section
/-! SUPPORT. Runs of host programs end with `BUSY = 0` (70_reset_and_hazards.md R217). -/

namespace Sys2Proof.Machine

theorem runTurns_singleton (turn : Turn) (s : State) : runTurns [turn] s = step { s with turns := [turn] } := by
  rw [runTurns, List.length_singleton, runSteps_succ]
  cases step { s with turns := [turn] } <;> rfl

/-- `BUSY` and `FAULT` are not both 1 (R27). -/
def State.NotBoth (s : State) : Prop := s.busy = true → s.fault = false

/-- A command ends with `BUSY = 0`, whatever it does (R185, R186). -/
theorem exec_busy {i : Instr} {s t : State} (h : exec i s = .next t) : t.busy = false := by
  obtain ⟨r, hr⟩ := exec_eq_finish i s
  rw [hr] at h
  rcases finish_cases s r with ⟨u, -, hu⟩ | ⟨c, -, hu⟩ <;>
  · rw [hu] at h
    cases h
    rfl

/-- After the engine's turn `BUSY = 0`. -/
theorem engineTurn_busy {s t : State} (h : engineTurn s = .next t) : t.busy = false := by
  unfold engineTurn at h
  split at h
  · split at h
    · exact exec_busy h
    · cases h
      rfl
  · rename_i hb
    cases h
    simpa using hb

theorem readReg_busy_fault (s : State) (r : WindowReg) : (s.readReg r).busy = s.busy ∧ (s.readReg r).fault = s.fault := by
  cases r <;> simp only [State.readReg] <;> try split
  all_goals exact ⟨rfl, rfl⟩

/-- What a supported write can do to `BUSY` and `FAULT`: accept a command on an idle machine without a fault, or leave
`BUSY` as it is or clear it, and `FAULT` likewise. -/
theorem writeReg_busy_fault (s : State) (data : Word) (r : WindowReg) :
    (r = .cmd ∧ s.fault = false ∧ (s.writeReg data r).busy = true ∧ (s.writeReg data r).fault = false) ∨
      (((s.writeReg data r).busy = true → s.busy = true) ∧ ((s.writeReg data r).fault = true → s.fault = true)) := by
  cases r with
  | cmd =>
    simp only [State.writeReg]
    split
    · exact .inr ⟨id, id⟩
    · rename_i h
      have hf : s.fault = false := (Bool.or_eq_false_iff.mp (Bool.not_eq_true _ ▸ h)).2
      exact .inl ⟨trivial, hf, rfl, hf⟩
  | ctrl =>
    right
    simp only [State.writeReg, State.writeCtrl]
    split
    · exact ⟨fun h => (nomatch h), fun h => (nomatch h)⟩
    · split <;> split <;> refine ⟨id, ?_⟩ <;> first | exact id | exact fun h => (nomatch h)
  | buf m =>
    right
    simp only [State.writeReg]
    split <;> exact ⟨id, id⟩
  | _ => exact .inr ⟨id, id⟩

/-- A host access keeps `BUSY` and `FAULT` apart, and raises `BUSY` only where it is a `CMD` write. -/
theorem hostTurn_busy_fault {access : Access} {s t : State} (h : hostTurn access s = .next t) (hs : s.NotBoth) :
    t.NotBoth ∧ (access.cmdWord = none → t.busy = true → s.busy = true) := by
  rcases hostTurn_cases access s with e | ⟨_, _, -, -, -, e⟩ | ⟨o, -, -, -, e⟩ | ⟨_, _, _, -, -, -, e⟩ |
    ⟨o, d, ha, -, -, e⟩ <;> rw [e] at h <;> cases h
  · exact ⟨hs, fun _ => id⟩
  · obtain ⟨hb, hf⟩ := readReg_busy_fault s (windowReg o)
    refine ⟨fun h => ?_, fun _ h => hb ▸ h⟩
    rw [hf]
    exact hs (hb ▸ h)
  · exact ⟨hs, fun _ => id⟩
  · rcases writeReg_busy_fault s d (windowReg o) with ⟨hr, -, -, hf⟩ | ⟨hb, hf⟩
    · refine ⟨fun _ => hf, fun hc => ?_⟩
      rw [ha, Access.cmdWord, if_pos ⟨rfl, windowReg_eq_cmd.mp hr⟩] at hc
      cases hc
    · refine ⟨fun h => ?_, fun _ => hb⟩
      have := hs (hb h)
      by_contra hne
      rw [hf (by simpa using hne)] at this
      cases this

/-- Whether the machine is idle after the given turns, where `busy` says that it may be busy before. -/
def settles : (busy : Bool) → List Turn → Bool
  | busy, [] => !busy
  | busy, .host access :: ts => settles (busy || access.cmdWord.isSome) ts
  | _, .engine :: ts => settles false ts
  | _, .reset :: ts => settles false ts

theorem settles_waiting (busy : Bool) (waiting : List Access) (ts : List Turn) :
    settles busy (waiting.map .host ++ .engine :: ts) = settles false ts := by
  induction waiting generalizing busy with
  | nil => rfl
  | cons a waiting ih => exact ih _

theorem settles_commandTurns (busy : Bool) (w : Word) (waiting : List Access) (ts : List Turn) :
    settles busy (commandTurns w waiting ++ ts) = settles false ts := by
  have h : commandTurns w waiting ++ ts =
      .host (.write .w32 0x008 w) :: (waiting.map .host ++ .engine :: (.host poll :: ts)) := by
    simp [commandTurns]
  rw [h]
  exact settles_waiting _ _ _

/-- The turns of a host program leave an idle machine idle: every `CMD` write is followed by the engine's step. -/
theorem settles_programTurns (actions : List HostAction) : settles false (programTurns actions) = true := by
  induction actions with
  | nil => rfl
  | cons action actions ih =>
    rw [programTurns, List.flatMap_cons, ← programTurns]
    cases action with
    | command w waiting => rw [HostAction.turns, settles_commandTurns, ih]
    | access a =>
      rw [HostAction.turns]
      split
      · rw [settles_commandTurns, ih]
      · rename_i h
        simp only [List.cons_append, List.nil_append, settles, h, Option.isSome_none, Bool.or_false, ih]

/-- One turn keeps `BUSY` and `FAULT` apart, and leaves the machine idle where `settles` says so. -/
theorem runTurns_singleton_busy_fault {turn : Turn} {s t : State} (h : runTurns [turn] s = .next t) (hs : s.NotBoth) :
    t.NotBoth ∧ ∀ busy ts, (busy = false → s.busy = false) →
      ∃ busy', settles busy (turn :: ts) = settles busy' ts ∧ (busy' = false → t.busy = false) := by
  rw [runTurns_singleton] at h
  cases turn with
  | host access =>
    obtain ⟨hn, hb⟩ := hostTurn_busy_fault (s := { s with turns := [] }) h hs
    refine ⟨hn, fun busy ts hbusy => ⟨_, rfl, fun hor => ?_⟩⟩
    obtain ⟨h1, h2⟩ := Bool.or_eq_false_iff.mp hor
    by_contra ht
    have := hb (Option.isSome_eq_false_iff.mp h2 |> Option.isNone_iff_eq_none.mp) (by simpa using ht)
    rw [show s.busy = false from hbusy h1] at this
    cases this
  | engine =>
    have hb := engineTurn_busy (s := { s with turns := [] }) h
    exact ⟨fun h' => absurd h' (by simp [hb]), fun _ _ _ => ⟨false, rfl, fun _ => hb⟩⟩
  | reset =>
    cases h
    exact ⟨fun h' => (nomatch h'), fun _ _ _ => ⟨false, rfl, fun _ => rfl⟩⟩

theorem runTurnsUntil_busy {stop : Turn → State → Bool} (hstop : ∀ turn t, stop turn t = true → t.fault = true)
    (ts : List Turn) {busy : Bool} {s t : State} (hsettle : settles busy ts = true) (hbusy : busy = false → s.busy = false)
    (hs : s.NotBoth) (h : runTurnsUntil stop ts s = .next t) : t.busy = false := by
  induction ts generalizing busy s with
  | nil =>
    cases h
    exact hbusy (by simpa [settles] using hsettle)
  | cons turn ts ih =>
    rw [runTurnsUntil] at h
    split at h
    · rename_i u hu
      obtain ⟨hn, hset⟩ := runTurns_singleton_busy_fault hu hs
      split at h
      · rename_i hst
        cases h
        by_contra hb
        have := hn (by simpa using hb)
        rw [hstop _ _ hst] at this
        cases this
      · obtain ⟨busy', he, hb'⟩ := hset busy ts hbusy
        exact ih (he ▸ hsettle) hb' hn h
    · cases h
    · cases h

/-- R217: a run of a host program that handles faults, started with `BUSY = 0`, ends with `BUSY = 0`. -/
theorem runProgram_busy {actions : List HostAction} {s t : State} (hs : s.busy = false)
    (h : runProgram actions s = .next t) : t.busy = false :=
  runTurnsUntil_busy (stop := fun _ _ => false) (fun _ _ h => (nomatch h)) _ (settles_programTurns actions) (fun _ => hs)
    (fun hb => by rw [hs] at hb; cases hb) h

/-- R217: so does a run of one that does not handle faults, also where it ends at a `STATUS` read that shows
`FAULT = 1`. -/
theorem runUntilFault_busy {actions : List HostAction} {s t : State} (hs : s.busy = false)
    (h : runUntilFault actions s = .next t) : t.busy = false :=
  runTurnsUntil_busy (fun _ _ h => (Bool.and_eq_true_iff.mp h).2) _ (settles_programTurns actions) (fun _ => hs)
    (fun hb => by rw [hs] at hb; cases hb) h

end Sys2Proof.Machine
end

