-- ==== Sys2Proof/Tests/Slice0.lean ====
section
/-! SUPPORT. The tests: ill-formed terms that the checks refuse, a word for every constructor, one-step vectors of
95_test_vectors.md, and for every obligation with hypotheses a witness that meets them. Expected values come from the
spec's text, never from the model. -/

namespace Sys2Proof.Tests

-- one theorem after the other: the kernel evaluations would otherwise pile up in threads
set_option Elab.async false

open Sys2Proof Sys2Proof.Machine

/-! ## Helpers -/

/-- The next state, if the outcome is one. -/
def ran (o : Host.Outcome State Fault Refusal) : Option State :=
  match o with
  | .next t => some t
  | .fault _ => none
  | .refused _ => none

theorem ran_eq_some {o : Host.Outcome State Fault Refusal} {t : State} : ran o = some t ↔ o = .next t := by
  cases o <;> simp [ran]

theorem next_of_isSome {o : Host.Outcome State Fault Refusal} (h : (ran o).isSome = true) : ∃ t, o = .next t := by
  cases o with
  | next t => exact ⟨t, rfl⟩
  | fault _ => cases h
  | refused _ => cases h

/-- The state after the engine ran the command word `w`. -/
def onWord (w : Word) (s : State) : Option State := ran (step { s with cmdreg := w, busy := true })

/-- After reset, with `F[1] = x`. -/
def one (x : Num256) : State := State.reset.setF 1 x

/-- After reset, with `F[1] = x` and `F[2] = y`. -/
def two (x y : Num256) : State := (one x).setF 2 y

/-- The prime `p`, the order `r` and the base point of R9. -/
def pNum : Num256 := 0xFFFFFFFFFFFFFFFFFFFFFFFFFFFFFFFFFFFFFFFFFFFFFFFFFFFFFFFEFFFFFC2F
def rNum : Num256 := 0xFFFFFFFFFFFFFFFFFFFFFFFFFFFFFFFEBAAEDCE6AF48A03BBFD25E8CD0364141
def gx : Num256 := 0x79BE667EF9DCBBAC55A06295CE870B07029BFCDB2DCE28D959F2815B16F81798
def gy : Num256 := 0x483ADA7726A3C4655DA4FBFC0E1108A8FD17B448A68554199C47D08FFB10D4B8
def negGy : Num256 := 0xB7C52588D95C3B9AA25B0403F1EEF75702E84BB7597AABE663B82F6F04EF2777
def g2 : Point := .affine 0xC6047F9441ED7D6D3045406E95C07CD85C778E4B8CEF3CA7ABAC09B95C709EE5
  0x1AE168FEA63DC339A3C58419466CEAEEF7F632653266D0E1236431A950CFE52A
def g3 : Point := .affine 0xF9308A019258C31049344F85F89D5229B531C845836F99B08601F113BCE036F9
  0x388F7B0F632DE8140FE337E62A37F3566500A99934C2231B6CB9FD7584B8E672
def g7 : Point := .affine 0x5CBDF0646E5DB4EAA398F365F2EA7A0E3D419B7E0330E39CE92BDDEDCAC4F9BC
  0x6AEBCA40BA255960A3178D6D861A54DBA813D0B813FDE7B5A5082628087264DA

/-- After reset, with `PT[0] = (G, 1)`. -/
def atG : State := State.reset.setPT 0 ⟨.affine gx gy, true⟩

/-- After reset, with `PT[5] = (Infinity, 0)`. -/
def atInf : State := State.reset.setPT 5 ⟨.infinity, false⟩

/-- After reset, with `BUF[0]` the prefix byte `b` and the bytes of `x` after it. -/
def form (b : Byte) (x : Num256) : State := State.reset.memWrite 0 (b :: bytesBE32 x)

/-! ## WellFormed: each check refuses an ill-formed term (R81, R82, R85; R8) -/

theorem test_wf_unlisted_opcode : (Fields.mk 0x14 0 0 0 0).wf = false := by decide
theorem test_wf_unused_register : (Fields.mk 0x30 3 1 0 0).wf = false := by decide
theorem test_wf_point_top_bit : (Fields.mk 0x3A 8 0 1 0).wf = false := by decide
theorem test_wf_format_r_immediate : (Fields.mk 0x20 0 1 2 1).wf = false := by decide
theorem test_wf_reserved_high : (Fields.mk 0x40 0 0 0 0x200).wf = false := by decide
theorem test_wf_reserved_bit7 : (Fields.mk 0x43 0 0 0 0x080).wf = false := by decide
theorem test_wf_unused_off : (Fields.mk 0x42 3 5 0 0x101).wf = false := by decide
theorem test_wf_unused_m : (Fields.mk 0x41 1 0 0 0x100).wf = false := by decide
theorem test_wf_accepts : (Fields.mk 0x12 15 0 0 0xFFF).wf = true := by decide

/-- A small lawful-looking curve, y² = x³ + 3x over GF(7), to break one check at a time. -/
def small : Curve := ⟨7, 3, 0, 1, 2, 8⟩

theorem test_curve_accepts : small.wf = true := by decide
theorem test_curve_p_small : { small with p := 2 }.wf = false := by decide
theorem test_curve_p_large : { small with p := 2 ^ 256 + 3 }.wf = false := by decide
theorem test_curve_p_mod_four : { small with p := 13 }.wf = false := by decide
theorem test_curve_a_range : { small with a := 10 }.wf = false := by decide
theorem test_curve_b_range : { small with b := 7 }.wf = false := by decide
theorem test_curve_gx_range : { small with gx := 8 }.wf = false := by decide
theorem test_curve_gy_range : { small with gy := 9 }.wf = false := by decide
theorem test_curve_r_zero : { small with r := 0 }.wf = false := by decide
theorem test_curve_r_large : { small with r := 2 ^ 256 }.wf = false := by decide
theorem test_curve_base_point : { small with gy := 3 }.wf = false := by decide
theorem test_curve_singular : Curve.wf ⟨7, 0, 0, 1, 1, 8⟩ = false := by decide

/-! ## Decoding: a word for every constructor, from the fields of R81 and the rows of R86 -/

theorem test_decode_ldf : decode 0x10200020 = .ok (.ldf 2 32) := by rfl
theorem test_decode_stf : decode 0x1105007F = .ok (.stf 5 127) := by rfl
theorem test_decode_fli : decode 0x12F00FFF = .ok (.fli 15 4095) := by rfl
theorem test_decode_fmov : decode 0x13120000 = .ok (.fmov 1 2) := by rfl
theorem test_decode_fadd : decode 0x20F12000 = .ok (.fadd 15 1 2) := by rfl
theorem test_decode_fsub : decode 0x21817000 = .ok (.fsub 8 1 7) := by rfl
theorem test_decode_fneg : decode 0x22D10000 = .ok (.fneg 13 1) := by rfl
theorem test_decode_fmul : decode 0x23334000 = .ok (.fmul 3 3 4) := by rfl
theorem test_decode_finv : decode 0x24580000 = .ok (.finv 5 8) := by rfl
theorem test_decode_fsqrt : decode 0x250F0000 = .ok (.fsqrt 0 15) := by rfl
theorem test_decode_pinf : decode 0x30300000 = .ok (.pinf 3) := by rfl
theorem test_decode_pldg : decode 0x31700000 = .ok (.pldg 7) := by rfl
theorem test_decode_pmk : decode 0x32178000 = .ok (.pmk 1 7 8) := by rfl
theorem test_decode_pmov : decode 0x33500000 = .ok (.pmov 5 0) := by rfl
theorem test_decode_pgetx : decode 0x34F50000 = .ok (.pgetx 15 5) := by rfl
theorem test_decode_pgety : decode 0x35400000 = .ok (.pgety 4 0) := by rfl
theorem test_decode_pchk : decode 0x36012000 = .ok (.pchk 1 2) := by rfl
theorem test_decode_peq : decode 0x37012000 = .ok (.peq 1 2) := by rfl
theorem test_decode_pneg : decode 0x38150000 = .ok (.pneg 1 5) := by rfl
theorem test_decode_pdbl : decode 0x39650000 = .ok (.pdbl 6 5) := by rfl
theorem test_decode_padd : decode 0x3A201000 = .ok (.padd 2 0 1) := by rfl
theorem test_decode_psmul : decode 0x3B10C000 = .ok (.psmul 1 0 12) := by rfl
theorem test_decode_pser : decode 0x40020121 = .ok (.pser 2 33 true) := by rfl
theorem test_decode_pdes : decode 0x4170005F = .ok (.pdes 7 95) := by rfl
theorem test_decode_recy : decode 0x42350100 = .ok (.recy 3 5 true) := by rfl
theorem test_decode_pfxe : decode 0x4300007F = .ok (.pfxe 127) := by rfl
theorem test_decode_pfxd : decode 0x44000001 = .ok (.pfxd 1) := by rfl

theorem test_decode_illegal_opcode : decode 0x14000000 = .error .unassignedOpcode := by rfl
theorem test_decode_illegal_field : decode 0x37009000 = .error .nonzeroReserved := by rfl
theorem test_encode_recy : encode (.recy 3 5 true) = 0x42350100 := by decide
theorem test_encode_psmul : encode (.psmul 1 0 4) = 0x3B104000 := by decide
theorem test_decodeTableWord : decodeTableWord 32 0x3A201000 = some (.padd 2 0 1) := by rfl
theorem test_decodeTableWord_refuses : decodeTableWord 32 0x3A801000 = none := by rfl

/-- R88: hexadecimal operands and comments are read, an operand too many or out of range is not. -/
theorem test_assemble_forms :
    assemble "LDF F2, 0x20   # hexadecimal\n# nothing" = some [0x10200020] ∧
      assemble "LDF F2, 128" = none ∧ assemble "PINF P8" = none ∧ assemble "PINF P0, P1" = none := by
  decide +kernel

theorem test_commandText : commandText (.pser 2 33 true) = "PSER P2, 33, 1" := by decide +kernel

/-! ## One step of each instruction, from 95_test_vectors.md sections 2.1 to 2.4 -/

theorem test_ldf : (onWord 0x10200060 (State.reset.memWrite 96 (List.replicate 32 0xFF))).map (·.getF 2) =
    some (some (BitVec.allOnes 256)) := by decide +kernel

theorem test_ldf_range : (onWord 0x10100061 State.reset).map (fun t => (t.statusWord, t.fcauseWord, t.finfo)) =
    some (0x00000002, 0x00000003, 0x10100061) := by decide +kernel

theorem test_stf : (onWord 0x11030000 (State.reset.setF 3 0x0102)).map (·.memRead 28 5) =
    some [0x00, 0x00, 0x01, 0x02, 0x00] := by decide +kernel

theorem test_stf_empty_first : (onWord 0x11010064 State.reset).map (·.fcauseWord) = some 2 := by decide +kernel

theorem test_fli : (onWord 0x12F00FFF State.reset).map (fun t => (t.getF 15, t.statusWord)) = some (some 4095, 0) := by
  decide +kernel

theorem test_fmov : (onWord 0x13120000 (two 0 (BitVec.allOnes 256))).map (·.getF 1) =
    some (some (BitVec.allOnes 256)) := by decide +kernel

theorem test_fadd_wide : (onWord 0x20012000 (two (BitVec.allOnes 256) (BitVec.allOnes 256))).map (·.getF 0) =
    some (some 0x2000007A0) := by decide +kernel

theorem test_fadd_same : (onWord 0x20111000 (one 7)).map (·.getF 1) = some (some 14) := by decide +kernel

theorem test_fsub : (onWord 0x21012000 (two 3 5)).map (·.getF 0) = some (some (pNum - 2)) := by decide +kernel

theorem test_fneg_p : (onWord 0x22010000 (one pNum)).map (·.getF 0) = some (some 0) := by decide +kernel

theorem test_fneg : (onWord 0x22010000 (one gy)).map (·.getF 0) = some (some negGy) := by decide +kernel

theorem test_fmul : (onWord 0x23012000 (two (BitVec.allOnes 256) (BitVec.allOnes 256))).map (·.getF 0) =
    some (some 0x1000007A0000E8900) := by decide +kernel

theorem test_finv : (onWord 0x24010000 (one 3)).map (·.getF 0) =
    some (some 0xAAAAAAAAAAAAAAAAAAAAAAAAAAAAAAAAAAAAAAAAAAAAAAAAAAAAAAA9FFFFFD75) := by decide +kernel

/-- 95_test_vectors.md section 2.5: the flags survive the fault. -/
theorem test_finv_zero_keeps_flags :
    (onWord 0x24010000 { one 0 with tflag := true, inf := true, offs := 5 }).map
      (fun t => (t.statusWord, t.fcauseWord, t.finfo, t.getF 0)) = some (0x00000532, 7, 0x24010000, none) := by
  decide +kernel

theorem test_fsqrt_nine : (onWord 0x25010000 (one 9)).map (fun t => (t.getF 0, t.tflag)) =
    some (some (pNum - 3), true) := by decide +kernel

theorem test_fsqrt_three : (onWord 0x25010000 (one 3)).map (fun t => (t.getF 0, t.tflag)) =
    some (some 0x0A2D2BA93507F1DF233770C2A797962CC61F6D15DA14ECD47D8D27AE1CD5F852, false) := by decide +kernel

theorem test_pinf : (onWord 0x30300000 State.reset).map (fun t => (t.getPT 3, t.statusWord)) =
    some (some ⟨.infinity, false⟩, 0x00000020) := by decide +kernel

theorem test_pldg : (onWord 0x31000000 { State.reset with inf := true }).map (fun t => (t.getPT 0, t.inf)) =
    some (some ⟨.affine gx gy, true⟩, false) := by decide +kernel

theorem test_pmk : (onWord 0x32112000 (two gx negGy)).map (·.getPT 1) = some (some ⟨.affine gx negGy, false⟩) := by
  decide +kernel

theorem test_pmk_off_curve : (onWord 0x32112000 (two gx (gy + 1))).map (fun t => (t.fcauseWord, t.getPT 1)) =
    some (4, none) := by decide +kernel

theorem test_pmov : (onWord 0x33500000 atG).map (·.getPT 5) = some (some ⟨.affine gx gy, true⟩) := by decide +kernel

theorem test_pgetx : (onWord 0x34400000 atG).map (·.getF 4) = some (some gx) := by decide +kernel

theorem test_pgetx_infinity : (onWord 0x34450000 atInf).map (fun t => (t.fcauseWord, t.getF 4)) = some (9, none) := by
  decide +kernel

theorem test_pgety : (onWord 0x35400000 atG).map (·.getF 4) = some (some gy) := by decide +kernel

/-- 95_test_vectors.md section 2.3: `PCHK` reduces, `PMK` does not. -/
theorem test_pchk_reduces :
    (onWord 0x36012000 (two (pNum + 1) 0xBDE70DF51939B94C9C24979FA7DD04EBD9B3572DA7802290438AF2A681895441)).map (·.tflag) =
      some true := by decide +kernel

theorem test_pchk_false : (onWord 0x36012000 (two 1 1)).map (·.tflag) = some false := by decide +kernel

theorem test_peq_ignores_ko : (onWord 0x37002000 (atG.setPT 2 ⟨.affine gx gy, false⟩)).map (·.tflag) = some true := by
  decide +kernel

theorem test_peq_negative : (onWord 0x37004000 (atG.setPT 4 ⟨.affine gx negGy, false⟩)).map (·.tflag) = some false := by
  decide +kernel

theorem test_pneg : (onWord 0x38100000 atG).map (·.getPT 1) = some (some ⟨.affine gx negGy, true⟩) := by decide +kernel

theorem test_pdbl : (onWord 0x39100000 atG).map (·.getPT 1) = some (some ⟨g2, false⟩) := by decide +kernel

theorem test_pdbl_infinity : (onWord 0x39650000 atInf).map (fun t => (t.getPT 6, t.statusWord)) =
    some (some ⟨.infinity, false⟩, 0x00000020) := by decide +kernel

theorem test_padd : (onWord 0x3A201000 (atG.setPT 1 ⟨g2, false⟩)).map (·.getPT 2) = some (some ⟨g3, false⟩) := by
  decide +kernel

theorem test_padd_inverse : (onWord 0x3A604000 (atG.setPT 4 ⟨.affine gx negGy, true⟩)).map (fun t => (t.getPT 6, t.inf)) =
    some (some ⟨.infinity, false⟩, true) := by decide +kernel

theorem test_psmul_seven : (onWord 0x3B104000 (atG.setF 4 7)).map (·.getPT 1) = some (some ⟨g7, false⟩) := by
  decide +kernel

/-- The loop without the known order: `r` times the base point. -/
theorem test_psmul_order : (onWord 0x3B324000 ((atG.setPT 2 ⟨.affine gx gy, false⟩).setF 4 rNum)).map (·.getPT 3) =
    some (some ⟨.infinity, false⟩) := by decide +kernel

theorem test_pser : (onWord 0x40000100 (State.reset.setPT 0 ⟨.affine gx negGy, false⟩)).map (·.memRead 0 4) =
    some [0x03, 0x79, 0xBE, 0x66] := by decide +kernel

theorem test_pser_range_before_value :
    (onWord 0x40050164 atInf).map (·.fcauseWord) = some 3 ∧ (onWord 0x40050100 atInf).map (·.fcauseWord) = some 9 := by
  decide +kernel

theorem test_pdes : (onWord 0x41200000 (form 0x03 gx)).map (·.getPT 2) = some (some ⟨.affine gx negGy, false⟩) := by
  decide +kernel

/-- `PDES` at an `x` with no point: the search stops at offset 1, and the pair is rejected. -/
theorem test_pdes_zero : (onWord 0x41000000 (form 0x02 0)).map (fun t => (t.statusWord, t.fcauseWord, t.finfo)) =
    some (0x00000002, 4, 0x41000000) := by decide +kernel

theorem test_recy : (onWord 0x42350000 (State.reset.setF 5 5)).map (fun t => (t.getPT 3, t.offs)) =
    some (some ⟨.affine 6 0x2A410A830399BCCCD3F8B867BBADB95CB5A17786B4E7A0250DFF50B7873A9A40, false⟩, 1) := by
  decide +kernel

theorem test_recy_exhausted : (onWord 0x42350000 (State.reset.setF 5 (pNum - 1))).map (·.fcauseWord) = some 6 := by
  decide +kernel

theorem test_pfxe : (onWord 0x43000000 { State.reset.memWrite 0 [0x03] with offs := 5 }).map (·.readBuf 0) =
    some 0x85 := by decide +kernel

theorem test_pfxe_bad_prefix : (onWord 0x43000000 (State.reset.memWrite 0 [0x04])).map (·.fcauseWord) = some 10 := by
  decide +kernel

theorem test_pfxd : (onWord 0x44000000 (State.reset.memWrite 0 [0x85])).map (fun t => (t.readBuf 0, t.statusWord)) =
    some (0x03, 0x00000500) := by decide +kernel

/-- R162: the layout that the machine does not use. -/
theorem test_parity_low : encPrefix .parityLow true 5 = 0x0B ∧ decPrefix .parityLow 0x85 = (true, 66) := by decide

/-! ## The window, from 95_test_vectors.md sections 2.5 and 2.6 -/

/-- What the host has read after one read of an offset. -/
def hostReads (width : Width) (offset : Nat) (s : State) : Option (List Word × Bool) :=
  (ran (hostTurn (.read width offset) s)).map fun t => (t.reads, t.herr)

theorem test_window_constants :
    hostReads .w32 0x000 State.reset = some ([0x4A510102], false) ∧
      hostReads .w32 0x018 State.reset = some ([0x00800810], false) ∧
      hostReads .w32 0x040 State.reset = some ([0xFFFFFC2F], false) ∧
      hostReads .w32 0x0BC State.reset = some ([0x79BE667E], false) ∧
      hostReads .w32 0x0EC State.reset = some ([0xBAAEDCE6], false) ∧
      hostReads .w32 0xFFC State.reset = some ([0], false) := by decide +kernel

theorem test_window_refuses :
    hostReads .w8 0x100 State.reset = some ([0], true) ∧ hostReads .w32 0x102 State.reset = some ([0], true) ∧
      hostReads .w32 0x100 { State.reset with busy := true } = some ([0], true) := by decide +kernel

theorem test_window_buf_lanes :
    (ran (hostTurn (.write .w32 0x100 0x04030201) State.reset)).map (·.memRead 0 5) = some [1, 2, 3, 4, 0] := by
  decide +kernel

theorem test_window_outside : hostTurn (.read .w32 0x1000) State.reset = .fault .outsideWindow := by rfl

theorem test_refused_after_fault :
    (ran (hostTurn (.write .w32 0x008 0x12100000) ({ State.reset with cmdreg := 0x20012000 }.raise .emptyOperand))).map
      (fun t => (t.statusWord, t.cmdreg)) = some (0x00000006, 0x20012000) := by decide +kernel

theorem test_fclr :
    (ran (hostTurn (.write .w32 0x00C 1) { State.reset with fault := true, herr := true, fcause := 2, finfo := 5 })).map
      (fun t => (t.statusWord, t.fcause, t.finfo)) = some (0x00000004, 0, 0) := by decide +kernel

/-- A command accepted through the window, its step, and the poll. -/
theorem test_turns :
    (ran (runProgram [.command 0x12100005 []] State.reset)).map (fun t => (t.getF 1, t.reads, t.turns)) =
      some (some 5, [0], []) := by decide +kernel

/-- Accesses 4 to 7 of program 4: a poll and a `BUF` read while `BUSY = 1`, the step, the last poll. -/
theorem test_program4_waiting :
    (ran (runProgram [.command 0x20012000 [poll, .read .w32 0x100]] State.reset)).map (fun t => (t.reads, t.busy)) =
      some ([0x00000006, 0x00000000, 0x00000001], false) := by decide +kernel

/-- A `CMD` write given as a plain access is polled too (R217). -/
theorem test_cmd_access_polled :
    (ran (runProgram [.access (.write .w32 0x008 0x12100005)] State.reset)).map (fun t => (t.getF 1, t.reads, t.busy)) =
      some (some 5, [0], false) := by decide +kernel

/-- R217: the run of a program that does not handle faults ends at the poll that shows `FAULT = 1`. -/
theorem test_runUntilFault :
    (ran (runUntilFault [.command 0x20012000 [poll], .command 0x12100005 []] State.reset)).map
      (fun t => (t.reads, t.getF 1, t.herr)) = some ([0x00000002, 0x00000001], none, false) := by decide +kernel

theorem test_withFetchWord : (ran (step (State.reset.withFetchWord 32 0x12100005))).map (·.getF 1) = some (some 5) := by
  decide +kernel

/-! ## Witnesses: for every obligation with hypotheses, a state and operands that meet them, at the edges of the ranges -/

/-- `PT[0] = (G, 1)`, and the engine about to run `PDBL P1, P0`. -/
def busyG : State := { atG with busy := true, cmdreg := 0x39100000 }

theorem base_valid : (Point.affine gx gy).Valid Config.curve := by
  refine ⟨?_, ?_, ?_⟩ <;> decide +kernel

theorem negBase_valid : (Point.affine gx negGy).Valid Config.curve := by
  refine ⟨?_, ?_, ?_⟩ <;> decide +kernel

theorem busyG_getPT (i : PReg) : busyG.getPT i = if i = 0 then some ⟨.affine gx gy, true⟩ else none :=
  (State.getPT_setPT State.reset 0 i _).trans (by rw [State.getPT_reset])

theorem busyG_points : busyG.PointFileValid := by
  intro i q hq
  rw [busyG_getPT] at hq
  split at hq
  · cases hq
    exact base_valid
  · cases hq

theorem busyG_inv : busyG.Inv where
  points := busyG_points
  knownOrder := by
    intro i q hq _
    rw [busyG_getPT] at hq
    split at hq
    · cases hq
      exact .inl (by decide +kernel)
    · cases hq
  faultStatus := ⟨fun _ => rfl, fun _ => ⟨rfl, rfl⟩, fun h => nomatch h⟩
  buffer := ⟨.nil, fun _ h => nomatch h⟩

theorem busyG_step : ∃ t, step busyG = .next t ∧ t.getPT 1 = some ⟨g2, false⟩ := by
  obtain ⟨t, ht⟩ := next_of_isSome (o := step busyG) (by decide +kernel)
  have h : (ran (step busyG)).map (·.getPT 1) = some (some ⟨g2, false⟩) := by decide +kernel
  rw [ht] at h
  exact ⟨t, ht, Option.some.inj h⟩

theorem hasPoint_gx : HasPoint Config.curve gx.toNat := ⟨by decide +kernel, gy.toNat, by decide +kernel, by decide +kernel⟩

/-- 7 is not a square (95_test_vectors.md section 2.4), so that no point has `x = 0`. -/
theorem no_point_zero : ¬HasPoint Config.curve 0 := by
  have := curve_fact_prime
  rw [← onCurve_candidate_iff curve_mod_four 0 curve_p_pos]
  decide +kernel

/-- 8 is a square, so that there is a point with `x = 1`. -/
theorem hasPoint_one : HasPoint Config.curve 1 := by
  have := curve_fact_prime
  rw [← onCurve_candidate_iff curve_mod_four 1 (by decide +kernel)]
  decide +kernel

theorem no_point_above (k : Nat) : ¬HasPoint Config.curve (pNum.toNat + k) := by
  rintro ⟨h, -⟩
  have : pNum.toNat = Config.curve.p := by decide +kernel
  omega

theorem witness_ResetLeavesTheTable :
    (4 : Word).getLsbD 2 = true ∧ { atG with turns := [.reset] }.turns = .reset :: [] ∧ 47 < 48 := by
  decide

theorem witness_StepKeepsInvariant : busyG.Inv ∧ ∃ t, step busyG = .next t ∧ t.getPT 1 = some ⟨g2, false⟩ :=
  ⟨busyG_inv, busyG_step⟩

theorem witness_StepKeepsPointFileValid :
    busyG.PointFileValid ∧ ∃ t, step busyG = .next t ∧ t.getPT 1 = some ⟨g2, false⟩ :=
  ⟨busyG_points, busyG_step⟩

theorem witness_RegistersEmptyOnlyByReset :
    (¬busyG.NextIsReset ∧ busyG.getPT 0 ≠ none ∧ ∃ t, step busyG = .next t ∧ t.getPT 1 = some ⟨g2, false⟩) ∧
      (∃ t, step { atG with turns := [.reset] } = .next t) ∧ { atG with turns := [.reset] }.NextIsReset ∧
      { atG with turns := [.host (.write .w32 0x00C 4)] }.NextIsReset := by
  refine ⟨⟨?_, by decide +kernel, busyG_step⟩, ⟨_, rfl⟩, ⟨[], .inl rfl⟩, ⟨[], .inr ⟨_, by decide, rfl⟩⟩⟩
  rintro ⟨rest, h | ⟨access, -, h⟩⟩ <;> cases h

theorem witness_EncodeOfDecode : decode 0x3B104000 = .ok (.psmul 1 0 4) := by rfl

/-- The row of `PADD` is the only one its word matches. -/
theorem witness_DecodeByMatchAndMask :
    ∃ r ∈ opcodeTable, r.op = 0x3A ∧ (0x3A201000 : Word) &&& r.mask = r.matchWord :=
  ⟨_, .tail _ (.tail _ (.tail _ (.tail _ (.tail _ (.tail _ (.tail _ (.tail _ (.tail _ (.tail _ (.tail _ (.tail _ (.tail _
    (.tail _ (.tail _ (.tail _ (.tail _ (.tail _ (.tail _ (.tail _ (.head _)))))))))))))))))))), rfl, by decide⟩

theorem witness_MasksBuiltFromColumns : ∃ r, r ∈ opcodeTable := ⟨_, .head _⟩

theorem witness_DecodeIffFieldsWellFormed :
    decode 0x20012000 = .ok (.fadd 0 1 2) ∧ decode 0x14000000 = .error .unassignedOpcode ∧
      decode 0x20012001 = .error .nonzeroReserved := ⟨rfl, rfl, rfl⟩

theorem witness_StepRunsDecodedCommand :
    busyG.busy = true ∧ decode busyG.cmdreg = .ok (.pdbl 1 0) ∧ busyG.turns = [] ∧
      { busyG with turns := [.engine] }.turns = .engine :: [] := ⟨rfl, rfl, rfl, rfl⟩

theorem witness_IllegalWordRaises :
    { busyG with cmdreg := 0x20012001 }.busy = true ∧
      decode { busyG with cmdreg := 0x20012001 }.cmdreg = .error .nonzeroReserved := ⟨rfl, rfl⟩

theorem witness_StepTakesTheFirstTurn :
    { atG with turns := [.host (.read .w32 4)] }.turns = .host (.read .w32 4) :: [] ∧
      { atG with turns := [.engine] }.turns = .engine :: [] ∧ { atG with turns := [.engine] }.busy = false ∧
      atG.turns = [] ∧ atG.busy = false := ⟨rfl, rfl, rfl, rfl, rfl⟩

theorem witness_FetchedWordRuns :
    (∃ s : State, s.Inv ∧ s.busy = false ∧ s.fault = false ∧ s.turns = [] ∧ s.getPT 0 ≠ none) :=
  ⟨{ busyG with busy := false },
    ⟨busyG_inv.points, busyG_inv.knownOrder, ⟨fun h => (nomatch h), fun _ => ⟨rfl, rfl⟩, fun h => (nomatch h)⟩,
      busyG_inv.buffer⟩, rfl, rfl, rfl, by decide +kernel⟩

theorem witness_FaultEntryIsPrecise :
    { busyG with cmdreg := 0x39120000 }.busy = true ∧ { busyG with cmdreg := 0x39120000 }.fault = false ∧
      ∃ t, engineTurn { busyG with cmdreg := 0x39120000 } = .next t ∧ t.fault = true := by
  refine ⟨rfl, rfl, { busyG with
    cmdreg := 0x39120000, fault := true, fcause := 2, finfo := 0x39120000, busy := false }, ?_, rfl⟩
  rw [← ran_eq_some]
  decide +kernel

theorem witness_CommandFrame :
    (∃ t, exec (.stf 1 32) (one 5) = .next t) ∧ destF (.stf 1 32) ≠ some 1 ∧ destPT (.stf 1 32) = none ∧
      writesT (.stf 1 32) = false ∧ writesOffs (.stf 1 32) = false ∧ destPT (.stf 1 32) ≠ some 0 ∧
      31 < (storedBytes (.stf 1 32)).1 ∧ (storedBytes (.stf 1 32)).1 + (storedBytes (.stf 1 32)).2 ≤ 64 :=
  ⟨next_of_isSome (by decide +kernel), by decide, rfl, rfl, rfl, by decide, by decide, by decide⟩

theorem witness_EmptyOperandFirst :
    State.reset.HasEmptySource (.stf 1 127) ∧ ¬(one 5).HasEmptySource (.stf 1 127) ∧ (one 5).fault = false := by
  refine ⟨.inl ⟨1, .head _, by decide +kernel⟩, ?_, rfl⟩
  rintro (⟨r, hr, h⟩ | ⟨r, hr, h⟩)
  · obtain rfl := List.mem_singleton.mp hr
    revert h
    decide +kernel
  · cases hr

theorem witness_BufRangeLimits :
    (one 5).fault = false ∧ (one 5).getF 1 ≠ none ∧ atG.fault = false ∧ atG.getPT 0 ≠ none ∧
      (96 : Off).toNat = 96 ∧ (97 : Off).toNat = 97 ∧
      (State.reset.memWrite 95 [0x02, 0x03]).readBuf (95 : Off).toNat = 0x02 ∧
      (State.reset.memWrite 95 [0x02, 0x03]).readBuf (96 : Off).toNat = 0x03 ∧
      (State.reset.memWrite 63 [0x04, 0x04]).readBuf (63 : Off).toNat = 0x04 ∧
      (State.reset.memWrite 63 [0x04, 0x04]).readBuf (64 : Off).toNat = 0x04 := by decide +kernel

theorem witness_CommandsRaiseOnlyTheirCauses :
    busyG.PointFileValid ∧ busyG.fault = false ∧ ∃ t, exec (.pmov 1 2) busyG = .next t ∧ t.fault = true :=
  ⟨busyG_points, rfl, { busyG with fault := true, fcause := 2, finfo := 0x39100000, busy := false },
    by rw [← ran_eq_some]; decide +kernel, rfl⟩

theorem witness_CtrlWrite : (4 : Word).getLsbD 2 = true ∧ (3 : Word).getLsbD 2 = false := by decide

theorem witness_CmdWrite :
    (atG.busy = false ∧ atG.fault = false) ∧ (busyG.busy = true ∨ busyG.fault = true) ∧
      ({ atG with fault := true }.busy = true ∨ { atG with fault := true }.fault = true) := by decide

theorem witness_UnsupportedAccessRefused :
    (0xFFF < 0x1000 ∧ (Width.w32 ≠ .w32 ∨ 0xFFF % 4 ≠ 0)) ∧ (0 < 0x1000 ∧ (Width.w8 ≠ .w32 ∨ 0 % 4 ≠ 0)) := by decide

theorem witness_HarmlessAccesses :
    (∀ offset ∈ [0x01C, 0x03C, 0x180, 0xFFC],
      offset % 4 = 0 ∧ ((0x01C ≤ offset ∧ offset ≤ 0x03C) ∨ (0x180 ≤ offset ∧ offset ≤ 0xFFC))) ∧ 47 < 48 := by decide

theorem witness_CpWords : 0 ≤ 7 ∧ 7 ≤ 7 := by decide

theorem witness_BufThroughWindow :
    31 ≤ 31 ∧ atG.busy = false ∧ busyG.busy = true ∧ 3 < 4 ∧ (123 < 4 * 31 ∨ 4 * 31 + 4 ≤ 123) ∧
      (4 < 4 * 0 ∨ 4 * 0 + 4 ≤ 4) := by decide

theorem witness_HerrEvents :
    (Access.read .w32 0x17C).offset < 0x1000 ∧ busyG.Refuses (.read .w32 0x17C) ∧ ¬busyG.Refuses (.read .w32 0x180) ∧
      ¬atG.Refuses (.write .w32 0x008 5) ∧ busyG.Refuses (.write .w32 0x008 5) ∧
      (∃ t, step { busyG with turns := [.host (.read .w32 0x17C)] } = .next t ∧ t.herr = true) ∧
      ∃ t, step { busyG with herr := true, turns := [.host (.write .w32 0x00C 2)] } = .next t ∧ t.herr = false := by
  refine ⟨by decide, .inr (.inr ⟨rfl, by decide⟩), ?_, ?_, .inr (.inr (.inr ⟨rfl, .inl rfl⟩)), ⟨_, rfl, rfl⟩, ⟨_, rfl, rfl⟩⟩
  · rintro (h | h | ⟨-, h⟩)
    · exact h rfl
    · exact h rfl
    · exact absurd h (by decide)
  · rintro (h | h | ⟨h, -⟩ | ⟨-, h | h⟩)
    · exact h rfl
    · exact h rfl
    · cases h
    · cases h
    · cases h

theorem witness_NumberThroughWindow : atG.busy = false ∧ 32 ≤ 32 := by decide

theorem witness_BusyHostCannotDisturb :
    busyG.busy = true ∧ (Access.write .w32 0x00C 3).isSrst = false ∧
      ∃ t, hostTurn (.write .w32 0x00C 3) busyG = .next t := ⟨rfl, rfl, _, rfl⟩

theorem witness_HostCannotSeeRegisters :
    (Access.read .w32 0x100).isSrst = false ∧ ∃ t, hostTurn (.read .w32 0x100) atG = .next t := ⟨rfl, _, rfl⟩

/-- Two states that differ in every flag, a command that writes `T` and one that faults. -/
theorem witness_FlagsDoNotSteerCommands :
    let s₁ := one 0
    let s₂ := { one 0 with tflag := true, inf := true, offs := 5, herr := true }
    s₁.fregs = s₂.fregs ∧ s₁.pregs = s₂.pregs ∧ s₁.buf = s₂.buf ∧ s₁.fault = false ∧ s₂.fault = false ∧
      (ran (exec (.fsqrt 0 1) s₁)).map (·.fault) = some false ∧ (ran (exec (.fsqrt 0 1) s₂)).map (·.fault) = some false ∧
      (ran (exec (.finv 0 1) s₁)).map (·.fault) = some true ∧ (ran (exec (.finv 0 1) s₂)).map (·.fault) = some true ∧
      writesT (.fsqrt 0 1) = true ∧ destPT (.pinf 0) ≠ none ∧ writesOffs (.pfxd 0) = true := by decide +kernel

theorem witness_EngineEventuallyIdle :
    { busyG with turns := [.host (.read .w32 0xFFC), .engine] }.TurnsInWindow := by
  rintro a (_ | ⟨_, _ | ⟨_, h⟩⟩)
  · exact (by decide : 0xFFC < windowSize)
  · cases h

theorem witness_LdfResult : (96 : Off).toNat ≤ 96 ∧ 96 < (97 : Off).toNat := by decide

theorem witness_StfResult :
    (one 5).getF 1 = some 5 ∧ (96 : Off).toNat ≤ 96 ∧ State.reset.getF 1 = none ∧ (one 5).getF 1 ≠ none ∧
      96 < (97 : Off).toNat ∧ (95 < (96 : Off).toNat ∨ (96 : Off).toNat + 32 ≤ 95) ∧
      (128 < (96 : Off).toNat ∨ (96 : Off).toNat + 32 ≤ 128) := by decide +kernel

theorem witness_FliFmovResult : (one 5).getF 1 = some 5 ∧ State.reset.getF 1 = none := by decide +kernel

theorem witness_FaddFmulResult :
    (two 0 pNum).getF 1 = some 0 ∧ (two 0 pNum).getF 2 = some pNum ∧
      ((one 5).getF 1 = none ∨ (one 5).getF 2 = none) := by decide +kernel

theorem witness_FsubFnegResult :
    (two 0 pNum).getF 1 = some 0 ∧ (two 0 pNum).getF 2 = some pNum ∧
      ((one 5).getF 1 = none ∨ (one 5).getF 2 = none) ∧ State.reset.getF 1 = none := by decide +kernel

theorem witness_FinvResult :
    ((one (pNum - 1)).getF 1 = some (pNum - 1) ∧ (pNum - 1).toNat % Config.curve.p ≠ 0) ∧
      ((one pNum).getF 1 = some pNum ∧ pNum.toNat % Config.curve.p = 0) ∧ State.reset.getF 1 = none := by decide +kernel

theorem witness_FsqrtResult : (one 3).getF 1 = some 3 ∧ State.reset.getF 1 = none := by decide +kernel

theorem witness_PmkPchkResult :
    ((two gx gy).getF 1 = some gx ∧ (two gx gy).getF 2 = some gy ∧ gx.toNat < Config.curve.p ∧ gy.toNat < Config.curve.p ∧
      gy.toNat * gy.toNat % Config.curve.p =
        (gx.toNat * gx.toNat * gx.toNat + Config.curve.a * gx.toNat + Config.curve.b) % Config.curve.p) ∧
      ((two pNum 0).getF 1 = some pNum ∧ (two pNum 0).getF 2 = some 0 ∧ ¬pNum.toNat < Config.curve.p) ∧
      ((one 5).getF 1 = none ∨ (one 5).getF 2 = none) := by decide +kernel

theorem witness_PmovPnegResult :
    atG.getPT 0 = some ⟨.affine gx gy, true⟩ ∧ atInf.getPT 5 = some ⟨.infinity, false⟩ ∧ atG.getPT 1 = none := by
  decide +kernel

theorem witness_PgetxPgetyResult :
    atG.getPT 0 = some ⟨.affine gx gy, true⟩ ∧ atInf.getPT 5 = some ⟨.infinity, false⟩ ∧ atG.getPT 1 = none := by
  decide +kernel

theorem witness_PeqResult :
    (atG.setPT 1 ⟨g2, false⟩).getPT 0 = some ⟨.affine gx gy, true⟩ ∧ (atG.setPT 1 ⟨g2, false⟩).getPT 1 = some ⟨g2, false⟩ ∧
      (atG.getPT 0 = none ∨ atG.getPT 1 = none) := by decide +kernel

theorem witness_PdblResult :
    (atG.getPT 0 = some ⟨.affine gx gy, true⟩ ∧ (Point.affine gx gy).Valid Config.curve) ∧
      (State.reset.setPT 0 ⟨.affine gx 0, false⟩).getPT 0 = some ⟨.affine gx 0, false⟩ ∧ atG.getPT 1 = none :=
  ⟨⟨by decide +kernel, base_valid⟩, by decide +kernel, by decide +kernel⟩

theorem witness_PaddResult :
    ((atG.setPT 4 ⟨.affine gx negGy, true⟩).getPT 0 = some ⟨.affine gx gy, true⟩ ∧
      (atG.setPT 4 ⟨.affine gx negGy, true⟩).getPT 4 = some ⟨.affine gx negGy, true⟩ ∧
      (Point.affine gx gy).Valid Config.curve ∧ (Point.affine gx negGy).Valid Config.curve) ∧
      (atG.getPT 0 = none ∨ atG.getPT 1 = none) :=
  ⟨⟨by decide +kernel, by decide +kernel, base_valid, negBase_valid⟩, by decide +kernel⟩

theorem witness_PsmulIsRepeatedAddition :
    ((atG.setF 4 rNum).getPT 0 = some ⟨.affine gx gy, true⟩ ∧ (atG.setF 4 rNum).getF 4 = some rNum ∧
      (Point.affine gx gy).Valid Config.curve) ∧ (atG.getPT 0 = none ∨ atG.getF 4 = none) :=
  ⟨⟨by decide +kernel, by decide +kernel, base_valid⟩, by decide +kernel⟩

theorem witness_PsmulKnownOrderAgrees :
    (busyG.setF 4 rNum).Inv ∧ (busyG.setF 4 rNum).getPT 0 = some ⟨.affine gx gy, true⟩ ∧
      (busyG.setF 4 rNum).getF 4 = some rNum :=
  ⟨⟨busyG_inv.points, busyG_inv.knownOrder, busyG_inv.faultStatus, busyG_inv.buffer⟩, by decide +kernel, by decide +kernel⟩

theorem witness_GroupLaws :
    (Point.affine gx gy).Valid Config.curve ∧ (Point.affine gx negGy).Valid Config.curve ∧
      Point.infinity.Valid Config.curve ∧ 2 ^ 256 - 1 < 2 ^ 256 :=
  ⟨base_valid, negBase_valid, trivial, by decide +kernel⟩

theorem witness_PserResult :
    atG.getPT 0 = some ⟨.affine gx gy, true⟩ ∧ atInf.getPT 5 = some ⟨.infinity, false⟩ ∧ atG.getPT 1 = none ∧
      (95 : Off).toNat ≤ 95 ∧ 95 < (96 : Off).toNat ∧ (63 : Off).toNat ≤ 63 ∧ 63 < (64 : Off).toNat := by decide +kernel

theorem witness_PdesUncompressed :
    (State.reset.memWrite 63 (0x04 :: (bytesBE32 gx ++ bytesBE32 gy))).readBuf (63 : Off).toNat = 0x04 ∧
      (63 : Off).toNat ≤ 63 ∧
      be ((State.reset.memWrite 63 (0x04 :: (bytesBE32 gx ++ bytesBE32 gy))).memRead ((63 : Off).toNat + 1) 32) = gx.toNat ∧
      be ((State.reset.memWrite 63 (0x04 :: (bytesBE32 gx ++ bytesBE32 gy))).memRead ((63 : Off).toNat + 33) 32) =
        gy.toNat ∧
      (State.reset.memWrite 64 [0x04]).readBuf (64 : Off).toNat = 0x04 ∧ 63 < (64 : Off).toNat ∧
      (State.reset.memWrite 96 [0x03]).readBuf (96 : Off).toNat = 0x03 ∧ 95 < (96 : Off).toNat ∧
      State.reset.readBuf 0 ≠ 0x02 ∧ State.reset.readBuf 0 ≠ 0x03 ∧ State.reset.readBuf 0 ≠ 0x04 := by decide +kernel

/-- The three clauses, at `x = Gx`, at `x = 0` and at `x = p`. -/
theorem witness_PdesCompressed :
    ((form 0x03 gx).readBuf (0 : Off).toNat = 0x03 ∧ be ((form 0x03 gx).memRead ((0 : Off).toNat + 1) 32) = gx.toNat ∧
      HasPoint Config.curve gx.toNat) ∧
      (be ((form 0x02 0).memRead 1 32) = (0 : Num256).toNat ∧ ¬HasPoint Config.curve (0 : Num256).toNat ∧
        ∃ k, k < 128 ∧ HasPoint Config.curve ((0 : Num256).toNat + k)) ∧
      be ((form 0x02 pNum).memRead 1 32) = pNum.toNat ∧ ∀ k, k < 128 → ¬HasPoint Config.curve (pNum.toNat + k) :=
  ⟨⟨by decide +kernel, by decide +kernel, hasPoint_gx⟩, ⟨by decide +kernel, no_point_zero, 1, by decide, hasPoint_one⟩,
    by decide +kernel, fun k _ => no_point_above k⟩

theorem witness_RecyResult :
    ((one 0).getF 1 = some 0 ∧ ∃ k, k < 128 ∧ HasPoint Config.curve ((0 : Num256).toNat + k)) ∧
      ((one pNum).getF 1 = some pNum ∧ ∀ k, k < 128 → ¬HasPoint Config.curve (pNum.toNat + k)) ∧
      State.reset.getF 1 = none :=
  ⟨⟨by decide +kernel, 1, by decide, hasPoint_one⟩, ⟨by decide +kernel, fun k _ => no_point_above k⟩, by decide +kernel⟩

theorem witness_PfxePfxdResult :
    (State.reset.memWrite 127 [0x03]).readBuf (127 : Off).toNat = 0x03 ∧ State.reset.readBuf 0 ≠ 0x02 ∧
      State.reset.readBuf 0 ≠ 0x03 := by decide +kernel

/-- `u` is the state after `PFXE` itself. -/
theorem witness_PfxdUndoesPfxe :
    (form 0x03 gx).readBuf (0 : Off).toNat = 0x03 ∧ ∃ t, exec (.pfxe 0) (form 0x03 gx) = .next t :=
  ⟨by decide +kernel, next_of_isSome (by decide +kernel)⟩

theorem witness_CodecRoundTrip :
    atG.getPT 0 = some ⟨.affine gx gy, true⟩ ∧ (Point.affine gx gy).Valid Config.curve ∧
      (95 : Off).toNat ≤ (if true then 95 else 63) ∧ (63 : Off).toNat ≤ (if false then 95 else 63) :=
  ⟨by decide +kernel, base_valid, by decide, by decide⟩

end Sys2Proof.Tests
end

section
/-! `CTRL` writes and the table of reset values (10_state.md R31, R37). -/

namespace Sys2Proof.Machine

/-! ## `CTRL` -/

theorem clearFault_if (s : State) (b : Bool) :
    (if b then s.clearFault else s) =
      { s with fault := s.fault && !b, fcause := if b then 0 else s.fcause, finfo := if b then 0 else s.finfo } := by
  cases b <;> simp [State.clearFault]

theorem clearHerr_if (s : State) (b : Bool) :
    (if b then s.clearHerr else s) = { s with herr := s.herr && !b } := by
  cases b <;> simp [State.clearHerr]

/-- With `SRST` a `CTRL` write is a reset, whatever the other bits are (R31). -/
theorem writeCtrl_of_srst {data : Word} (h : data.getLsbD 2 = true) (s : State) : s.writeCtrl data = s.resetEngine := by
  rw [State.writeCtrl, if_pos h]

/-- Without `SRST`, `FCLR` acts on the three fault registers and `HCLR` on `HERR` (R31). -/
theorem writeCtrl_of_not_srst {data : Word} (h : data.getLsbD 2 = false) (s : State) :
    s.writeCtrl data =
      { s with
        fault := s.fault && !data.getLsbD 0
        fcause := if data.getLsbD 0 then 0 else s.fcause
        finfo := if data.getLsbD 0 then 0 else s.finfo
        herr := s.herr && !data.getLsbD 1 } := by
  rw [State.writeCtrl, if_neg (Bool.not_eq_true _ ▸ h), clearFault_if, clearHerr_if]

/-- The word at `0x00C` is `CTRL` (R50). -/
theorem hostTurn_write_ctrl (s : State) (data : Word) :
    hostTurn (.write .w32 0x00C data) s = .next (s.writeCtrl data) := by
  rw [hostTurn_write_w32 s data (by decide) (by decide), windowReg_eq_ctrl.mpr rfl, State.writeReg]

/-- Settles O22, by the two shapes of a `CTRL` write. -/
theorem ctrlWrite : Obligations.CtrlWrite := by
  intro s data
  rw [hostTurn_write_ctrl]
  exact ⟨fun h => congrArg _ (writeCtrl_of_srst h s), fun h => congrArg _ (writeCtrl_of_not_srst h s)⟩

/-! ## Reset -/

theorem State.atReset_resetEngine (s : State) : s.resetEngine.AtReset where
  fregs := s.getF_resetEngine
  pregs := s.getPT_resetEngine
  buf _ _ := rfl
  status := by simp [State.statusWord]
  cmdreg := rfl
  fcause := by simp [State.fcauseWord]
  finfo := rfl

theorem State.atReset_reset : State.reset.AtReset := State.reset.atReset_resetEngine

theorem step_reset {s : State} {rest : List Turn} (h : s.turns = .reset :: rest) :
    step s = .next { s with turns := rest }.resetEngine := by
  simp only [step, h]

/-! ## The constants of the window -/

theorem windowReads_id (s : State) : s.WindowReads 0x000 idWord :=
  hostTurn_read_w32 s (by decide) (by decide)

theorem windowReads_cfg (s : State) : s.WindowReads 0x018 cfgWord :=
  hostTurn_read_w32 s (by decide) (by decide)

theorem windowReads_cp (s : State) {k : Nat} (hk : k < 48) : s.WindowReads (0x040 + 4 * k) (cpWord Config.curve k) := by
  rw [State.WindowReads, hostTurn_read_w32 s (by omega) (by omega), windowReg_cp hk]
  rfl

theorem cfgWord_eq : cfgWord = 0x00800810 := by decide

/-- Settles O1: the three ways to a reset leave the table, and `ID`, `CFG` and `CP` read their constants. -/
theorem resetLeavesTheTable : Obligations.ResetLeavesTheTable := by
  refine ⟨State.atReset_reset, fun s data h => ?_, fun s rest h => ?_,
    fun s => ⟨windowReads_id s, ?_, fun _ => windowReads_cp s⟩⟩
  · exact ⟨_, hostTurn_write_ctrl s data, writeCtrl_of_srst h s ▸ s.atReset_resetEngine⟩
  · exact ⟨_, step_reset h, State.atReset_resetEngine _⟩
  · exact cfgWord_eq ▸ windowReads_cfg s

end Sys2Proof.Machine
end

section
/-! What a command, an engine turn, a host access and a step can do to the point file (10_state.md R22, R24), said once;
and that every point they write is valid. -/

namespace Sys2Proof.Machine

/-! ## The point a command writes -/

/-- `q` is a pair that command `i`, run in `s`, can write to its point register (R23: the flag; R133 to R136, R143, R145,
R147, R148, R165, R166: the value). -/
inductive PointWritten (s : State) : Instr → PtReg → Prop
  | pinf (d : PReg) : PointWritten s (.pinf d) ⟨.infinity, false⟩
  | pldg (d : PReg) : PointWritten s (.pldg d) ⟨basePoint Config.curve, true⟩
  | pmk (d : PReg) {a b : FReg} {x y : Num256} {P : Point} (hx : s.getF a = some x) (hy : s.getF b = some y)
      (hP : makePoint Config.curve x y = .ok P) : PointWritten s (.pmk d a b) ⟨P, false⟩
  | pmov (d : PReg) {a : PReg} {q : PtReg} (hq : s.getPT a = some q) : PointWritten s (.pmov d a) q
  | pneg (d : PReg) {a : PReg} {q : PtReg} (hq : s.getPT a = some q) :
      PointWritten s (.pneg d a) ⟨ptNeg Config.curve q.val, q.ko⟩
  | pdbl (d : PReg) {a : PReg} {q : PtReg} {R : Point} (hq : s.getPT a = some q)
      (hR : ptDouble Config.curve q.val = .ok R) : PointWritten s (.pdbl d a) ⟨R, false⟩
  | padd (d : PReg) {a b : PReg} {q₁ q₂ : PtReg} {R : Point} (hq₁ : s.getPT a = some q₁) (hq₂ : s.getPT b = some q₂)
      (hR : ptAdd Config.curve q₁.val q₂.val = .ok R) : PointWritten s (.padd d a b) ⟨R, false⟩
  | psmul (d : PReg) {a : PReg} {b : FReg} {q : PtReg} {k : Num256} {R : Point} (hq : s.getPT a = some q)
      (hk : s.getF b = some k) (hR : ptSmul Config.curve q.val q.ko k.toNat = .ok R) :
      PointWritten s (.psmul d a b) ⟨R, false⟩
  | pdes (d : PReg) {off : Off} {P : Point} (hP : s.deserialize Config.curve off.toNat = .ok P) :
      PointWritten s (.pdes d off) ⟨P, false⟩
  | recy (d : PReg) {a : FReg} {m : Bool} {x : Num256} {found : Nat × Nat × Nat} (hx : s.getF a = some x)
      (hfound : recoverY Config.curve x.toNat m = .ok found) :
      PointWritten s (.recy d a m) ⟨.affine (toNum found.1) (toNum found.2.1), false⟩

/-! ## What a command does to the point file -/

/-- To know what a sequence of two computations answers, follow the first answer into the second. -/
theorem forall_ok_of_bind {α β : Type} {x : Except Cause α} {f : α → Except Cause β} {motive : β → Prop}
    (h : ∀ a, x = .ok a → ∀ b, f a = .ok b → motive b) : ∀ b, (x >>= f) = .ok b → motive b := by
  intro b hb
  obtain ⟨a, ha, hfa⟩ := except_bind_eq_ok.mp hb
  exact h a ha b hfa

theorem forall_ok_of_ok {α : Type} {a : α} {motive : α → Prop} (h : motive a) :
    ∀ b, (Except.ok a : Except Cause α) = .ok b → motive b := by
  rintro _ ⟨⟩
  exact h

/-- The end of a command leaves the point file as the command's work left it, and fault entry leaves it as it was. -/
theorem pregs_of_finish {s t : State} {r : Except Cause State} {motive : Vector (Option PtReg) 8 → Prop}
    (h : finish s r = .next t) (hfault : motive s.pregs) (hdone : ∀ u, r = .ok u → motive u.pregs) : motive t.pregs := by
  rcases finish_cases s r with ⟨u, hr, hu⟩ | ⟨c, -, hu⟩ <;> rw [hu] at h <;> cases h
  · exact hdone u hr
  · exact hfault

theorem pregs_eq_of_finish {s t : State} {r : Except Cause State} (h : finish s r = .next t)
    (hdone : ∀ u, r = .ok u → u.pregs = s.pregs) : t.pregs = s.pregs :=
  pregs_of_finish (motive := (· = s.pregs)) h rfl hdone

/-- A command without a destination in the point file leaves the file as it is. -/
theorem exec_pregs_of_destPT_none {i : Instr} {s t : State} (hi : destPT i = none) (h : exec i s = .next t) :
    t.pregs = s.pregs := by
  cases i with
  | pinf | pldg | pmk | pmov | pneg | pdbl | padd | psmul | pdes | recy => cases hi
  | fli | pfxd =>
    cases h
    rfl
  | ldf | fmov | fneg | fsqrt => exact pregs_eq_of_finish h (forall_ok_of_bind fun _ _ => forall_ok_of_ok rfl)
  | stf | fadd | fsub | fmul | finv | pgetx | pgety | pchk | peq =>
    exact pregs_eq_of_finish h (forall_ok_of_bind fun _ _ => forall_ok_of_bind fun _ _ => forall_ok_of_ok rfl)
  | pser =>
    exact pregs_eq_of_finish h
      (forall_ok_of_bind fun _ _ => forall_ok_of_bind fun _ _ => forall_ok_of_bind fun _ _ => forall_ok_of_ok rfl)
  | pfxe =>
    refine pregs_eq_of_finish h fun u hu => ?_
    split at hu <;> cases hu
    rfl

/-- `t` has the point file of `s`, but for `PT[d]`, which holds a pair that command `i` can write. -/
def WritesPoint (i : Instr) (d : PReg) (s t : State) : Prop :=
  ∃ q, PointWritten s i q ∧ t.pregs = s.pregs.set d.toNat (some q)

theorem writesPoint_putPoint {i : Instr} {d : PReg} {s : State} {P : Point} {ko : Bool} (h : PointWritten s i ⟨P, ko⟩) :
    WritesPoint i d s (s.putPoint d P ko) :=
  ⟨_, h, rfl⟩

theorem writesPoint_of_finish {i : Instr} {d : PReg} {s t : State} {r : Except Cause State} (h : finish s r = .next t)
    (hdone : ∀ u, r = .ok u → WritesPoint i d s u) : t.pregs = s.pregs ∨ WritesPoint i d s t :=
  pregs_of_finish (motive := fun v => v = s.pregs ∨ ∃ q, PointWritten s i q ∧ v = s.pregs.set d.toNat (some q)) h
    (.inl rfl) fun u hu => .inr (hdone u hu)

/-- A command with the destination `PT[d]` leaves the point file as it is (where it faults), or writes `PT[d]`. -/
theorem exec_pregs_of_destPT_some {i : Instr} {s t : State} {d : PReg} (hi : destPT i = some d) (h : exec i s = .next t) :
    t.pregs = s.pregs ∨ WritesPoint i d s t := by
  cases i with
  | ldf | stf | fli | fmov | fadd | fsub | fneg | fmul | finv | fsqrt | pgetx | pgety | pchk | peq | pser | pfxe | pfxd =>
    cases hi
  | pinf =>
    cases hi
    cases h
    exact .inr (writesPoint_putPoint (.pinf d))
  | pldg =>
    cases hi
    cases h
    exact .inr (writesPoint_putPoint (.pldg d))
  | pmk =>
    cases hi
    exact writesPoint_of_finish h <| forall_ok_of_bind fun x hx => forall_ok_of_bind fun y hy =>
      forall_ok_of_bind fun P hP => forall_ok_of_ok <|
        writesPoint_putPoint (.pmk d (State.readF_eq_ok.mp hx) (State.readF_eq_ok.mp hy) hP)
  | pmov =>
    cases hi
    exact writesPoint_of_finish h <| forall_ok_of_bind fun q hq => forall_ok_of_ok <|
      writesPoint_putPoint (.pmov d (State.readPT_eq_ok.mp hq))
  | pneg =>
    cases hi
    exact writesPoint_of_finish h <| forall_ok_of_bind fun q hq => forall_ok_of_ok <|
      writesPoint_putPoint (.pneg d (State.readPT_eq_ok.mp hq))
  | pdbl =>
    cases hi
    exact writesPoint_of_finish h <| forall_ok_of_bind fun q hq => forall_ok_of_bind fun R hR => forall_ok_of_ok <|
      writesPoint_putPoint (.pdbl d (State.readPT_eq_ok.mp hq) hR)
  | padd =>
    cases hi
    exact writesPoint_of_finish h <| forall_ok_of_bind fun q₁ hq₁ => forall_ok_of_bind fun q₂ hq₂ =>
      forall_ok_of_bind fun R hR => forall_ok_of_ok <|
        writesPoint_putPoint (.padd d (State.readPT_eq_ok.mp hq₁) (State.readPT_eq_ok.mp hq₂) hR)
  | psmul =>
    cases hi
    exact writesPoint_of_finish h <| forall_ok_of_bind fun q hq => forall_ok_of_bind fun k hk =>
      forall_ok_of_bind fun R hR => forall_ok_of_ok <|
        writesPoint_putPoint (.psmul d (State.readPT_eq_ok.mp hq) (State.readF_eq_ok.mp hk) hR)
  | pdes =>
    cases hi
    refine writesPoint_of_finish h fun u hu => ?_
    split at hu
    · exact forall_ok_of_bind (fun _ _ => forall_ok_of_bind fun P hP => forall_ok_of_ok <|
        writesPoint_putPoint (.pdes d hP)) u hu
    · cases hu
  | recy =>
    cases hi
    exact writesPoint_of_finish h <| forall_ok_of_bind fun x hx => forall_ok_of_bind fun found hfound =>
      forall_ok_of_ok ⟨_, .recy d (State.readF_eq_ok.mp hx) hfound, rfl⟩

/-! ## The points a command writes are valid -/

theorem basePoint_valid : (basePoint Config.curve).Valid Config.curve := by
  refine ⟨?_, ?_, ?_⟩ <;> decide +kernel

/-- What `recover_y` finds is a field element and a field element over it on the curve (R161). -/
theorem recoverY_valid {x : Nat} {wantOdd : Bool} {found : Nat × Nat × Nat}
    (h : recoverY Config.curve x wantOdd = .ok found) :
    (Point.affine (toNum found.1) (toNum found.2.1)).Valid Config.curve := by
  have := curve_fact_prime
  rcases recoverSearch_cases curve_mod_four x wantOdd Config.maxOff 0 with ⟨k, y, -, -, -, hx, hy, hon, heq⟩ | ⟨-, heq⟩
  · cases heq.symm.trans h
    exact (Point.valid_of_equation curve_wf hx (chooseParity_lt curve_p_pos hy wantOdd)
      ((onCurve_iff_equation _ _).mp (onCurve_chooseParity curve_p_pos wantOdd hon))).1
  · cases heq.symm.trans h

/-- `deserialize` builds every point by `make_point`, which validates it (R132, R164). -/
theorem deserialize_valid {c : Curve} {s : State} {off : Nat} {P : Point} (h : s.deserialize c off = .ok P) :
    P.Valid c := by
  have of_makePoint {x y : Num256} (hP : makePoint c x y = .ok P) : P.Valid c := by
    obtain ⟨rfl, hv⟩ := makePoint_eq_ok.mp hP
    exact hv
  simp only [State.deserialize] at h
  split at h
  · exact of_makePoint h
  · split at h
    · obtain ⟨_, -, hP⟩ := except_bind_eq_ok.mp h
      exact of_makePoint hP
    · cases h

/-- From valid points a command writes a valid point: it validates what it builds, and the group operations are closed
(R24). -/
theorem PointWritten.valid {s : State} {i : Instr} {q : PtReg} (hs : s.PointFileValid) (h : PointWritten s i q) :
    q.val.Valid Config.curve := by
  have := curve_fact_prime
  cases h with
  | pinf => trivial
  | pldg => exact basePoint_valid
  | pmk _ _ _ hP =>
    obtain ⟨rfl, hv⟩ := makePoint_eq_ok.mp hP
    exact hv
  | pmov _ hq => exact hs _ _ hq
  | pneg _ hq => exact (ptNeg_toW curve_wf (hs _ _ hq)).1
  | pdbl _ hq hR =>
    have hv := hs _ _ hq
    obtain ⟨R', hR', hvalid, -⟩ := ptDouble_toW curve_wf hv fun x hx => curve_noVerticalTangent x (hx ▸ hv)
    cases hR'.symm.trans hR
    exact hvalid
  | padd _ hq₁ hq₂ hR =>
    obtain ⟨R', hR', hvalid, -⟩ := ptAdd_toW curve_wf (hs _ _ hq₁) (hs _ _ hq₂)
    cases hR'.symm.trans hR
    exact hvalid
  | psmul _ hq _ hR =>
    obtain ⟨R', hR', hvalid, -⟩ := ptSmul_toW curve_wf curve_noVerticalTangent (hs _ _ hq) _ _
    cases hR'.symm.trans hR
    exact hvalid
  | pdes _ hP => exact deserialize_valid hP
  | recy _ _ hfound => exact recoverY_valid hfound

/-! ## What the invariant of the point file needs of a state -/

theorem State.getPT_of_pregs_eq {s t : State} (h : t.pregs = s.pregs) (i : PReg) : t.getPT i = s.getPT i := by
  simp only [State.getPT, h]

/-- The invariant is about the point registers alone. -/
theorem State.PointFileValid.of_pregs_eq {s t : State} (hs : s.PointFileValid) (h : t.pregs = s.pregs) :
    t.PointFileValid := by
  intro i q hq
  exact hs i q (State.getPT_of_pregs_eq h i ▸ hq)

theorem State.PointFileValid.setPT {s : State} (hs : s.PointFileValid) {d : PReg} {q : PtReg}
    (hq : q.val.Valid Config.curve) : (s.setPT d q).PointFileValid := by
  intro i r hr
  rw [State.getPT_setPT] at hr
  split at hr
  · cases hr
    exact hq
  · exact hs i r hr

theorem State.pointFileValid_reset : State.reset.PointFileValid := by
  intro i q hq
  simp at hq

theorem State.pointFileValid_resetEngine (s : State) : s.resetEngine.PointFileValid :=
  State.pointFileValid_reset.of_pregs_eq rfl

/-! ## Every turn keeps the invariant -/

theorem exec_keeps_pointFileValid {i : Instr} {s t : State} (hs : s.PointFileValid) (h : exec i s = .next t) :
    t.PointFileValid := by
  cases hi : destPT i with
  | none => exact hs.of_pregs_eq (exec_pregs_of_destPT_none hi h)
  | some d =>
    rcases exec_pregs_of_destPT_some hi h with heq | ⟨q, hq, heq⟩
    · exact hs.of_pregs_eq heq
    · exact (hs.setPT (hq.valid hs)).of_pregs_eq heq

/-- What the engine's turn can be: nothing on an idle machine, the command in `CMDREG`, or the fault of a word that spells
none (R181, R185). -/
theorem engineTurn_cases (s : State) :
    (s.busy = false ∧ engineTurn s = .next s) ∨
      (s.busy = true ∧ ∃ i, decode s.cmdreg = .ok i ∧ engineTurn s = exec i s) ∨
      (s.busy = true ∧ ∃ e, decode s.cmdreg = .error e ∧ engineTurn s = .next (s.raise .illegalCommand)) := by
  cases hb : s.busy with
  | false => exact .inl ⟨rfl, by simp [engineTurn, hb]⟩
  | true =>
    cases hd : decode s.cmdreg with
    | ok i => exact .inr (.inl ⟨rfl, i, rfl, by simp [engineTurn, hb, State.fetch, hd]⟩)
    | error e => exact .inr (.inr ⟨rfl, e, rfl, by simp [engineTurn, hb, State.fetch, hd, execIllegal]⟩)

theorem engineTurn_keeps_pointFileValid {s t : State} (hs : s.PointFileValid) (h : engineTurn s = .next t) :
    t.PointFileValid := by
  rcases engineTurn_cases s with ⟨-, e⟩ | ⟨-, i, -, e⟩ | ⟨-, _, -, e⟩ <;> rw [e] at h
  · cases h
    exact hs
  · exact exec_keeps_pointFileValid hs h
  · cases h
    exact hs.of_pregs_eq rfl

theorem readReg_pregs (s : State) (r : WindowReg) : (s.readReg r).pregs = s.pregs := by
  cases r with
  | buf m =>
    simp only [State.readReg]
    split <;> rfl
  | _ => rfl

theorem writeReg_pregs (s : State) (data : Word) (r : WindowReg) :
    (s.writeReg data r).pregs = s.pregs ∨ s.writeReg data r = s.resetEngine := by
  cases r with
  | cmd =>
    simp only [State.writeReg]
    split <;> exact .inl rfl
  | buf m =>
    simp only [State.writeReg]
    split <;> exact .inl rfl
  | ctrl =>
    cases h : data.getLsbD 2 with
    | true => exact .inr (writeCtrl_of_srst h s)
    | false => exact .inl (by rw [State.writeReg, writeCtrl_of_not_srst h])
  | _ => exact .inl rfl

/-- A host access leaves the point file as it is, or resets the engine. -/
theorem hostTurn_pregs {access : Access} {s t : State} (h : hostTurn access s = .next t) :
    t.pregs = s.pregs ∨ t = s.resetEngine := by
  rcases hostTurn_cases access s with e | ⟨_, _, -, -, -, e⟩ | ⟨o, -, -, -, e⟩ | ⟨_, _, _, -, -, -, e⟩ |
    ⟨o, d, -, -, -, e⟩ <;> rw [e] at h <;> cases h
  · exact .inl rfl
  · exact .inl (readReg_pregs s _)
  · exact .inl rfl
  · exact writeReg_pregs s d _

theorem hostTurn_keeps_pointFileValid {access : Access} {s t : State} (hs : s.PointFileValid)
    (h : hostTurn access s = .next t) : t.PointFileValid := by
  rcases hostTurn_pregs h with heq | rfl
  · exact hs.of_pregs_eq heq
  · exact s.pointFileValid_resetEngine

theorem step_keeps_pointFileValid {s t : State} (hs : s.PointFileValid) (h : step s = .next t) : t.PointFileValid := by
  have hrest (rest : List Turn) : ({ s with turns := rest } : State).PointFileValid := hs.of_pregs_eq rfl
  unfold step at h
  split at h
  · exact engineTurn_keeps_pointFileValid hs h
  · exact hostTurn_keeps_pointFileValid (hrest _) h
  · exact engineTurn_keeps_pointFileValid (hrest _) h
  · cases h
    exact State.pointFileValid_resetEngine _

/-- Settles O4: the invariant holds at reset, and each of the four shapes of a step keeps it. -/
theorem stepKeepsPointFileValid : Obligations.StepKeepsPointFileValid :=
  ⟨State.pointFileValid_reset, fun _ _ => step_keeps_pointFileValid⟩

end Sys2Proof.Machine
end

section
/-! The accesses to the window one by one: refused ones (20_memory.md R52, R56), harmless ones (R53), the words of `CP`
(R54), the words of `BUF` (R55), and a number placed in `BUF` (R60). -/

namespace Sys2Proof.Machine

/-! ## Unsupported accesses -/

theorem unsupported_iff {width : Width} {offset : Nat} :
    unsupported width offset = true ↔ width ≠ .w32 ∨ offset % 4 ≠ 0 := by
  simp [unsupported]

theorem hostTurn_read_unsupported (s : State) {width : Width} {offset : Nat} (hlt : offset < 0x1000)
    (h : unsupported width offset = true) : hostTurn (.read width offset) s = .next (s.setHerr.reply 0) := by
  have hin : ¬windowSize ≤ offset := Nat.not_le.mpr hlt
  simp only [hostTurn, if_neg hin, if_pos h]

theorem hostTurn_write_unsupported (s : State) {width : Width} {offset : Nat} (data : Word) (hlt : offset < 0x1000)
    (h : unsupported width offset = true) : hostTurn (.write width offset data) s = .next s.setHerr := by
  have hin : ¬windowSize ≤ offset := Nat.not_le.mpr hlt
  simp only [hostTurn, if_neg hin, if_pos h]

/-- Settles O25: a read and a write, each refused. -/
theorem unsupportedAccessRefused : Obligations.UnsupportedAccessRefused := by
  intro s width offset hlt h
  have hu := unsupported_iff.mpr h
  exact ⟨hostTurn_read_unsupported s hlt hu, fun data => hostTurn_write_unsupported s data hlt hu⟩

/-! ## `CMD` -/

/-- The word at `0x008` is `CMD` (R50). -/
theorem hostTurn_write_cmd (s : State) (w : Word) :
    hostTurn (.write .w32 0x008 w) s = .next (if s.busy || s.fault then s.setHerr else s.accept w) := by
  rw [hostTurn_write_w32 s w (by decide) (by decide), windowReg_eq_cmd.mpr rfl, State.writeReg]

/-- Settles O23, by the two outcomes of a `CMD` write. -/
theorem cmdWrite : Obligations.CmdWrite := by
  intro s w
  rw [hostTurn_write_cmd]
  refine ⟨fun h => ?_, fun h => ?_⟩
  · obtain ⟨hbusy, hfault⟩ := h
    rw [if_neg (by simp [hbusy, hfault])]
    rfl
  · rw [if_pos (by simpa using h)]
    rfl

/-! ## Harmless accesses -/

/-- A supported read is without side effect where the register there only replies. -/
theorem windowReads_of_readReg {s : State} {offset : Nat} {w : Word} (hlt : offset < 0x1000) (hal : offset % 4 = 0)
    (h : s.readReg (windowReg offset) = s.reply w) : s.WindowReads offset w := by
  rw [State.WindowReads, hostTurn_read_w32 s hlt hal, h, State.reply]

/-- The registers at which a write acts; every other write is ignored (R53). -/
theorem writeReg_eq_self (s : State) (data : Word) {r : WindowReg} (hcmd : r ≠ .cmd) (hctrl : r ≠ .ctrl)
    (hbuf : ∀ m, r ≠ .buf m) : s.writeReg data r = s := by
  cases r with
  | cmd => exact absurd rfl hcmd
  | ctrl => exact absurd rfl hctrl
  | buf m => exact absurd rfl (hbuf m)
  | id | status | fcause | finfo | cfg | cp | reserved => rfl

theorem ignoresWrite_of_windowReg (s : State) {offset : Nat} {r : WindowReg} (hr : windowReg offset = r)
    (hlt : offset < 0x1000) (hal : offset % 4 = 0) (hcmd : r ≠ .cmd) (hctrl : r ≠ .ctrl) (hbuf : ∀ m, r ≠ .buf m) :
    s.IgnoresWrite offset := by
  intro data
  rw [hostTurn_write_w32 s data hlt hal, hr, writeReg_eq_self s data hcmd hctrl hbuf]

theorem windowReads_reserved (s : State) {offset : Nat} (hal : offset % 4 = 0)
    (h : (0x01C ≤ offset ∧ offset ≤ 0x03C) ∨ (0x180 ≤ offset ∧ offset ≤ 0xFFC)) : s.WindowReads offset 0x00000000 :=
  windowReads_of_readReg (by omega) hal (by rw [windowReg_reserved h, State.readReg])

theorem ignoresWrite_reserved (s : State) {offset : Nat} (hal : offset % 4 = 0)
    (h : (0x01C ≤ offset ∧ offset ≤ 0x03C) ∨ (0x180 ≤ offset ∧ offset ≤ 0xFFC)) : s.IgnoresWrite offset :=
  ignoresWrite_of_windowReg s (windowReg_reserved h) (by omega) hal nofun nofun nofun

theorem ignoresWrite_cp (s : State) {k : Nat} (hk : k < 48) : s.IgnoresWrite (0x040 + 4 * k) :=
  ignoresWrite_of_windowReg s (windowReg_cp hk) (by omega) (by omega) nofun nofun nofun

theorem windowReads_cmd (s : State) : s.WindowReads 0x008 0x00000000 :=
  windowReads_of_readReg (by decide) (by decide) (by rw [windowReg_eq_cmd.mpr rfl, State.readReg])

theorem windowReads_ctrl (s : State) : s.WindowReads 0x00C 0x00000000 :=
  windowReads_of_readReg (by decide) (by decide) (by rw [windowReg_eq_ctrl.mpr rfl, State.readReg])

/-- Settles O26: the reserved offsets, the read-only registers, and the two write-only ones. -/
theorem harmlessAccesses : Obligations.HarmlessAccesses := by
  intro s
  refine ⟨fun _ hal h => ⟨windowReads_reserved s hal h, ignoresWrite_reserved s hal h⟩,
    ⟨?id, ?status, ?fcause, ?finfo, ?cfg⟩, fun _ => ignoresWrite_cp s, windowReads_cmd s, windowReads_ctrl s⟩
  all_goals exact ignoresWrite_of_windowReg s rfl (by decide) (by decide) nofun nofun nofun

/-! ## The words of `CP` -/

/-- Word `j` of constant `i` is a slice of the constant (R54). -/
theorem cpWord_eq_extractLsb' (c : Curve) (i : Nat) {j : Nat} (hj : j ≤ 7) :
    cpWord c (8 * i + j) = (BitVec.ofNat 256 ((cpConstants c).getD i 0)).extractLsb' (32 * j) 32 := by
  have hdiv : (8 * i + j) / 8 = i := by omega
  have hmod : (8 * i + j) % 8 = j := by omega
  rw [cpWord, hdiv, hmod]
  apply BitVec.eq_of_getLsbD_eq
  intro b hb
  have hin : 32 * j + b < 256 := by omega
  simp only [BitVec.getLsbD_ofNat, BitVec.getLsbD_extractLsb', Nat.testBit_shiftRight, hb, hin, decide_true,
    Bool.true_and]

theorem windowReads_cpConstant (s : State) {i j : Nat} (hi : i < 6) (hj : j ≤ 7) :
    s.WindowReads (0x040 + 0x20 * i + 4 * j)
      ((BitVec.ofNat 256 ((cpConstants Config.curve).getD i 0)).extractLsb' (32 * j) 32) := by
  have h := windowReads_cp s (k := 8 * i + j) (by omega)
  rwa [cpWord_eq_extractLsb' _ i hj, show 0x040 + 4 * (8 * i + j) = 0x040 + 0x20 * i + 4 * j by omega] at h

/-- Settles O27: the six constants in the order of their places. -/
theorem cpWords : Obligations.CpWords := fun s _ hj =>
  ⟨windowReads_cpConstant s (i := 0) (by decide) hj, windowReads_cpConstant s (i := 1) (by decide) hj,
    windowReads_cpConstant s (i := 2) (by decide) hj, windowReads_cpConstant s (i := 3) (by decide) hj,
    windowReads_cpConstant s (i := 4) (by decide) hj, windowReads_cpConstant s (i := 5) (by decide) hj⟩

/-! ## The words of `BUF` -/

section
variable {m : Nat} (hm : m ≤ 31) {s : State}
include hm

theorem hostTurn_read_buf_idle (hidle : s.busy = false) :
    hostTurn (.read .w32 (0x100 + 4 * m)) s = .next (s.reply (s.bufWord m)) := by
  rw [hostTurn_read_w32 s (by omega) (by omega), windowReg_buf hm, State.readReg, if_neg (by simp [hidle])]

theorem hostTurn_read_buf_busy (hbusy : s.busy = true) :
    hostTurn (.read .w32 (0x100 + 4 * m)) s = .next (s.setHerr.reply 0) := by
  rw [hostTurn_read_w32 s (by omega) (by omega), windowReg_buf hm, State.readReg, if_pos hbusy]

theorem hostTurn_write_buf_idle (hidle : s.busy = false) (data : Word) :
    hostTurn (.write .w32 (0x100 + 4 * m) data) s = .next (s.memWrite (4 * m) (laneBytes data)) := by
  rw [hostTurn_write_w32 s data (by omega) (by omega), windowReg_buf hm, State.writeReg, if_neg (by simp [hidle])]

theorem hostTurn_write_buf_busy (hbusy : s.busy = true) (data : Word) :
    hostTurn (.write .w32 (0x100 + 4 * m) data) s = .next s.setHerr := by
  rw [hostTurn_write_w32 s data (by omega) (by omega), windowReg_buf hm, State.writeReg, if_pos hbusy]

end

theorem getElem_laneBytes (w : Word) (j : Nat) (h : j < (laneBytes w).length) :
    (laneBytes w)[j] = w.extractLsb' (8 * j) 8 := by
  match j, h with
  | 0, _ | 1, _ | 2, _ | 3, _ => rfl

/-- A word written at its place in `BUF` is read back lane by lane, and no byte outside it changes (R55). -/
theorem Memory.read_writeBytes_laneBytes (b : Memory) (m : Nat) (w : Word) (a : Nat) :
    (b.writeBytes (4 * m) (laneBytes w)).read a =
      if a / 4 = m then w.extractLsb' (8 * (a % 4)) 8 else b.read a := by
  have hlen : (laneBytes w).length = 4 := rfl
  rw [Memory.read_writeBytes]
  by_cases ha : a / 4 = m
  · rw [dif_pos (by omega), if_pos ha, getElem_laneBytes, show a - 4 * m = a % 4 by omega]
  · rw [dif_neg (by omega), if_neg ha]

theorem State.readBuf_memWrite_laneBytes (s : State) (m : Nat) (w : Word) (a : Nat) :
    (s.memWrite (4 * m) (laneBytes w)).readBuf a =
      if a / 4 = m then w.extractLsb' (8 * (a % 4)) 8 else s.readBuf a :=
  s.buf.read_writeBytes_laneBytes m w a

/-- Settles O28: a read and a write of an idle machine, and both on a busy one. -/
theorem bufThroughWindow : Obligations.BufThroughWindow := by
  intro s m hm
  refine ⟨fun hidle => ⟨⟨_, hostTurn_read_buf_idle hm hidle, fun j hj => lane_bufWord s m hj⟩, fun data => ?_⟩,
    fun hbusy => ⟨hostTurn_read_buf_busy hm hbusy, hostTurn_write_buf_busy hm hbusy⟩⟩
  refine ⟨_, hostTurn_write_buf_idle hm hidle data, rfl, fun j hj => ?_, fun a ha => ?_⟩
  · rw [State.readBuf_memWrite_laneBytes, if_pos (by omega), show (4 * m + j) % 4 = j by omega]
  · rw [State.readBuf_memWrite_laneBytes, if_neg (by omega)]

/-! ## A number through the window -/

/-- The buffer after the words `f m` have been written at their places, for the `m` of the list. -/
def Memory.writeWords (b : Memory) (f : Nat → Word) (ms : List Nat) : Memory :=
  ms.foldl (fun b m => b.writeBytes (4 * m) (laneBytes (f m))) b

theorem Memory.read_writeWords (b : Memory) (f : Nat → Word) (ms : List Nat) (a : Nat) :
    (b.writeWords f ms).read a =
      if a / 4 ∈ ms then (f (a / 4)).extractLsb' (8 * (a % 4)) 8 else b.read a := by
  induction ms generalizing b with
  | nil => simp [Memory.writeWords]
  | cons m ms ih =>
    have hrest : b.writeWords f (m :: ms) = (b.writeBytes (4 * m) (laneBytes (f m))).writeWords f ms := rfl
    rw [hrest, ih, Memory.read_writeBytes_laneBytes]
    by_cases hin : a / 4 ∈ ms
    · simp [hin]
    · by_cases hm : a / 4 = m
      · simp [hm]
      · simp [hin, hm]

theorem runTurns_cons_host {access : Access} {s t : State} (ts : List Turn)
    (h : hostTurn access { s with turns := ts } = .next { t with turns := ts }) :
    runTurns (.host access :: ts) s = runTurns ts t :=
  runSteps_succ_of_next _ h

/-- The turns of a host that writes the words `f m` to `BUF`. -/
def bufWriteTurns (f : Nat → Word) (ms : List Nat) : List Turn :=
  ms.map fun m => .host (.write .w32 (0x100 + 4 * m) (f m))

/-- On an idle machine writes of words of `BUF` change the buffer and nothing else. -/
theorem runTurns_bufWriteTurns (f : Nat → Word) {ms : List Nat} (hms : ∀ m ∈ ms, m ≤ 31) {s : State}
    (hidle : s.busy = false) :
    runTurns (bufWriteTurns f ms) s = .next { s with buf := s.buf.writeWords f ms, turns := [] } := by
  induction ms generalizing s with
  | nil => rfl
  | cons m ms ih =>
    obtain ⟨hm, hms⟩ := List.forall_mem_cons.mp hms
    have hwrite := hostTurn_write_buf_idle hm (s := { s with turns := bufWriteTurns f ms }) hidle (f m)
    exact (runTurns_cons_host (t := s.memWrite (4 * m) (laneBytes (f m))) _ hwrite).trans (ih hms hidle)

/-- Where `BUF[0..31]` holds a number, most significant byte first, the words of R60 are the ones the window shows. -/
theorem swappedGroup_eq_bufWord {s : State} {v : Num256}
    (hs : ∀ k, k < 32 → s.readBuf k = v.extractLsb' (248 - 8 * k) 8) {m : Nat} (hm : m < 8) :
    swappedGroup v m = s.bufWord m := by
  rw [State.bufWord, hs _ (by omega), hs _ (by omega), hs _ (by omega), hs _ (by omega), swappedGroup,
    show 248 - 8 * (4 * m + 3) = 224 - 32 * m by omega, show 248 - 8 * (4 * m + 2) = 232 - 32 * m by omega,
    show 248 - 8 * (4 * m + 1) = 240 - 32 * m by omega, show 248 - 8 * (4 * m) = 248 - 32 * m by omega]

theorem readBuf_memWrite_bytesBE32 (s : State) (v : Num256) {k : Nat} (hk : k < 32) :
    (s.memWrite 0 (bytesBE32 v)).readBuf k = v.extractLsb' (248 - 8 * k) 8 := by
  have hlen := length_bytesBE32 v
  rw [State.readBuf, State.memWrite_buf, Memory.read_writeBytes, dif_pos (by omega), getElem_bytesBE32, Nat.sub_zero]

/-- The byte swap of R60 puts byte `k` of the number, counted from the most significant, into lane `k % 4` of word
`k / 4`. -/
theorem lane_swappedGroup (v : Num256) {k : Nat} (hk : k < 32) :
    (swappedGroup v (k / 4)).extractLsb' (8 * (k % 4)) 8 = v.extractLsb' (248 - 8 * k) 8 := by
  have hbytes (i : Nat) (hi : i < 32) := readBuf_memWrite_bytesBE32 State.reset v hi
  rw [swappedGroup_eq_bufWord hbytes (by omega), lane_bufWord _ _ (by omega), Nat.div_add_mod, hbytes k hk]

/-- Settles O30: byte `k` of `BUF` is byte `k` of the number, from the most significant one (R59). -/
theorem numberThroughWindow : Obligations.NumberThroughWindow := by
  intro s v hidle
  have hread := Memory.read_writeWords s.buf (swappedGroup v) (List.range 8)
  refine ⟨_, runTurns_bufWriteTurns (swappedGroup v) (fun m hm => ?_) hidle, ?_, fun a ha => ?_, rfl⟩
  · have := List.mem_range.mp hm
    omega
  · refine be_memRead_of_bytes fun k hk => ?_
    rw [Nat.zero_add, State.readBuf, hread, if_pos (List.mem_range.mpr (by omega)), lane_swappedGroup v hk]
  · rw [State.readBuf, hread, if_neg (by rw [List.mem_range]; omega), State.readBuf]

end Sys2Proof.Machine
end

section
/-! The printed masks of the opcode map (30_encoding.md R86) against the rule that builds them (R87). -/

namespace Sys2Proof

/-- A row's opcode is listed, and its columns build the mask that the row prints: the 27 rows one by one, as R87 intends
("so the table can be checked"). -/
theorem Row.map_mask_shapeOf_op : ∀ r ∈ opcodeTable, (shapeOf r.op).map Shape.mask = some r.mask := by
  simp only [opcodeTable, List.forall_mem_cons]
  decide

/-- Settles O9: the columns are those that `shapeOf` lists for the row's opcode. -/
theorem masksBuiltFromColumns : Obligations.MasksBuiltFromColumns := by
  intro r hr
  obtain ⟨sh, hshape, hmask⟩ := Option.map_eq_some_iff.mp (Row.map_mask_shapeOf_op r hr)
  exact ⟨sh, hshape, hmask.symm⟩

end Sys2Proof
end

section
/-! The faults of a command: a word that spells none (60_exceptions.md R181), Empty sources before anything else (R182),
the ranges of buffer operands (R183), and fault entry (R186). -/

namespace Sys2Proof.Machine

/-! ## A word that spells no command -/

/-- Settles O13: of what the engine's turn can be, an undecodable word on a busy machine leaves the fault alone. -/
theorem illegalWordRaises : Obligations.IllegalWordRaises := by
  intro s e hbusy hdecode
  rcases engineTurn_cases s with ⟨hidle, -⟩ | ⟨-, i, hi, -⟩ | ⟨-, _, -, hturn⟩
  · cases hbusy.symm.trans hidle
  · cases hdecode.symm.trans hi
  · exact hturn

/-! ## The two phases of a command

A command reads its source registers, and then works on what they hold. Only the first phase raises `EmptyOperand`, so
that an Empty source is found before any other fault. -/

/-- `x` raises neither `EmptyOperand`, which belongs to the reading of sources, nor `DomainMismatch`, which no command
raises (R149). -/
def RaisesInWork {α : Type} (x : Except Cause α) : Prop :=
  ∀ c, x = .error c → c ≠ .emptyOperand ∧ c ≠ .domainMismatch

theorem raisesInWork_of_group {α : Type} {x : Except Cause α}
    (h : ∀ c, x = .error c → c = .verticalTangent ∨ c = .notInvertible) : RaisesInWork x := by
  intro c hc
  rcases h c hc with rfl | rfl <;> decide

theorem raisesInWork_checkRange (off n : Nat) : RaisesInWork (checkRange off n) := by
  intro c h
  obtain ⟨-, rfl⟩ := checkRange_eq_error.mp h
  decide

theorem raisesInWork_coords (P : Point) : RaisesInWork P.coords := by
  intro c h
  obtain ⟨-, rfl⟩ := Point.coords_eq_error.mp h
  decide

theorem raisesInWork_makePoint (x y : Num256) : RaisesInWork (makePoint Config.curve x y) := by
  intro c h
  obtain ⟨rfl, -⟩ := makePoint_eq_error.mp h
  decide

theorem raisesInWork_recoverY (x : Nat) (wantOdd : Bool) : RaisesInWork (recoverY Config.curve x wantOdd) := by
  intro c h
  obtain rfl := recoverSearch_cause _ h
  decide

theorem raisesInWork_deserialize (s : State) (off : Nat) : RaisesInWork (s.deserialize Config.curve off) := by
  intro c h
  rcases deserialize_cause h with rfl | rfl | rfl <;> decide

theorem raisesInWork_invMod (a : Int) : RaisesInWork (invMod a Config.curve.p) :=
  raisesInWork_of_group fun c h => .inr ((invMod_error_iff prime_modulus.two_le c).mp h).1

theorem raisesInWork_ptDouble (P : Point) : RaisesInWork (ptDouble Config.curve P) :=
  raisesInWork_of_group fun _ => ptDouble_cause prime_modulus.two_le

theorem raisesInWork_ptAdd (P Q : Point) : RaisesInWork (ptAdd Config.curve P Q) :=
  raisesInWork_of_group fun _ => ptAdd_cause prime_modulus.two_le

theorem raisesInWork_ptSmul (P : Point) (ko : Bool) (k : Nat) : RaisesInWork (ptSmul Config.curve P ko k) :=
  raisesInWork_of_group fun _ => ptSmul_cause prime_modulus.two_le

/-- `r` is the second phase of a command run in `s`: where it completes, `FAULT` is as it was. -/
structure Works (s : State) (r : Except Cause State) : Prop where
  raises : RaisesInWork r
  keepsFault : ∀ u, r = .ok u → u.fault = s.fault

theorem Works.done {s u : State} (h : u.fault = s.fault) : Works s (.ok u) where
  raises := nofun
  keepsFault := forall_ok_of_ok h

theorem Works.badPrefix (s : State) : Works s (.error .badPrefix) where
  raises := by
    rintro c ⟨⟩
    decide
  keepsFault := nofun

theorem Works.bind {α : Type} {s : State} {x : Except Cause α} {f : α → Except Cause State} (hx : RaisesInWork x)
    (hf : ∀ a, Works s (f a)) : Works s (x >>= f) where
  raises c h := by
    rcases except_bind_eq_error.mp h with h | ⟨a, -, h⟩
    · exact hx c h
    · exact (hf a).raises c h
  keepsFault := forall_ok_of_bind fun a _ => (hf a).keepsFault

/-- `r` reads the listed `F` registers and `PT` registers, the two lists mixed in some order, and then works. -/
inductive ReadsThenWorks (s : State) : List FReg → List PReg → Except Cause State → Prop
  | work {r : Except Cause State} (h : Works s r) : ReadsThenWorks s [] [] r
  | readF {a : FReg} {fs : List FReg} {ps : List PReg} {f : Num256 → Except Cause State}
      (h : ∀ v, ReadsThenWorks s fs ps (f v)) : ReadsThenWorks s (a :: fs) ps (s.readF a >>= f)
  | readPT {a : PReg} {fs : List FReg} {ps : List PReg} {f : PtReg → Except Cause State}
      (h : ∀ q, ReadsThenWorks s fs ps (f q)) : ReadsThenWorks s fs (a :: ps) (s.readPT a >>= f)

/-- Every command reads exactly its sources and then works. -/
theorem exec_readsThenWorks (i : Instr) (s : State) :
    ∃ r, exec i s = finish s r ∧ ReadsThenWorks s (sourcesF i) (sourcesPT i) r := by
  cases i with
  | fli | pinf | pldg | pfxd => exact ⟨_, rfl, .work (.done (by rfl))⟩
  | ldf => exact ⟨_, rfl, .work (.bind (raisesInWork_checkRange _ _) fun _ => .done rfl)⟩
  | stf => exact ⟨_, rfl, .readF fun _ => .work (.bind (raisesInWork_checkRange _ _) fun _ => .done rfl)⟩
  | fmov | fneg | fsqrt => exact ⟨_, rfl, .readF fun _ => .work (.done rfl)⟩
  | fadd | fsub | fmul | pchk => exact ⟨_, rfl, .readF fun _ => .readF fun _ => .work (.done rfl)⟩
  | finv => exact ⟨_, rfl, .readF fun _ => .work (.bind (raisesInWork_invMod _) fun _ => .done rfl)⟩
  | pmk =>
    exact ⟨_, rfl, .readF fun _ => .readF fun _ => .work (.bind (raisesInWork_makePoint _ _) fun _ => .done rfl)⟩
  | recy => exact ⟨_, rfl, .readF fun _ => .work (.bind (raisesInWork_recoverY _ _) fun _ => .done rfl)⟩
  | pmov | pneg => exact ⟨_, rfl, .readPT fun _ => .work (.done rfl)⟩
  | pgetx | pgety => exact ⟨_, rfl, .readPT fun _ => .work (.bind (raisesInWork_coords _) fun _ => .done rfl)⟩
  | peq => exact ⟨_, rfl, .readPT fun _ => .readPT fun _ => .work (.done rfl)⟩
  | pdbl => exact ⟨_, rfl, .readPT fun _ => .work (.bind (raisesInWork_ptDouble _) fun _ => .done rfl)⟩
  | padd =>
    exact ⟨_, rfl, .readPT fun _ => .readPT fun _ => .work (.bind (raisesInWork_ptAdd _ _) fun _ => .done rfl)⟩
  | psmul =>
    exact ⟨_, rfl, .readPT fun _ => .readF fun _ => .work (.bind (raisesInWork_ptSmul _ _ _) fun _ => .done rfl)⟩
  | pser =>
    exact ⟨_, rfl, .readPT fun _ => .work (.bind (raisesInWork_checkRange _ _) fun _ =>
      .bind (raisesInWork_coords _) fun _ => .done rfl)⟩
  | pdes =>
    refine ⟨_, rfl, .work ?_⟩
    split
    · exact .bind (raisesInWork_checkRange _ _) fun _ => .bind (raisesInWork_deserialize _ _) fun _ => .done rfl
    · exact .badPrefix s
  | pfxe =>
    refine ⟨_, rfl, .work ?_⟩
    split
    · exact .done rfl
    · exact .badPrefix s

/-! ## What the two phases give -/

/-- Some register of the two lists is Empty. -/
def State.AnyEmpty (s : State) (fs : List FReg) (ps : List PReg) : Prop :=
  (∃ r ∈ fs, s.getF r = none) ∨ ∃ r ∈ ps, s.getPT r = none

theorem State.hasEmptySource_iff_anyEmpty (s : State) (i : Instr) :
    s.HasEmptySource i ↔ s.AnyEmpty (sourcesF i) (sourcesPT i) :=
  Iff.rfl

theorem State.not_anyEmpty_nil (s : State) : ¬s.AnyEmpty [] [] := by
  simp [State.AnyEmpty]

theorem State.anyEmpty_cons_left {s : State} {a : FReg} {fs : List FReg} {ps : List PReg} :
    s.AnyEmpty (a :: fs) ps ↔ s.getF a = none ∨ s.AnyEmpty fs ps := by
  simp [State.AnyEmpty, or_assoc]

theorem State.anyEmpty_cons_right {s : State} {a : PReg} {fs : List FReg} {ps : List PReg} :
    s.AnyEmpty fs (a :: ps) ↔ s.getPT a = none ∨ s.AnyEmpty fs ps := by
  simp [State.AnyEmpty, or_left_comm]

/-- With an Empty register the reading raises `EmptyOperand`; without one, what is left is the work. -/
theorem ReadsThenWorks.cases {s : State} {fs : List FReg} {ps : List PReg} {r : Except Cause State}
    (h : ReadsThenWorks s fs ps r) :
    (s.AnyEmpty fs ps ∧ r = .error .emptyOperand) ∨ (¬s.AnyEmpty fs ps ∧ Works s r) := by
  induction h with
  | work hr => exact .inr ⟨s.not_anyEmpty_nil, hr⟩
  | @readF a _ _ f _ ih =>
    rw [State.anyEmpty_cons_left]
    cases ha : s.getF a with
    | none => simp [State.readF_of_none ha]
    | some v => simpa [State.readF_of_some ha] using ih v
  | @readPT a _ _ f _ ih =>
    rw [State.anyEmpty_cons_right]
    cases ha : s.getPT a with
    | none => simp [State.readPT_of_none ha]
    | some q => simpa [State.readPT_of_some ha] using ih q

/-- A command is one `finish` (R185): of `EmptyOperand` with an Empty source, of its second phase without one. -/
theorem exec_phases (i : Instr) (s : State) :
    ∃ r, exec i s = finish s r ∧
      ((s.HasEmptySource i ∧ r = .error .emptyOperand) ∨ (¬s.HasEmptySource i ∧ Works s r)) := by
  obtain ⟨r, hexec, hr⟩ := exec_readsThenWorks i s
  rw [State.hasEmptySource_iff_anyEmpty]
  exact ⟨r, hexec, hr.cases⟩

theorem exec_of_hasEmptySource {i : Instr} {s : State} (h : s.HasEmptySource i) :
    exec i s = .next (s.raise .emptyOperand) := by
  obtain ⟨r, hexec, ⟨-, rfl⟩ | ⟨hne, -⟩⟩ := exec_phases i s
  · exact hexec
  · exact absurd h hne

/-- With its sources there, a command completes and leaves `FAULT` as it was, or raises a cause of its work. -/
theorem exec_of_not_hasEmptySource {i : Instr} {s : State} (h : ¬s.HasEmptySource i) :
    (∃ u : State, u.fault = s.fault ∧ exec i s = .next u.endCommand) ∨
      ∃ c, (c ≠ .emptyOperand ∧ c ≠ .domainMismatch) ∧ exec i s = .next (s.raise c) := by
  obtain ⟨r, hexec, ⟨he, -⟩ | ⟨-, hworks⟩⟩ := exec_phases i s
  · exact absurd he h
  · rw [hexec]
    rcases finish_cases s r with ⟨u, hu, hend⟩ | ⟨c, hc, hend⟩
    · exact .inl ⟨u, hworks.keepsFault u hu, hend⟩
    · exact .inr ⟨c, hworks.raises c hc, hend⟩

/-- From `FAULT = 0`, a completed command that left `FAULT` as it was is told from fault entry. -/
theorem fault_ne_of_endCommand_eq_raise {s u : State} {c : Cause} (hs : s.fault = false)
    (h : u.endCommand = s.raise c) : u.fault ≠ s.fault := by
  have hu : u.fault = true := congrArg State.fault h
  rw [hu, hs]
  decide

/-- Settles O19: reading comes first, and the work raises no `EmptyOperand`. -/
theorem emptyOperandFirst : Obligations.EmptyOperandFirst := by
  refine fun i s => ⟨exec_of_hasEmptySource, fun hsources hs hraise => ?_⟩
  rcases exec_of_not_hasEmptySource hsources with ⟨u, hu, hexec⟩ | ⟨c, ⟨hc, -⟩, hexec⟩ <;>
    injection hexec.symm.trans hraise with h
  · exact fault_ne_of_endCommand_eq_raise hs h hu
  · exact hc (State.raise_inj h)

/-! ## Fault entry -/

/-- A command that shows a fault it did not find has entered it by fault entry. -/
theorem eq_raise_of_exec {i : Instr} {s t : State} (hs : s.fault = false) (h : exec i s = .next t)
    (ht : t.fault = true) : ∃ c, c ≠ .domainMismatch ∧ t = s.raise c := by
  by_cases hsources : s.HasEmptySource i
  · cases h.symm.trans (exec_of_hasEmptySource hsources)
    exact ⟨_, by decide, rfl⟩
  · rcases exec_of_not_hasEmptySource hsources with ⟨u, hu, hexec⟩ | ⟨c, ⟨-, hc⟩, hexec⟩ <;>
      cases h.symm.trans hexec
    · cases ht.symm.trans (hu.trans hs)
    · exact ⟨c, hc, rfl⟩

/-- Settles O16: a fault of the engine's turn is the command's, or `IllegalCommand`. -/
theorem faultEntryIsPrecise : Obligations.FaultEntryIsPrecise := by
  intro s t hbusy hs hturn ht
  rcases engineTurn_cases s with ⟨hidle, -⟩ | ⟨-, i, -, e⟩ | ⟨-, _, -, e⟩
  · cases hbusy.symm.trans hidle
  · exact eq_raise_of_exec hs (e ▸ hturn) ht
  · cases e.symm.trans hturn
    exact ⟨.illegalCommand, by decide, rfl⟩

/-! ## The ranges of buffer operands -/

/-- Where completion leaves `FAULT` as it was, the end of a command shows what its work raised. -/
theorem finish_eq_raise_iff {s : State} {r : Except Cause State} {c : Cause} (hs : s.fault = false)
    (hdone : ∀ u, r = .ok u → u.fault = s.fault) : finish s r = .next (s.raise c) ↔ r = .error c := by
  refine ⟨fun h => ?_, fun h => h ▸ rfl⟩
  rcases finish_cases s r with ⟨u, hu, hend⟩ | ⟨d, hd, hend⟩ <;> injection hend.symm.trans h with heq
  · exact absurd (hdone u hu) (fault_ne_of_endCommand_eq_raise hs heq)
  · rw [hd, State.raise_inj heq]

/-- Work that starts with the range test raises `BufRange` exactly where the range passes the end of `BUF`, if the rest
of it never does. -/
theorem finish_checkRange_iff {s : State} {off n : Nat} {f : Unit → Except Cause State} (hs : s.fault = false)
    (hf : f () ≠ .error .bufRange) (hdone : ∀ u, f () = .ok u → u.fault = s.fault) :
    finish s (checkRange off n >>= f) = .next (s.raise .bufRange) ↔ 128 < off + n := by
  rw [finish_eq_raise_iff hs (forall_ok_of_bind fun _ _ => hdone), except_bind_eq_error, checkRange_eq_error]
  simp [hf]

section
variable {s : State} (hs : s.fault = false) (off : Off)
include hs

theorem exec_ldf_bufRange_iff (d : FReg) :
    exec (.ldf d off) s = .next (s.raise .bufRange) ↔ 128 < off.toNat + 32 :=
  finish_checkRange_iff hs nofun (forall_ok_of_ok rfl)

theorem exec_stf_bufRange_iff {a : FReg} (ha : s.getF a ≠ none) :
    exec (.stf a off) s = .next (s.raise .bufRange) ↔ 128 < off.toNat + 32 := by
  obtain ⟨v, hv⟩ := Option.ne_none_iff_exists'.mp ha
  rw [exec, execStf, State.readF_of_some hv, except_ok_bind]
  exact finish_checkRange_iff hs nofun (forall_ok_of_ok rfl)

theorem exec_pser_bufRange_iff {a : PReg} (ha : s.getPT a ≠ none) (m : Bool) :
    exec (.pser a off m) s = .next (s.raise .bufRange) ↔ 128 < off.toNat + formLength m := by
  obtain ⟨q, hq⟩ := Option.ne_none_iff_exists'.mp ha
  rw [exec, execPser, State.readPT_of_some hq, except_ok_bind]
  refine finish_checkRange_iff hs (fun h => ?_) (forall_ok_of_bind fun _ _ => forall_ok_of_ok rfl)
  rcases except_bind_eq_error.mp h with h | ⟨_, -, h⟩
  · cases (Point.coords_eq_error.mp h).2
  · cases h

theorem exec_pdes_bufRange_iff (d : PReg) {b : Byte} (hb : s.readBuf off.toNat = b)
    (hprefix : (isCompressedPrefix b || b == uncompressedPrefix) = true) :
    exec (.pdes d off) s = .next (s.raise .bufRange) ↔ 128 < off.toNat + formLength (isCompressedPrefix b) := by
  rw [exec, execPdes, hb, if_pos hprefix]
  refine finish_checkRange_iff hs (fun h => ?_) (forall_ok_of_bind fun _ _ => forall_ok_of_ok rfl)
  rcases except_bind_eq_error.mp h with h | ⟨_, -, h⟩
  · rcases deserialize_cause h with h | h | h <;> cases h
  · cases h

theorem exec_pfxe_ne_bufRange : exec (.pfxe off) s ≠ .next (s.raise .bufRange) := by
  rw [exec, execPfxe]
  intro h
  split at h <;> injection h with h
  · exact fault_ne_of_endCommand_eq_raise hs h rfl
  · cases State.raise_inj h

theorem exec_pfxd_ne_bufRange : exec (.pfxd off) s ≠ .next (s.raise .bufRange) := by
  intro h
  injection h with h
  exact fault_ne_of_endCommand_eq_raise hs h rfl

end

/-- Settles O20: the range test with the 32 bytes of a number, and the 33 or 65 bytes of a point form. -/
theorem bufRangeLimits : Obligations.BufRangeLimits := by
  have limit32 (n : Nat) : 128 < n + 32 ↔ 96 < n := by omega
  have limitCompressed (n : Nat) : 128 < n + formLength true ↔ 95 < n := by
    rw [formLength, if_pos rfl]
    omega
  have limitUncompressed (n : Nat) : 128 < n + formLength false ↔ 63 < n := by
    rw [formLength, if_neg Bool.false_ne_true]
    omega
  intro s off hs
  refine ⟨fun d => ?_, fun a ha => ?_, fun a ha => ?_, fun a ha => ?_, fun hb d => ?_, fun hb d => ?_,
    exec_pfxe_ne_bufRange hs off, exec_pfxd_ne_bufRange hs off⟩
  · exact (exec_ldf_bufRange_iff hs off d).trans (limit32 _)
  · exact (exec_stf_bufRange_iff hs off ha).trans (limit32 _)
  · exact (exec_pser_bufRange_iff hs off ha true).trans (limitCompressed _)
  · exact (exec_pser_bufRange_iff hs off ha false).trans (limitUncompressed _)
  · rcases hb with hb | hb <;> exact (exec_pdes_bufRange_iff hs off d hb rfl).trans (limitCompressed _)
  · exact (exec_pdes_bufRange_iff hs off d hb rfl).trans (limitUncompressed _)

end Sys2Proof.Machine
end

section
/-! Decoding against encoding (30_encoding.md R81 to R88): a word matches a row under its mask exactly when its fields are
those the row's columns require, and a row's command is encoded with the fields it was built from. -/

namespace Sys2Proof

/-! ## A mask is a test of the fields -/

theorem bitVec_eq_zero_iff_getLsbD {w : Nat} (v : BitVec w) : v = 0#w ↔ ∀ i, i < w → v.getLsbD i = false :=
  ⟨fun h i _ => by simp [h], fun h => BitVec.eq_of_getLsbD_eq fun i hi => by simp [h i hi]⟩

/-- The bits of a field that R87 puts into a mask are those that R82 requires to be 0. -/
theorem RegUse.and_maskField_eq_zero_iff (u : RegUse) (field : BitVec 4) :
    field &&& u.maskField = 0 ↔ u.ok field = true := by
  cases u <;> revert field <;> decide

/-- The same for the immediate field and R81, where the test of format B is read bit by bit. -/
theorem ImmUse.and_maskField_eq_zero_iff (u : ImmUse) (field : BitVec 12) :
    field &&& u.maskField = 0 ↔ u.ok field = true := by
  cases u with
  | zero =>
    rw [ImmUse.ok, beq_iff_eq]
    exact iff_of_eq (congrArg (· = 0) BitVec.and_allOnes)
  | imm12 => simp [ImmUse.maskField, ImmUse.ok]
  | buf off m =>
    simp only [ImmUse.ok, ImmUse.maskField, Bool.and_eq_true, Bool.or_eq_true, beq_iff_eq, Bool.not_eq_true',
      BitVec.ofNat_eq_ofNat, bitVec_eq_zero_iff_getLsbD, BitVec.getLsbD_and, BitVec.getLsbD_extractLsb',
      Nat.forall_lt_succ_left]
    cases off <;> cases m <;> simp <;> tauto

/-- R87: the fields follow a shape exactly when the word matches its opcode under the shape's mask. -/
theorem Shape.match_iff_ok (sh : Shape) (f : Fields) :
    f.toWord &&& sh.mask = Fields.toWord ⟨f.op, 0, 0, 0, 0⟩ ↔ sh.ok f = true := by
  have hmask : sh.mask =
      Fields.toWord ⟨0xFF, sh.rd.maskField, sh.ra.maskField, sh.rb.maskField, sh.imm.maskField⟩ := rfl
  have hop : f.op &&& 0xFF = f.op := BitVec.and_allOnes
  simp only [hmask, Fields.and_toWord_eq_iff, hop, true_and, RegUse.and_maskField_eq_zero_iff,
    ImmUse.and_maskField_eq_zero_iff, Shape.ok, Bool.and_eq_true, and_assoc]

theorem Row.match_iff_ok {r : Row} (hr : r ∈ opcodeTable) {sh : Shape} (hsh : shapeOf r.op = some sh) {w : Word}
    (hop : (Fields.ofWord w).op = r.op) : w &&& r.mask = r.matchWord ↔ sh.ok (Fields.ofWord w) = true := by
  have hmask : sh.mask = r.mask := by simpa [hsh] using Row.map_mask_shapeOf_op r hr
  rw [← Shape.match_iff_ok, Fields.toWord_ofWord, hop, hmask, Row.matchWord_eq]

/-! ## The outcomes of decoding -/

/-- The opcode map and the table of its columns list the same opcodes. -/
theorem isSome_rowOf : ∀ op, (rowOf op).isSome = (shapeOf op).isSome := by
  decide +kernel

theorem rowOf_eq_none_iff (op : BitVec 8) : rowOf op = none ↔ shapeOf op = none := by
  rw [← Option.isNone_iff_eq_none, ← Option.isNone_iff_eq_none, ← Option.not_isSome, ← Option.not_isSome, isSome_rowOf]

/-- What decoding can answer: the opcode is not listed, or it has a row and a shape, and the word is accepted exactly when
its fields follow the shape. -/
theorem decode_cases (w : Word) :
    (shapeOf (Fields.ofWord w).op = none ∧ decode w = .error .unassignedOpcode) ∨
      ∃ sh, shapeOf (Fields.ofWord w).op = some sh ∧ ∃ r ∈ opcodeTable, r.op = (Fields.ofWord w).op ∧
        decode w = if sh.ok (Fields.ofWord w) then .ok (r.build (Fields.ofWord w)) else .error .nonzeroReserved := by
  cases hrow : rowOf (Fields.ofWord w).op with
  | none => exact .inl ⟨(rowOf_eq_none_iff _).mp hrow, by simp only [decode, hrow]⟩
  | some r =>
    obtain ⟨hr, hop⟩ := rowOf_eq_some hrow
    obtain ⟨sh, hsh⟩ := Option.isSome_iff_exists.mp (isSome_rowOf _ ▸ Option.isSome_of_eq_some hrow)
    refine .inr ⟨sh, hsh, r, hr, hop, ?_⟩
    simp only [decode, hrow, Row.match_iff_ok hr (hop ▸ hsh) hop.symm]

/-- Settles O10, by the three outcomes of decoding. -/
theorem decodeIffFieldsWellFormed : Obligations.DecodeIffFieldsWellFormed := by
  intro w
  have hop : w.extractLsb' 24 8 = (Fields.ofWord w).op := rfl
  rw [hop, Fields.wf]
  rcases decode_cases w with ⟨hsh, hd⟩ | ⟨sh, hsh, r, -, -, hd⟩
  · simp [hsh, hd]
  · cases hok : sh.ok (Fields.ofWord w) <;> simp [hsh, hd, hok]

/-- A row that a word matches under its mask is the one that decodes it. -/
theorem decode_eq_ok_iff (w : Word) (i : Instr) :
    decode w = .ok i ↔ ∃ r ∈ opcodeTable, w &&& r.mask = r.matchWord ∧ i = r.build (Fields.ofWord w) := by
  constructor
  · intro h
    rw [decode] at h
    split at h
    · cases h
    · next r hrow =>
      split at h
      · next hm =>
        cases h
        exact ⟨r, (rowOf_eq_some hrow).1, hm, rfl⟩
      · cases h
  · rintro ⟨r, hr, hm, rfl⟩
    simp only [decode, Row.op_of_match hr hm, rowOf_op hr, hm, if_true]

/-- Settles O8: the opcode of a word that matches is the row's, and the opcodes of the rows differ. -/
theorem decodeByMatchAndMask : Obligations.DecodeByMatchAndMask := by
  refine ⟨fun w => ⟨?_, ?_⟩, decode_eq_ok_iff, fun w r₁ h₁ r₂ h₂ hm₁ hm₂ => ?_, by decide, ?_⟩
  · rintro ⟨i, hi⟩
    obtain ⟨r, hr, hm, -⟩ := (decode_eq_ok_iff w i).mp hi
    exact ⟨r, hr, hm⟩
  · rintro ⟨r, hr, hm⟩
    exact ⟨_, (decode_eq_ok_iff w _).mpr ⟨r, hr, hm, rfl⟩⟩
  · rw [← Row.op_of_match h₁ hm₁, ← Row.op_of_match h₂ hm₂]
  · simp only [opcodeTable, List.forall_mem_cons]
    decide

/-! ## The fields of a command -/

/-- What is left of a register field that is read and then encoded again (R82). -/
def RegUse.reencode : RegUse → BitVec 4 → BitVec 4
  | .unused, _ => 0
  | .freg, field => fregField (fregOf field)
  | .preg, field => pregField (pregOf field)

/-- What is left of an immediate field that is read and then encoded again (R81, R83). -/
def ImmUse.reencode : ImmUse → BitVec 12 → BitVec 12
  | .zero, _ => 0
  | .imm12, field => field
  | .buf off m, field => bufField (if off then offOf field else 0) (m && modeOf field)

/-- What is left of the fields that are read as a shape has them and then encoded again. -/
def Shape.reencode (sh : Shape) (f : Fields) : Fields :=
  ⟨f.op, sh.rd.reencode f.rd, sh.ra.reencode f.ra, sh.rb.reencode f.rb, sh.imm.reencode f.imm⟩

theorem RegUse.ok_reencode (u : RegUse) (field : BitVec 4) : u.ok (u.reencode field) = true := by
  cases u with
  | unused => rfl
  | freg => rfl
  | preg => exact RegUse.ok_pregField _

theorem RegUse.reencode_of_ok {u : RegUse} {field : BitVec 4} (h : u.ok field = true) : u.reencode field = field := by
  cases u with
  | unused => exact (beq_iff_eq.mp h).symm
  | freg => rfl
  | preg => exact pregField_pregOf h

/-- An `imm` field of format B is made of its `off` and `m`, its other four bits being 0 (R81). -/
theorem bufField_offOf_modeOf {field : BitVec 12} (htop : field.extractLsb' 9 3 = 0#3) (h7 : field.getLsbD 7 = false) :
    bufField (offOf field) (modeOf field) = field := by
  simp only [bitVec_eq_zero_iff_getLsbD, BitVec.getLsbD_extractLsb', Nat.forall_lt_succ_left] at htop
  refine BitVec.eq_of_getLsbD_eq fun j hj => ?_
  simp only [bufField, offOf, modeOf, BitVec.getLsbD_append, BitVec.getLsbD_extractLsb']
  interval_cases j <;> simp_all

theorem ImmUse.ok_bufField : ∀ (off : Off) (m : Bool), (ImmUse.buf true true).ok (bufField off m) = true := by
  decide +kernel

theorem ImmUse.ok_buf_iff {off m : Bool} {field : BitVec 12} :
    (ImmUse.buf off m).ok field = true ↔
      (ImmUse.buf true true).ok field = true ∧ (off = false → offOf field = 0) ∧ (m = false → modeOf field = false) := by
  cases off <;> cases m <;> simp [ImmUse.ok, offOf, modeOf, and_assoc]

theorem ImmUse.ok_reencode (u : ImmUse) (field : BitVec 12) : u.ok (u.reencode field) = true := by
  cases u with
  | zero => rfl
  | imm12 => rfl
  | buf off m =>
    refine ImmUse.ok_buf_iff.mpr ⟨ImmUse.ok_bufField _ _, fun hoff => ?_, fun hm => ?_⟩
    · simp [ImmUse.reencode, hoff]
    · simp [ImmUse.reencode, hm]

theorem ImmUse.reencode_of_ok {u : ImmUse} {field : BitVec 12} (h : u.ok field = true) : u.reencode field = field := by
  cases u with
  | zero => exact (beq_iff_eq.mp h).symm
  | imm12 => rfl
  | buf off m =>
    obtain ⟨hbits, hoff, hm⟩ := ImmUse.ok_buf_iff.mp h
    have hoff' : (if off then offOf field else 0) = offOf field := by cases off <;> simp_all
    have hm' : (m && modeOf field) = modeOf field := by cases m <;> simp_all
    rw [ImmUse.reencode, hoff', hm']
    simp only [ImmUse.ok, Bool.true_or, Bool.and_true, Bool.and_eq_true, beq_iff_eq, Bool.not_eq_true'] at hbits
    exact bufField_offOf_modeOf hbits.1 hbits.2

theorem Shape.ok_reencode (sh : Shape) (f : Fields) : sh.ok (sh.reencode f) = true := by
  simp only [Shape.ok, Shape.reencode, RegUse.ok_reencode, ImmUse.ok_reencode, Bool.and_self]

theorem Shape.reencode_of_ok {sh : Shape} {f : Fields} (h : sh.ok f = true) : sh.reencode f = f := by
  simp only [Shape.ok, Bool.and_eq_true] at h
  obtain ⟨⟨⟨hrd, hra⟩, hrb⟩, himm⟩ := h
  simp only [Shape.reencode, RegUse.reencode_of_ok hrd, RegUse.reencode_of_ok hra, RegUse.reencode_of_ok hrb,
    ImmUse.reencode_of_ok himm]

/-- The command a row builds is encoded with the fields it was read from, as far as the row's columns read them. -/
theorem Row.fields_build : ∀ r ∈ opcodeTable, ∃ sh, shapeOf r.op = some sh ∧
    ∀ f : Fields, f.op = r.op → (r.build f).fields = sh.reencode f := by
  simp only [opcodeTable, List.forall_mem_cons, List.not_mem_nil, false_imp_iff, implies_true, and_true]
  and_intros
  all_goals exact ⟨_, rfl, by rintro ⟨_, _, _, _, _⟩ rfl; rfl⟩

/-- Every command is what the row of its opcode builds from its fields. -/
theorem Instr.build_fields (i : Instr) : ∃ r ∈ opcodeTable, r.op = i.fields.op ∧ r.build i.fields = i := by
  have of_rowOf {r : Row} (hrow : rowOf i.fields.op = some r) (h : r.build i.fields = i) :
      ∃ r ∈ opcodeTable, r.op = i.fields.op ∧ r.build i.fields = i :=
    ⟨r, (rowOf_eq_some hrow).1, (rowOf_eq_some hrow).2, h⟩
  cases i <;> refine of_rowOf rfl ?_ <;>
    simp only [Instr.fields, fregOf_fregField, pregOf_pregField, offOf_bufField, modeOf_bufField]

/-- The fields of a command follow the shape of its opcode. -/
theorem Instr.exists_shape (i : Instr) : ∃ sh, shapeOf i.fields.op = some sh ∧ sh.ok i.fields = true := by
  obtain ⟨r, hr, hop, hbuild⟩ := i.build_fields
  obtain ⟨sh, hsh, hfields⟩ := Row.fields_build r hr
  have h : i.fields = sh.reencode i.fields := (congrArg Instr.fields hbuild).symm.trans (hfields i.fields hop.symm)
  refine ⟨sh, hop ▸ hsh, ?_⟩
  rw [h]
  exact sh.ok_reencode _

theorem ofWord_encode (i : Instr) : Fields.ofWord (encode i) = i.fields :=
  Fields.ofWord_toWord _

theorem decode_encode (i : Instr) : decode (encode i) = .ok i := by
  obtain ⟨r, hr, hop, hbuild⟩ := i.build_fields
  obtain ⟨sh, hsh, hok⟩ := i.exists_shape
  have hmatch := Row.match_iff_ok hr (hop ▸ hsh) (w := encode i) (by rw [ofWord_encode, hop])
  rw [ofWord_encode] at hmatch
  exact (decode_eq_ok_iff _ _).mpr ⟨r, hr, hmatch.mpr hok, by rw [ofWord_encode, hbuild]⟩

/-- Settles O6: the row of the command's opcode accepts its fields and builds the command from them. -/
theorem decodeOfEncode : Obligations.DecodeOfEncode := by
  refine fun i => ⟨?_, decode_encode i⟩
  obtain ⟨sh, hsh, hok⟩ := i.exists_shape
  simp only [Instr.wf, Fields.wf, hsh, hok]

/-- Settles O7: the fields of a word that decodes follow the shape, so that reading and encoding them again changes
nothing. -/
theorem encodeOfDecode : Obligations.EncodeOfDecode := by
  intro w i h
  obtain ⟨r, hr, hm, rfl⟩ := (decode_eq_ok_iff w i).mp h
  obtain ⟨sh, hsh, hfields⟩ := Row.fields_build r hr
  have hop := Row.op_of_match hr hm
  have hok := (Row.match_iff_ok hr hsh hop).mp hm
  rw [encode, hfields _ hop, Shape.reencode_of_ok hok, Fields.toWord_ofWord]

/-- Settles O11, by evaluating the decoder and the assembler on the words and lines of the spec. -/
theorem exampleWordsDecode : Obligations.ExampleWordsDecode := by
  refine ⟨?decoded, ?assembled, ?rejected⟩ <;> decide +kernel

end Sys2Proof
end

section
/-! What a command can do, said once for all 27 (10_state.md sections 1, 2 and 5, 60_exceptions.md R180, R184, R185): it
makes writes that it may make and completes, or raises a cause that it may raise. -/

namespace Sys2Proof.Machine

/-! ## The writes of a command -/

/-- `u` is `s` after writes that command `i` may make: to its destination registers, to the flags that R28 gives it, and
to the bytes that it stores, which lie in `BUF`. -/
inductive Writes (i : Instr) (s : State) : State → Prop
  | nothing : Writes i s s
  | setF {u : State} {d : FReg} (hd : destF i = some d) (v : Num256) (h : Writes i s u) : Writes i s (u.setF d v)
  | putPoint {u : State} {d : PReg} (hd : destPT i = some d) (P : Point) (ko : Bool) (h : Writes i s u) :
      Writes i s (u.putPoint d P ko)
  | setT {u : State} (hi : writesT i = true) (b : Bool) (h : Writes i s u) : Writes i s (u.setT b)
  | setOffs {u : State} (hi : writesOffs i = true) (v : BitVec 7) (h : Writes i s u) : Writes i s (u.setOffs v)
  | memWrite {u : State} {str : List Byte} (hi : (storedBytes i).2 = str.length)
      (hrange : (storedBytes i).1 + (storedBytes i).2 ≤ Config.bufSize) (h : Writes i s u) :
      Writes i s (u.memWrite (storedBytes i).1 str)

section
variable {i : Instr} {s u : State}

/-- No command writes the other registers of the engine, or what belongs to the outside world. -/
theorem Writes.unchanged (h : Writes i s u) :
    u.fault = s.fault ∧ u.fcause = s.fcause ∧ u.finfo = s.finfo ∧ u.cmdreg = s.cmdreg ∧ u.herr = s.herr ∧
      u.turns = s.turns ∧ u.reads = s.reads := by
  induction h with
  | nothing => exact ⟨rfl, rfl, rfl, rfl, rfl, rfl, rfl⟩
  | setF _ _ _ ih | putPoint _ _ _ _ ih | setT _ _ _ ih | setOffs _ _ _ ih | memWrite _ _ _ ih => exact ih

theorem Writes.getF_of_ne (h : Writes i s u) {r : FReg} (hr : destF i ≠ some r) : u.getF r = s.getF r := by
  induction h with
  | nothing => rfl
  | setF hd _ _ ih => rw [State.getF_setF, if_neg (by rintro rfl; exact hr hd), ih]
  | putPoint _ _ _ _ ih | setT _ _ _ ih | setOffs _ _ _ ih | memWrite _ _ _ ih => exact ih

theorem Writes.getPT_of_ne (h : Writes i s u) {r : PReg} (hr : destPT i ≠ some r) : u.getPT r = s.getPT r := by
  induction h with
  | nothing => rfl
  | putPoint hd _ _ _ ih => rw [State.getPT_putPoint, if_neg (by rintro rfl; exact hr hd), ih]
  | setF _ _ _ ih | setT _ _ _ ih | setOffs _ _ _ ih | memWrite _ _ _ ih => exact ih

/-- A write leaves a value in the register (R21). -/
theorem Writes.getF_ne_none (h : Writes i s u) {r : FReg} (hr : s.getF r ≠ none) : u.getF r ≠ none := by
  induction h with
  | nothing => exact hr
  | setF _ _ _ ih =>
    rw [State.getF_setF]
    split
    · exact Option.some_ne_none _
    · exact ih
  | putPoint _ _ _ _ ih | setT _ _ _ ih | setOffs _ _ _ ih | memWrite _ _ _ ih => exact ih

/-- A write leaves a value in the register (R22). -/
theorem Writes.getPT_ne_none (h : Writes i s u) {r : PReg} (hr : s.getPT r ≠ none) : u.getPT r ≠ none := by
  induction h with
  | nothing => exact hr
  | putPoint _ _ _ _ ih =>
    rw [State.getPT_putPoint]
    split
    · exact Option.some_ne_none _
    · exact ih
  | setF _ _ _ ih | setT _ _ _ ih | setOffs _ _ _ ih | memWrite _ _ _ ih => exact ih

theorem Writes.tflag_of_not (h : Writes i s u) (hi : writesT i = false) : u.tflag = s.tflag := by
  induction h with
  | nothing => rfl
  | setT hT => cases hT.symm.trans hi
  | setF _ _ _ ih | putPoint _ _ _ _ ih | setOffs _ _ _ ih | memWrite _ _ _ ih => exact ih

theorem Writes.inf_of_not (h : Writes i s u) (hi : destPT i = none) : u.inf = s.inf := by
  induction h with
  | nothing => rfl
  | putPoint hd => cases hd.symm.trans hi
  | setF _ _ _ ih | setT _ _ _ ih | setOffs _ _ _ ih | memWrite _ _ _ ih => exact ih

theorem Writes.offs_of_not (h : Writes i s u) (hi : writesOffs i = false) : u.offs = s.offs := by
  induction h with
  | nothing => rfl
  | setOffs hO => cases hO.symm.trans hi
  | setF _ _ _ ih | putPoint _ _ _ _ ih | setT _ _ _ ih | memWrite _ _ _ ih => exact ih

theorem Writes.readBuf_of_outside (h : Writes i s u) {a : Nat}
    (ha : a < (storedBytes i).1 ∨ (storedBytes i).1 + (storedBytes i).2 ≤ a) : u.readBuf a = s.readBuf a := by
  induction h with
  | nothing => rfl
  | memWrite hi _ _ ih => exact (Memory.read_writeBytes_outside _ _ _ _ (hi ▸ ha)).trans ih
  | setF _ _ _ ih | putPoint _ _ _ _ ih | setT _ _ _ ih | setOffs _ _ _ ih => exact ih

/-- The bytes that a command stores lie in `BUF` (R61), so that the list that holds it stays canonical. -/
theorem Writes.buf_wf (h : Writes i s u) (hs : s.buf.wf) : u.buf.wf := by
  induction h with
  | nothing => exact hs
  | memWrite hi hrange _ ih => exact Memory.wf_writeBytes ih (hi ▸ hrange)
  | setF _ _ _ ih | putPoint _ _ _ _ ih | setT _ _ _ ih | setOffs _ _ _ ih => exact ih

end

/-! ## What a command does -/

/-- The work `r` of command `i`, run in `s`, completes by writes that `i` may make; or it raises a cause that the table of
R180 gives `i`, if the points in `s` are valid. -/
structure Does (i : Instr) (s : State) (r : Except Cause State) : Prop where
  completes : ∀ u, r = .ok u → Writes i s u
  raises : s.PointFileValid → ∀ c, r = .error c → c ∈ raisable i

section
variable {i : Instr} {s : State}

theorem Does.done {u : State} (h : Writes i s u) : Does i s (.ok u) where
  completes := forall_ok_of_ok h
  raises := nofun

theorem Does.badPrefix (h : .badPrefix ∈ raisable i := by simp [raisable]) : Does i s (.error .badPrefix) where
  completes := nofun
  raises := by
    rintro - c ⟨⟩
    exact h

theorem Does.bind {α : Type} {x : Except Cause α} {f : α → Except Cause State}
    (hx : s.PointFileValid → ∀ c, x = .error c → c ∈ raisable i) (hf : ∀ a, x = .ok a → Does i s (f a)) :
    Does i s (x >>= f) where
  completes := forall_ok_of_bind fun a ha => (hf a ha).completes
  raises hs c hc := by
    rcases except_bind_eq_error.mp hc with hc | ⟨a, ha, hc⟩
    · exact hx hs c hc
    · exact (hf a ha).raises hs c hc

theorem Does.readF {a : FReg} {f : Num256 → Except Cause State} (hf : ∀ v, Does i s (f v))
    (h : .emptyOperand ∈ raisable i := by simp [raisable]) : Does i s (s.readF a >>= f) :=
  .bind (fun _ _ hc => (State.readF_eq_error.mp hc).2 ▸ h) fun v _ => hf v

theorem Does.readPT {a : PReg} {f : PtReg → Except Cause State} (hf : ∀ q, s.getPT a = some q → Does i s (f q))
    (h : .emptyOperand ∈ raisable i := by simp [raisable]) : Does i s (s.readPT a >>= f) :=
  .bind (fun _ _ hc => (State.readPT_eq_error.mp hc).2 ▸ h) fun q hq => hf q (State.readPT_eq_ok.mp hq)

theorem Does.checkRange {off n : Nat} {f : Unit → Except Cause State}
    (hf : off + n ≤ Config.bufSize → Does i s (f ())) (h : .bufRange ∈ raisable i := by simp [raisable]) :
    Does i s (checkRange off n >>= f) :=
  .bind (fun _ _ hc => (checkRange_eq_error.mp hc).2 ▸ h) fun _ hok => hf (checkRange_eq_ok.mp hok)

theorem Does.coords {P : Point} {f : Num256 × Num256 → Except Cause State}
    (hf : ∀ xy, Does i s (f xy)) (h : .infinityOperand ∈ raisable i := by simp [raisable]) : Does i s (P.coords >>= f) :=
  .bind (fun _ _ hc => (Point.coords_eq_error.mp hc).2 ▸ h) fun xy _ => hf xy

end

theorem length_serialize (m : Bool) (x y : Num256) : (serialize m x y).length = formLength m := by
  cases m <;> simp [serialize, formLength]

/-- On valid points of this curve the group operations succeed, and are closed (R24, R142, R144, R146). -/
theorem ptDouble_valid {P : Point} (hP : P.Valid Config.curve) :
    ∃ R, ptDouble Config.curve P = .ok R ∧ R.Valid Config.curve := by
  have := curve_fact_prime
  obtain ⟨R, hR, hv, -⟩ := ptDouble_toW curve_wf hP fun x hx => curve_noVerticalTangent x (hx ▸ hP)
  exact ⟨R, hR, hv⟩

theorem ptAdd_valid {P Q : Point} (hP : P.Valid Config.curve) (hQ : Q.Valid Config.curve) :
    ∃ R, ptAdd Config.curve P Q = .ok R ∧ R.Valid Config.curve := by
  have := curve_fact_prime
  obtain ⟨R, hR, hv, -⟩ := ptAdd_toW curve_wf hP hQ
  exact ⟨R, hR, hv⟩

theorem ptSmul_valid {P : Point} (hP : P.Valid Config.curve) (ko : Bool) (k : Nat) :
    ∃ R, ptSmul Config.curve P ko k = .ok R ∧ R.Valid Config.curve := by
  have := curve_fact_prime
  obtain ⟨R, hR, hv, -⟩ := ptSmul_toW curve_wf curve_noVerticalTangent hP ko k
  exact ⟨R, hR, hv⟩

theorem Does.group {i : Instr} {s : State} {x : Except Cause Point} {f : Point → Except Cause State}
    (hx : s.PointFileValid → ∃ R, x = .ok R ∧ R.Valid Config.curve) (hf : ∀ R, Does i s (f R)) : Does i s (x >>= f) :=
  .bind (fun hs c hc => by
    obtain ⟨R, hR, -⟩ := hx hs
    cases hR.symm.trans hc) fun R _ => hf R

/-- Every command is one `finish` (R185) of a work that does what the command may do. -/
theorem exec_does (i : Instr) (s : State) : ∃ r, exec i s = finish s r ∧ Does i s r := by
  cases i with
  | ldf => exact ⟨_, rfl, .checkRange fun _ => .done (.setF rfl _ .nothing)⟩
  | stf =>
    exact ⟨_, rfl, .readF fun v => .checkRange fun hrange =>
      .done (.memWrite (length_bytesBE32 v).symm hrange .nothing)⟩
  | fli => exact ⟨_, rfl, .done (.setF rfl _ .nothing)⟩
  | fmov | fneg => exact ⟨_, rfl, .readF fun _ => .done (.setF rfl _ .nothing)⟩
  | fadd | fsub | fmul => exact ⟨_, rfl, .readF fun _ => .readF fun _ => .done (.setF rfl _ .nothing)⟩
  | finv =>
    refine ⟨_, rfl, .readF fun _ => .bind (fun _ c hc => ?_) fun _ _ => .done (.setF rfl _ .nothing)⟩
    obtain ⟨rfl, -⟩ := (invMod_error_iff prime_modulus.two_le c).mp hc
    simp [raisable]
  | fsqrt => exact ⟨_, rfl, .readF fun _ => .done (.setT rfl _ (.setF rfl _ .nothing))⟩
  | pinf | pldg => exact ⟨_, rfl, .done (.putPoint rfl _ _ .nothing)⟩
  | pmk =>
    refine ⟨_, rfl, .readF fun _ => .readF fun _ => .bind (fun _ c hc => ?_) fun _ _ =>
      .done (.putPoint rfl _ _ .nothing)⟩
    obtain ⟨rfl, -⟩ := makePoint_eq_error.mp hc
    simp [raisable]
  | pmov | pneg => exact ⟨_, rfl, .readPT fun _ _ => .done (.putPoint rfl _ _ .nothing)⟩
  | pgetx | pgety => exact ⟨_, rfl, .readPT fun _ _ => .coords fun _ => .done (.setF rfl _ .nothing)⟩
  | pchk => exact ⟨_, rfl, .readF fun _ => .readF fun _ => .done (.setT rfl _ .nothing)⟩
  | peq => exact ⟨_, rfl, .readPT fun _ _ => .readPT fun _ _ => .done (.setT rfl _ .nothing)⟩
  | pdbl =>
    exact ⟨_, rfl, .readPT fun q hq => .group (fun hs => ptDouble_valid (hs _ _ hq)) fun _ =>
      .done (.putPoint rfl _ _ .nothing)⟩
  | padd =>
    exact ⟨_, rfl, .readPT fun q₁ hq₁ => .readPT fun q₂ hq₂ =>
      .group (fun hs => ptAdd_valid (hs _ _ hq₁) (hs _ _ hq₂)) fun _ => .done (.putPoint rfl _ _ .nothing)⟩
  | psmul =>
    exact ⟨_, rfl, .readPT fun q hq => .readF fun _ => .group (fun hs => ptSmul_valid (hs _ _ hq) _ _) fun _ =>
      .done (.putPoint rfl _ _ .nothing)⟩
  | pser =>
    exact ⟨_, rfl, .readPT fun _ _ => .checkRange fun hrange => .coords fun _ =>
      .done (.memWrite (length_serialize _ _ _).symm hrange .nothing)⟩
  | pdes =>
    refine ⟨_, rfl, ?_⟩
    split
    · refine .checkRange fun _ => .bind (fun _ c hc => ?_) fun _ _ => .done (.putPoint rfl _ _ .nothing)
      rcases deserialize_cause hc with rfl | rfl | rfl <;> simp [raisable]
    · exact .badPrefix
  | recy =>
    refine ⟨_, rfl, .readF fun _ => .bind (fun _ c hc => ?_) fun _ _ =>
      .done (.setOffs rfl _ (.putPoint rfl _ _ .nothing))⟩
    obtain rfl := recoverSearch_cause _ hc
    simp [raisable]
  | pfxe off =>
    refine ⟨_, rfl, ?_⟩
    split
    · exact .done (.memWrite rfl off.isLt .nothing)
    · exact .badPrefix
  | pfxd off => exact ⟨_, rfl, .done (.setOffs rfl _ (.memWrite rfl off.isLt .nothing))⟩

/-- The next state of a command: completion after writes that it may make, or fault entry by a cause that it may raise. -/
theorem exec_cases {i : Instr} {s t : State} (h : exec i s = .next t) :
    (∃ u, Writes i s u ∧ t = u.endCommand) ∨ ∃ c, (s.PointFileValid → c ∈ raisable i) ∧ t = s.raise c := by
  obtain ⟨r, hexec, hr⟩ := exec_does i s
  rcases finish_cases s r with ⟨u, hu, hend⟩ | ⟨c, hc, hend⟩ <;> cases h.symm.trans (hexec.trans hend)
  · exact .inl ⟨u, hr.completes u hu, rfl⟩
  · exact .inr ⟨c, fun hs => hr.raises hs c hc, rfl⟩

theorem exec_next (i : Instr) (s : State) : ∃ t, exec i s = .next t := by
  obtain ⟨r, hexec, -⟩ := exec_does i s
  rcases finish_cases s r with ⟨_, -, hend⟩ | ⟨_, -, hend⟩ <;> exact ⟨_, hexec.trans hend⟩

/-- Settles O17, by the two ends of a command. -/
theorem everyCommandEndsInOneStep : Obligations.EveryCommandEndsInOneStep := by
  intro i s
  obtain ⟨t, ht⟩ := exec_next i s
  rcases exec_cases ht with ⟨u, hu, rfl⟩ | ⟨c, -, rfl⟩
  · obtain ⟨hfault, hfcause, hfinfo, hcmdreg, hherr, -, -⟩ := hu.unchanged
    exact .inl ⟨_, ht, rfl, hfault, hfcause, hfinfo, hcmdreg, hherr⟩
  · exact .inr ⟨c, ht⟩

/-- Settles O18: a completed command made only its writes, and fault entry touches nothing that the frame names but the
fault registers. -/
theorem commandFrame : Obligations.CommandFrame := by
  intro i s t h
  rcases exec_cases h with ⟨u, hu, rfl⟩ | ⟨c, -, rfl⟩
  · obtain ⟨hfault, hfcause, hfinfo, hcmdreg, hherr, hturns, hreads⟩ := hu.unchanged
    exact ⟨fun _ => hu.getF_of_ne, fun _ => hu.getPT_of_ne, hu.tflag_of_not, hu.inf_of_not, hu.offs_of_not,
      fun _ => hu.readBuf_of_outside, hherr, hcmdreg, hturns, hreads, .inl ⟨hfault, hfcause, hfinfo⟩⟩
  · exact ⟨fun _ _ => rfl, fun _ _ => rfl, fun _ => rfl, fun _ => rfl, fun _ => rfl, fun _ _ => rfl, rfl, rfl, rfl, rfl,
      .inr ⟨rfl, rfl⟩⟩

/-- Settles O21: a completed command left `FAULT` at 0. -/
theorem commandsRaiseOnlyTheirCauses : Obligations.CommandsRaiseOnlyTheirCauses := by
  intro i s t hs hfault h ht
  rcases exec_cases h with ⟨u, hu, rfl⟩ | ⟨c, hc, rfl⟩
  · cases ht.symm.trans (hu.unchanged.1.trans hfault)
  · exact ⟨c, hc hs, rfl⟩

end Sys2Proof.Machine
end

section
/-! What a host access and a step can do (20_memory.md R50 to R58, 60_exceptions.md R185, 70_reset_and_hazards.md R210,
R212, R216), and that every step keeps the invariant. -/

namespace Sys2Proof.Machine

/-! ## Refused accesses -/

theorem windowReg_eq_buf_iff {offset m : Nat} (hal : offset % 4 = 0) :
    windowReg offset = .buf m ↔ m ≤ 31 ∧ offset = 0x100 + 4 * m := by
  constructor
  · intro h
    obtain ⟨hlo, hhi, rfl⟩ := windowReg_eq_buf h
    omega
  · rintro ⟨hm, rfl⟩
    exact windowReg_buf hm

theorem exists_windowReg_eq_buf_iff {offset : Nat} (hal : offset % 4 = 0) :
    (∃ m, windowReg offset = .buf m) ↔ 0x100 ≤ offset ∧ offset ≤ 0x17C := by
  constructor
  · rintro ⟨m, h⟩
    obtain ⟨hlo, hhi, -⟩ := windowReg_eq_buf h
    exact ⟨hlo, hhi⟩
  · intro h
    exact ⟨(offset - 0x100) / 4, (windowReg_eq_buf_iff hal).mpr (by omega)⟩

/-- A supported read is refused at the `BUF` offsets of a busy machine only (R55). -/
theorem State.refuses_read_iff (s : State) {offset : Nat} (hal : offset % 4 = 0) :
    s.Refuses (.read .w32 offset) ↔ s.busy = true ∧ ∃ m, windowReg offset = .buf m := by
  simp [State.Refuses, hal, exists_windowReg_eq_buf_iff hal]

/-- A supported write is refused there, and at `CMD` while a command or a fault is pending (R55, R56). -/
theorem State.refuses_write_iff (s : State) {offset : Nat} (data : Word) (hal : offset % 4 = 0) :
    s.Refuses (.write .w32 offset data) ↔
      (s.busy = true ∧ ∃ m, windowReg offset = .buf m) ∨ (windowReg offset = .cmd ∧ (s.busy || s.fault) = true) := by
  simp [State.Refuses, hal, exists_windowReg_eq_buf_iff hal, windowReg_eq_cmd]

/-! ## What an access that is not refused does -/

/-- `t` is what an access that is not refused leaves of `s`. -/
inductive Accepts (s : State) : Access → State → Prop
  | reply (offset : Nat) (w : Word) : Accepts s (.read .w32 offset) (s.reply w)
  | ignore (offset : Nat) (data : Word) : Accepts s (.write .w32 offset data) s
  | command (data : Word) (hbusy : s.busy = false) (hfault : s.fault = false) :
      Accepts s (.write .w32 0x008 data) (s.accept data)
  | ctrl (data : Word) : Accepts s (.write .w32 0x00C data) (s.writeCtrl data)
  | store {m : Nat} (data : Word) (hm : m ≤ 31) (hbusy : s.busy = false) :
      Accepts s (.write .w32 (0x100 + 4 * m) data) (s.memWrite (4 * m) (laneBytes data))

/-- A supported read shows a word, or is refused. -/
theorem readReg_cases (s : State) (r : WindowReg) :
    ((s.busy = true ∧ ∃ m, r = .buf m) ∧ s.readReg r = s.setHerr.reply 0) ∨
      (¬(s.busy = true ∧ ∃ m, r = .buf m) ∧ ∃ w, s.readReg r = s.reply w) := by
  cases r with
  | buf m =>
    cases hbusy : s.busy with
    | true => exact .inl ⟨⟨rfl, m, rfl⟩, by rw [State.readReg, if_pos hbusy]⟩
    | false => exact .inr ⟨by simp, _, by rw [State.readReg, if_neg (by simp [hbusy])]⟩
  | id | status | cmd | ctrl | fcause | finfo | cfg | cp | reserved => exact .inr ⟨by simp, _, rfl⟩

/-- A supported write is refused or accepted, as the register at its offset says. -/
theorem writeReg_cases (s : State) (data : Word) {offset : Nat} (hal : offset % 4 = 0) :
    (s.Refuses (.write .w32 offset data) ∧ s.writeReg data (windowReg offset) = s.setHerr) ∨
      (¬s.Refuses (.write .w32 offset data) ∧
        Accepts s (.write .w32 offset data) (s.writeReg data (windowReg offset))) := by
  rw [State.refuses_write_iff s data hal]
  cases hr : windowReg offset with
  | cmd =>
    obtain rfl := windowReg_eq_cmd.mp hr
    cases hpending : (s.busy || s.fault) with
    | true => exact .inl ⟨.inr ⟨rfl, rfl⟩, by rw [State.writeReg, if_pos hpending]⟩
    | false =>
      obtain ⟨hbusy, hfault⟩ := Bool.or_eq_false_iff.mp hpending
      refine .inr ⟨by simp, ?_⟩
      rw [State.writeReg, if_neg (by simp [hpending])]
      exact .command data hbusy hfault
  | ctrl =>
    obtain rfl := windowReg_eq_ctrl.mp hr
    exact .inr ⟨by simp, .ctrl data⟩
  | buf m =>
    obtain ⟨hm, rfl⟩ := (windowReg_eq_buf_iff hal).mp hr
    cases hbusy : s.busy with
    | true => exact .inl ⟨.inl ⟨rfl, m, rfl⟩, by rw [State.writeReg, if_pos hbusy]⟩
    | false =>
      refine .inr ⟨by simp, ?_⟩
      rw [State.writeReg, if_neg (by simp [hbusy])]
      exact .store data hm hbusy
  | id | status | fcause | finfo | cfg | cp | reserved => exact .inr ⟨by simp, .ignore offset data⟩

/-- A host access in the window is refused, or it is accepted (R52 to R58). -/
theorem hostTurn_refused_or_accepted (s : State) {access : Access} (hlt : access.offset < 0x1000) :
    (s.Refuses access ∧ hostTurn access s = .next (s.afterRefusal access)) ∨
      (¬s.Refuses access ∧ ∃ t, hostTurn access s = .next t ∧ Accepts s access t) := by
  cases access with
  | read width offset =>
    by_cases hu : unsupported width offset = true
    · exact .inl ⟨(unsupported_iff.mp hu).imp_right .inl, hostTurn_read_unsupported s hlt hu⟩
    · obtain ⟨rfl, hal⟩ : width = .w32 ∧ offset % 4 = 0 := by simpa [unsupported] using hu
      rw [State.refuses_read_iff s hal, hostTurn_read_w32 s (offset := offset) hlt hal]
      rcases readReg_cases s (windowReg offset) with ⟨href, heq⟩ | ⟨hacc, w, heq⟩ <;> rw [heq]
      · exact .inl ⟨href, rfl⟩
      · exact .inr ⟨hacc, _, rfl, .reply offset w⟩
  | write width offset data =>
    by_cases hu : unsupported width offset = true
    · exact .inl ⟨(unsupported_iff.mp hu).imp_right .inl, hostTurn_write_unsupported s data hlt hu⟩
    · obtain ⟨rfl, hal⟩ : width = .w32 ∧ offset % 4 = 0 := by simpa [unsupported] using hu
      rw [hostTurn_write_w32 s (offset := offset) data hlt hal]
      rcases writeReg_cases s data hal with ⟨href, heq⟩ | ⟨hacc, heff⟩
      · exact .inl ⟨href, congrArg _ heq⟩
      · exact .inr ⟨hacc, _, rfl, heff⟩

/-- An access that gives a next state lies in the window (R50). -/
theorem offset_lt_of_hostTurn {access : Access} {s t : State} (h : hostTurn access s = .next t) :
    access.offset < 0x1000 := by
  rcases hostTurn_cases access s with e | ⟨_, _, rfl, hlt, -⟩ | ⟨_, rfl, hlt, -⟩ | ⟨_, _, _, rfl, hlt, -⟩ |
    ⟨_, _, rfl, hlt, -⟩
  · cases e.symm.trans h
  all_goals exact hlt

/-- The next state of a host access: the refusal, or what an accepted access leaves. -/
theorem hostTurn_next_cases {access : Access} {s t : State} (h : hostTurn access s = .next t) :
    (s.Refuses access ∧ t = s.afterRefusal access) ∨ Accepts s access t := by
  rcases hostTurn_refused_or_accepted s (offset_lt_of_hostTurn h) with ⟨href, e⟩ | ⟨-, u, e, heff⟩ <;>
    cases h.symm.trans e
  · exact .inl ⟨href, rfl⟩
  · exact .inr heff

theorem Access.isSrst_ctrl (data : Word) : (Access.write .w32 0x00C data).isSrst = data.getLsbD 2 := by
  simp [Access.isSrst]

theorem State.afterRefusal_eq (s : State) (access : Access) :
    ∃ rs, s.afterRefusal access = { s with herr := true, reads := rs } := by
  cases access <;> exact ⟨_, rfl⟩

/-- A host access but `SRST` leaves the registers and the flags of commands as they are (R20, R22, R28). -/
theorem hostTurn_unchanged {access : Access} {s t : State} (hsrst : access.isSrst = false)
    (h : hostTurn access s = .next t) :
    t.fregs = s.fregs ∧ t.pregs = s.pregs ∧ t.tflag = s.tflag ∧ t.inf = s.inf ∧ t.offs = s.offs := by
  rcases hostTurn_next_cases h with ⟨-, rfl⟩ | heff
  · obtain ⟨_, e⟩ := s.afterRefusal_eq access
    rw [e]
    exact ⟨rfl, rfl, rfl, rfl, rfl⟩
  · cases heff with
    | ctrl data =>
      rw [writeCtrl_of_not_srst ((Access.isSrst_ctrl data).symm.trans hsrst)]
      exact ⟨rfl, rfl, rfl, rfl, rfl⟩
    | reply | ignore | command | store => exact ⟨rfl, rfl, rfl, rfl, rfl⟩

theorem writeCtrl_turns (s : State) (data : Word) : (s.writeCtrl data).turns = s.turns := by
  cases h : data.getLsbD 2 with
  | true => rw [writeCtrl_of_srst h, State.resetEngine_turns]
  | false => rw [writeCtrl_of_not_srst h]

theorem hostTurn_turns {access : Access} {s t : State} (h : hostTurn access s = .next t) : t.turns = s.turns := by
  rcases hostTurn_next_cases h with ⟨-, rfl⟩ | heff
  · cases access <;> rfl
  · cases heff with
    | ctrl data => exact writeCtrl_turns s data
    | reply | ignore | command | store => rfl

/-- Settles O31: on a busy machine a `CMD` or `BUF` write is refused, and `CTRL` without `SRST` acts on fault registers and
`HERR` alone. -/
theorem busyHostCannotDisturb : Obligations.BusyHostCannotDisturb := by
  intro s t access hbusy hsrst h
  obtain ⟨hF, hP, hT, hI, hO⟩ := hostTurn_unchanged hsrst h
  suffices hrest : t.busy = true ∧ t.cmdreg = s.cmdreg ∧ t.buf = s.buf by
    obtain ⟨hb, hc, hbuf⟩ := hrest
    exact ⟨hb, hc, hF, hP, hbuf, hT, hI, hO⟩
  rcases hostTurn_next_cases h with ⟨-, rfl⟩ | heff
  · obtain ⟨_, e⟩ := s.afterRefusal_eq access
    rw [e]
    exact ⟨hbusy, rfl, rfl⟩
  · cases heff with
    | ctrl data =>
      rw [writeCtrl_of_not_srst ((Access.isSrst_ctrl data).symm.trans hsrst)]
      exact ⟨hbusy, rfl, rfl⟩
    | command _ hidle | store _ _ hidle => cases hbusy.symm.trans hidle
    | reply | ignore => exact ⟨hbusy, rfl, rfl⟩

/-! ## A host access and the register files -/

/-- `s` with other register files. -/
def State.withFiles (s : State) (F : Vector (Option Num256) 16) (P : Vector (Option PtReg) 8) : State :=
  { s with fregs := F, pregs := P }

section
variable (s : State) (F : Vector (Option Num256) 16) (P : Vector (Option PtReg) 8)

theorem readReg_withFiles (r : WindowReg) : (s.withFiles F P).readReg r = (s.readReg r).withFiles F P := by
  cases r with
  | buf m =>
    have hbusy : (s.withFiles F P).busy = s.busy := rfl
    simp only [State.readReg, hbusy]
    split <;> rfl
  | id | status | cmd | ctrl | fcause | finfo | cfg | cp | reserved => rfl

/-- A write to the window acts on the rest of the state alone, or resets all of it. -/
theorem writeReg_withFiles (data : Word) (r : WindowReg) :
    (s.withFiles F P).writeReg data r = (s.writeReg data r).withFiles F P ∨
      (s.withFiles F P).writeReg data r = s.writeReg data r := by
  have hbusy : (s.withFiles F P).busy = s.busy := rfl
  have hfault : (s.withFiles F P).fault = s.fault := rfl
  cases r with
  | cmd =>
    simp only [State.writeReg, hbusy, hfault]
    split <;> exact .inl rfl
  | buf m =>
    simp only [State.writeReg, hbusy]
    split <;> exact .inl rfl
  | ctrl =>
    simp only [State.writeReg]
    cases h : data.getLsbD 2 with
    | true => exact .inr (by rw [writeCtrl_of_srst h, writeCtrl_of_srst h]; rfl)
    | false => exact .inl (by rw [writeCtrl_of_not_srst h, writeCtrl_of_not_srst h]; rfl)
  | id | status | fcause | finfo | cfg | cp | reserved => exact .inl rfl

end

/-- Whatever the register files hold, an access leaves the same rest of the state. -/
theorem hostTurn_withFiles {access : Access} {s t : State} (F : Vector (Option Num256) 16) (P : Vector (Option PtReg) 8)
    (h : hostTurn access s = .next t) :
    hostTurn access (s.withFiles F P) = .next (t.withFiles F P) ∨ hostTurn access (s.withFiles F P) = .next t := by
  rcases hostTurn_cases access s with e | ⟨_, _, rfl, hlt, hu, e⟩ | ⟨offset, rfl, hlt, hal, e⟩ |
    ⟨_, _, data, rfl, hlt, hu, e⟩ | ⟨offset, data, rfl, hlt, hal, e⟩ <;> cases h.symm.trans e
  · exact .inl (hostTurn_read_unsupported _ hlt hu)
  · rw [hostTurn_read_w32 _ hlt hal, readReg_withFiles]
    exact .inl rfl
  · exact .inl (hostTurn_write_unsupported _ data hlt hu)
  · rw [hostTurn_write_w32 _ data hlt hal]
    exact (writeReg_withFiles s F P data (windowReg offset)).imp (congrArg _) (congrArg _)

/-- Settles O32: the run with other files leaves the same state with those files, or (for `SRST`) the same state. -/
theorem hostCannotSeeRegisters : Obligations.HostCannotSeeRegisters := by
  intro s t F P access h
  refine ⟨fun hsrst => ?_, ?_⟩
  · obtain ⟨hF, hP, -⟩ := hostTurn_unchanged hsrst h
    exact ⟨hF, hP⟩
  · rcases hostTurn_withFiles F P h with e | e <;> exact ⟨_, e, rfl⟩

/-! ## The shapes of a step -/

/-- What a step can be: the engine's, listed or where none is listed; a host access; a reset. Each acts on the state with
the turn taken off the list. -/
theorem step_cases {s t : State} (h : step s = .next t) :
    (∃ rest, (s.turns = .engine :: rest ∨ s.turns = [] ∧ rest = []) ∧ engineTurn { s with turns := rest } = .next t) ∨
      (∃ access rest, s.turns = .host access :: rest ∧ hostTurn access { s with turns := rest } = .next t) ∨
      ∃ rest, s.turns = .reset :: rest ∧ t = State.resetEngine { s with turns := rest } := by
  unfold step at h
  split at h
  · next hnil =>
    refine .inl ⟨[], .inr ⟨hnil, rfl⟩, ?_⟩
    rwa [← hnil]
  · next access rest hcons => exact .inr (.inl ⟨access, rest, hcons, h⟩)
  · next rest hcons => exact .inl ⟨rest, .inl hcons, h⟩
  · next rest hcons =>
    cases h
    exact .inr (.inr ⟨rest, hcons, rfl⟩)

theorem step_engine {s : State} {rest : List Turn} (h : s.turns = .engine :: rest) :
    step s = engineTurn { s with turns := rest } := by
  simp only [step, h]

theorem step_nil {s : State} (h : s.turns = []) : step s = engineTurn s := by
  simp only [step, h]

theorem step_host {s : State} {access : Access} {rest : List Turn} (h : s.turns = .host access :: rest) :
    step s = hostTurn access { s with turns := rest } := by
  simp only [step, h]

theorem engineTurn_of_idle {s : State} (h : s.busy = false) : engineTurn s = .next s := by
  simp [engineTurn, h]

theorem engineTurn_of_decode {s : State} {i : Instr} (hbusy : s.busy = true) (h : decode s.cmdreg = .ok i) :
    engineTurn s = exec i s := by
  simp only [engineTurn, hbusy, State.fetch, h, if_true]

/-- Settles O12, from what the engine's turn does with a word that decodes. -/
theorem stepRunsDecodedCommand : Obligations.StepRunsDecodedCommand := by
  intro s i hbusy hi
  exact ⟨fun h => (step_nil h).trans (engineTurn_of_decode hbusy hi),
    fun rest h => (step_engine h).trans (engineTurn_of_decode (s := { s with turns := rest }) hbusy hi)⟩

/-- Settles O14, by the shapes of a step. -/
theorem stepTakesTheFirstTurn : Obligations.StepTakesTheFirstTurn := by
  intro s
  exact ⟨fun access rest h => step_host h,
    fun rest h hidle => (step_engine h).trans (engineTurn_of_idle (s := { s with turns := rest }) hidle),
    fun h hidle => (step_nil h).trans (engineTurn_of_idle hidle)⟩

theorem State.withFetchWord_eq (s : State) (w : Word) :
    s.withFetchWord 32 w.toNat =
      { s with fault := false, fcause := 0, finfo := 0, cmdreg := w, busy := true, turns := [] } := by
  have hw : BitVec.ofNat 32 (w.toNat % 2 ^ 32) = w := by simp [Nat.mod_eq_of_lt w.isLt]
  rw [State.withFetchWord, State.withCommand, hw]
  rfl

/-- Settles O15: nothing is listed before the engine's step, and on an idle machine without a fault the fault registers
hold 0 as it is (R33). -/
theorem fetchedWordRuns : Obligations.FetchedWordRuns := by
  intro s i
  rw [State.withFetchWord_eq]
  refine ⟨(step_nil rfl).trans (engineTurn_of_decode rfl (decode_encode i)), fun hs hbusy hfault hturns => ?_⟩
  obtain ⟨hfcause, hfinfo⟩ := hs.faultStatus.2.1 hfault
  rw [(cmdWrite s (encode i)).1 ⟨hbusy, hfault⟩]
  obtain ⟨⟩ := s
  cases hfault
  cases hfcause
  cases hfinfo
  cases hturns
  rfl

/-! ## The words of the status registers -/

/-- Bits 5:0 of the `STATUS` word (R27). -/
theorem statusWord_low_bits (s : State) :
    s.statusWord.getLsbD 0 = s.busy ∧ s.statusWord.getLsbD 1 = s.fault ∧ s.statusWord.getLsbD 2 = s.herr ∧
      s.statusWord.getLsbD 3 = false ∧ s.statusWord.getLsbD 4 = s.tflag ∧ s.statusWord.getLsbD 5 = s.inf := by
  simp only [State.statusWord, BitVec.getLsbD_append]
  simp

/-- Bits 31:6 of the `STATUS` word (R27): `OFFS` from bit 8 on, and zeros. -/
theorem getLsbD_statusWord_of_ge (s : State) {j : Nat} (hj : 6 ≤ j) :
    s.statusWord.getLsbD j = (decide (8 ≤ j) && s.offs.getLsbD (j - 8)) := by
  simp only [State.statusWord, BitVec.getLsbD_append]
  grind

theorem fcauseWord_bytes (s : State) : s.fcauseWord.extractLsb' 0 8 = s.fcause ∧ s.fcauseWord.extractLsb' 8 24 = 0 := by
  constructor <;> refine BitVec.eq_of_getLsbD_eq fun j hj => ?_ <;>
    simp only [State.fcauseWord, BitVec.getLsbD_setWidth, BitVec.getLsbD_extractLsb', hj]
  · simp
    omega
  · simp

/-- Settles O24: the low bits one by one, the rest slice by slice. -/
theorem statusAndFaultWords : Obligations.StatusAndFaultWords := by
  intro s
  obtain ⟨h0, h1, h2, h3, h4, h5⟩ := statusWord_low_bits s
  have slice {n k : Nat} {v : BitVec k} (hn : 6 ≤ n)
      (hv : ∀ j, j < k → (decide (8 ≤ n + j) && s.offs.getLsbD (n + j - 8)) = v.getLsbD j) :
      s.statusWord.extractLsb' n k = v := by
    refine BitVec.eq_of_getLsbD_eq fun j hj => ?_
    rw [BitVec.getLsbD_extractLsb', decide_eq_true hj, Bool.true_and, getLsbD_statusWord_of_ge s (by omega), hv j hj]
  refine ⟨s.statusWord, s.fcauseWord, windowReads_of_readReg (by decide) (by decide) rfl,
    windowReads_of_readReg (by decide) (by decide) rfl, windowReads_of_readReg (by decide) (by decide) rfl,
    ⟨h0, h1, h2, h3, h4, h5, slice (by decide) fun j hj => ?_, slice (by decide) fun j hj => ?_,
      slice (by decide) fun j hj => ?_⟩, fcauseWord_bytes s⟩
  · simp [show ¬8 ≤ 6 + j by omega]
  · simp
  · simp [BitVec.getLsbD_of_ge s.offs (15 + j - 8) (by omega)]

/-! ## `HERR` -/

/-- The next state of the engine's turn: the same, where it has no step; what a command's writes leave; or fault entry. -/
theorem engineTurn_next_cases {s t : State} (h : engineTurn s = .next t) :
    t = s ∨ (∃ i u, Writes i s u ∧ t = u.endCommand) ∨ ∃ c, t = s.raise c := by
  rcases engineTurn_cases s with ⟨-, e⟩ | ⟨-, i, -, e⟩ | ⟨-, _, -, e⟩ <;> rw [e] at h
  · cases h
    exact .inl rfl
  · rcases exec_cases h with ⟨u, hu, rfl⟩ | ⟨c, -, rfl⟩
    · exact .inr (.inl ⟨i, u, hu, rfl⟩)
    · exact .inr (.inr ⟨c, rfl⟩)
  · cases h
    exact .inr (.inr ⟨_, rfl⟩)

theorem engineTurn_herr {s t : State} (h : engineTurn s = .next t) : t.herr = s.herr := by
  rcases engineTurn_next_cases h with rfl | ⟨i, u, hu, rfl⟩ | ⟨c, rfl⟩
  · rfl
  · obtain ⟨-, -, -, -, hherr, -⟩ := hu.unchanged
    exact hherr
  · rfl

/-- An accepted access changes `HERR` only as a `CTRL` write that clears it (R31, R58). -/
theorem Accepts.herr {s t : State} {access : Access} (h : Accepts s access t) :
    t.herr = s.herr ∨
      (t.herr = false ∧ ∃ data, access = .write .w32 0x00C data ∧ (access.isSrst = true ∨ data.getLsbD 1 = true)) := by
  cases h with
  | ctrl data =>
    cases hsrst : data.getLsbD 2 with
    | true =>
      rw [writeCtrl_of_srst hsrst]
      exact .inr ⟨rfl, data, rfl, .inl ((Access.isSrst_ctrl data).trans hsrst)⟩
    | false =>
      rw [writeCtrl_of_not_srst hsrst]
      cases hclr : data.getLsbD 1 with
      | true => exact .inr ⟨by simp, data, rfl, .inr hclr⟩
      | false => exact .inl (by simp)
  | reply | ignore | command | store => exact .inl rfl

/-- Where `HERR` is as it was, it was neither set nor cleared. -/
theorem no_change_of_herr_eq {s t : State} {A B : Prop} (h : t.herr = s.herr) :
    (s.herr = false → t.herr = true → A) ∧ (s.herr = true → t.herr = false → B) := by
  rw [h]
  cases s.herr <;> exact ⟨nofun, nofun⟩

/-- Settles O29: a refused access sets `HERR`, an accepted one and the engine never do. -/
theorem herrEvents : Obligations.HerrEvents := by
  refine ⟨fun s access hlt => ?_, fun s t h => ?_⟩
  · rcases hostTurn_refused_or_accepted s hlt with ⟨href, e⟩ | ⟨hacc, u, e, heff⟩
    · exact ⟨fun _ => e, fun hn => absurd href hn⟩
    · refine ⟨fun href => absurd href hacc, fun _ t ht hherr => ?_⟩
      cases ht.symm.trans e
      rcases heff.herr with heq | ⟨hclear, -⟩
      · exact heq ▸ hherr
      · cases hherr.symm.trans hclear
  · rcases step_cases h with ⟨rest, -, he⟩ | ⟨access, rest, hturns, he⟩ | ⟨rest, hturns, rfl⟩
    · exact no_change_of_herr_eq (engineTurn_herr (s := { s with turns := rest }) he)
    · rcases hostTurn_next_cases he with ⟨href, rfl⟩ | heff
      · obtain ⟨_, e⟩ := State.afterRefusal_eq { s with turns := rest } access
        rw [e]
        exact ⟨fun _ _ => ⟨access, rest, hturns, by cases access <;> exact href⟩, nofun⟩
      · rcases heff.herr with hkeep | ⟨hclear, data, rfl, hbit⟩
        · exact no_change_of_herr_eq hkeep
        · rw [hclear]
          exact ⟨nofun, fun _ _ =>
            hbit.imp (fun hsrst => ⟨rest, .inr ⟨_, hsrst, hturns⟩⟩) fun hclr => ⟨data, rest, hturns, hclr⟩⟩
    · exact ⟨nofun, fun _ _ => .inl ⟨rest, .inl hturns⟩⟩

/-! ## The engine becomes idle -/

theorem engineTurn_turns {s t : State} (h : engineTurn s = .next t) : t.turns = s.turns := by
  rcases engineTurn_next_cases h with rfl | ⟨i, u, hu, rfl⟩ | ⟨c, rfl⟩
  · rfl
  · obtain ⟨-, -, -, -, -, hturns, -⟩ := hu.unchanged
    exact hturns
  · rfl

theorem engineTurn_next (s : State) : ∃ t, engineTurn s = .next t := by
  rcases engineTurn_cases s with ⟨-, e⟩ | ⟨-, i, -, e⟩ | ⟨-, _, -, e⟩
  · exact ⟨_, e⟩
  · exact e ▸ exec_next i s
  · exact ⟨_, e⟩

theorem hostTurn_next (s : State) {access : Access} (hlt : access.offset < 0x1000) : ∃ t, hostTurn access s = .next t := by
  rcases hostTurn_refused_or_accepted s hlt with ⟨-, e⟩ | ⟨-, t, e, -⟩ <;> exact ⟨_, e⟩

theorem State.turnsInWindow_iff (s : State) : s.TurnsInWindow ↔ ∀ a, Turn.host a ∈ s.turns → a.offset < 0x1000 := by
  refine forall₂_congr fun a _ => ?_
  cases a <;> rfl

/-- A step takes its turn off the list. -/
theorem step_takes_turn {s : State} {turn : Turn} {rest : List Turn} (hs : s.TurnsInWindow)
    (hturns : s.turns = turn :: rest) : ∃ t, step s = .next t ∧ t.turns = rest ∧ t.TurnsInWindow := by
  rw [State.turnsInWindow_iff, hturns] at hs
  suffices hstep : ∃ t, step s = .next t ∧ t.turns = rest by
    obtain ⟨t, ht, htr⟩ := hstep
    exact ⟨t, ht, htr, t.turnsInWindow_iff.mpr fun a ha => hs a (.tail _ (htr ▸ ha))⟩
  cases turn with
  | host access =>
    obtain ⟨t, ht⟩ := hostTurn_next { s with turns := rest } (hs access (.head _))
    exact ⟨t, (step_host hturns).trans ht, hostTurn_turns ht⟩
  | engine =>
    obtain ⟨t, ht⟩ := engineTurn_next { s with turns := rest }
    exact ⟨t, (step_engine hturns).trans ht, engineTurn_turns ht⟩
  | reset => exact ⟨_, step_reset hturns, rfl⟩

/-- Settles O34, by induction on the listed turns; the step after them is the engine's. -/
theorem engineEventuallyIdle : Obligations.EngineEventuallyIdle := by
  intro s hs
  induction hturns : s.turns generalizing s with
  | nil =>
    obtain ⟨t, ht⟩ := engineTurn_next s
    refine ⟨t, ?_, engineTurn_busy ht, (engineTurn_turns ht).trans hturns⟩
    exact (runSteps_succ_of_next 0 ((step_nil hturns).trans ht)).trans (runSteps_zero t)
  | cons turn rest ih =>
    obtain ⟨u, hu, hurest, huw⟩ := step_takes_turn hs hturns
    obtain ⟨t, ht, hidle⟩ := ih u huw hurest
    exact ⟨t, (runSteps_succ_of_next _ hu).trans ht, hidle⟩

/-! ## Registers that hold a value -/

/-- Every register that holds a value in `s` holds one in `t` (R21, R22). -/
def KeepsFilled (s t : State) : Prop :=
  (∀ i, s.getF i ≠ none → t.getF i ≠ none) ∧ ∀ i, s.getPT i ≠ none → t.getPT i ≠ none

theorem keepsFilled_of_eq {s t : State} (hF : t.fregs = s.fregs) (hP : t.pregs = s.pregs) : KeepsFilled s t := by
  constructor <;> intro i hi
  · rwa [State.getF, hF]
  · rwa [State.getPT, hP]

theorem engineTurn_keepsFilled {s t : State} (h : engineTurn s = .next t) : KeepsFilled s t := by
  rcases engineTurn_next_cases h with rfl | ⟨i, u, hu, rfl⟩ | ⟨c, rfl⟩
  · exact keepsFilled_of_eq rfl rfl
  · exact ⟨fun _ => hu.getF_ne_none, fun _ => hu.getPT_ne_none⟩
  · exact keepsFilled_of_eq rfl rfl

theorem hostTurn_of_isSrst {access : Access} (h : access.isSrst = true) (s : State) :
    hostTurn access s = .next s.resetEngine := by
  cases access with
  | read width offset => cases h
  | write width offset data =>
    simp only [Access.isSrst, Bool.and_eq_true, beq_iff_eq] at h
    obtain ⟨⟨rfl, rfl⟩, hsrst⟩ := h
    rw [hostTurn_write_ctrl, writeCtrl_of_srst hsrst]

theorem step_of_nextIsReset {s : State} (h : s.NextIsReset) :
    ∃ rest, step s = .next (State.resetEngine { s with turns := rest }) := by
  obtain ⟨rest, hturns | ⟨access, hsrst, hturns⟩⟩ := h
  · exact ⟨rest, step_reset hturns⟩
  · exact ⟨rest, (step_host hturns).trans (hostTurn_of_isSrst hsrst _)⟩

/-- Settles O5: commands fill registers, and host accesses other than `SRST` leave both files as they are. -/
theorem registersEmptyOnlyByReset : Obligations.RegistersEmptyOnlyByReset := by
  refine fun s t h => ⟨fun hreset => ?_, fun hreset => ?_⟩
  · rcases step_cases h with ⟨rest, -, he⟩ | ⟨access, rest, hturns, he⟩ | ⟨rest, hturns, -⟩
    · exact engineTurn_keepsFilled (s := { s with turns := rest }) he
    · have hsrst : access.isSrst = false := by
        by_contra hsrst
        exact hreset ⟨rest, .inr ⟨access, Bool.eq_true_of_not_eq_false hsrst, hturns⟩⟩
      obtain ⟨hF, hP, -⟩ := hostTurn_unchanged hsrst he
      exact keepsFilled_of_eq (s := s) hF hP
    · exact absurd ⟨rest, .inl hturns⟩ hreset
  · obtain ⟨rest, e⟩ := step_of_nextIsReset hreset
    cases h.symm.trans e
    exact ⟨State.getF_resetEngine _, State.getPT_resetEngine _⟩

/-! ## The invariant -/

theorem State.KnownOrderIsBase.of_pregs_eq {s t : State} (hs : s.KnownOrderIsBase) (h : t.pregs = s.pregs) :
    t.KnownOrderIsBase := by
  intro i q hq
  exact hs i q (State.getPT_of_pregs_eq h i ▸ hq)

theorem ptNeg_ptNeg_basePoint :
    ptNeg Config.curve (ptNeg Config.curve (basePoint Config.curve)) = basePoint Config.curve := by
  decide +kernel

/-- Only `PLDG` sets the known-order flag and `PMOV` and `PNEG` copy it (R23), so that it stands at the base point and its
negative. -/
theorem PointWritten.knownOrder {s : State} {i : Instr} {q : PtReg} (hs : s.KnownOrderIsBase) (h : PointWritten s i q)
    (hko : q.ko = true) :
    q.val = basePoint Config.curve ∨ q.val = ptNeg Config.curve (basePoint Config.curve) := by
  cases h with
  | pinf | pmk | pdbl | padd | psmul | pdes | recy => cases hko
  | pldg => exact .inl rfl
  | pmov _ hq => exact hs _ _ hq hko
  | pneg _ hq =>
    rcases hs _ _ hq hko with e | e
    · exact .inr (congrArg (ptNeg _) e)
    · exact .inl ((congrArg (ptNeg _) e).trans ptNeg_ptNeg_basePoint)

theorem exec_keeps_knownOrderIsBase {i : Instr} {s t : State} (hs : s.KnownOrderIsBase) (h : exec i s = .next t) :
    t.KnownOrderIsBase := by
  cases hi : destPT i with
  | none => exact hs.of_pregs_eq (exec_pregs_of_destPT_none hi h)
  | some d =>
    rcases exec_pregs_of_destPT_some hi h with heq | ⟨q, hq, heq⟩
    · exact hs.of_pregs_eq heq
    · refine State.KnownOrderIsBase.of_pregs_eq (s := s.setPT d q) (fun j r hr => ?_) heq
      rw [State.getPT_setPT] at hr
      split at hr
      · cases hr
        exact hq.knownOrder hs
      · exact hs j r hr

theorem domainMismatch_not_mem_raisable (i : Instr) : Cause.domainMismatch ∉ raisable i := by
  cases i <;> simp [raisable]

/-- Fault entry leaves the fault registers as R27, R32, R33 and R189 describe them. -/
theorem State.faultStatusOk_raise (s : State) {c : Cause} (hc : c ≠ .domainMismatch) : (s.raise c).FaultStatusOk :=
  ⟨nofun, nofun, fun _ => ⟨rfl, c, hc, rfl⟩⟩

theorem exec_keeps_faultStatusOk {i : Instr} {s t : State} (hs : s.FaultStatusOk) (hpoints : s.PointFileValid)
    (hbusy : s.busy = true) (h : exec i s = .next t) : t.FaultStatusOk := by
  obtain ⟨hnotBoth, hclear, -⟩ := hs
  have hfault := hnotBoth hbusy
  obtain ⟨hfcause, hfinfo⟩ := hclear hfault
  rcases exec_cases h with ⟨u, hu, rfl⟩ | ⟨c, hc, rfl⟩
  · obtain ⟨hf, hfc, hfi, -⟩ := hu.unchanged
    refine ⟨nofun, fun _ => ⟨hfc.trans hfcause, hfi.trans hfinfo⟩, fun ht => ?_⟩
    cases ht.symm.trans (hf.trans hfault)
  · exact s.faultStatusOk_raise fun he => domainMismatch_not_mem_raisable i (he ▸ hc hpoints)

theorem exec_keeps_buf_wf {i : Instr} {s t : State} (hs : s.buf.wf) (h : exec i s = .next t) : t.buf.wf := by
  rcases exec_cases h with ⟨u, hu, rfl⟩ | ⟨c, -, rfl⟩
  · exact hu.buf_wf hs
  · exact hs

theorem engineTurn_keeps_inv {s t : State} (hs : s.Inv) (h : engineTurn s = .next t) : t.Inv := by
  rcases engineTurn_cases s with ⟨-, e⟩ | ⟨hbusy, i, -, e⟩ | ⟨-, _, -, e⟩ <;> rw [e] at h
  · cases h
    exact hs
  · exact ⟨exec_keeps_pointFileValid hs.points h, exec_keeps_knownOrderIsBase hs.knownOrder h,
      exec_keeps_faultStatusOk hs.faultStatus hs.points hbusy h, exec_keeps_buf_wf hs.buffer h⟩
  · cases h
    exact ⟨hs.points, hs.knownOrder, s.faultStatusOk_raise (by decide), hs.buffer⟩

theorem State.inv_resetEngine (s : State) : s.resetEngine.Inv where
  points := s.pointFileValid_resetEngine
  knownOrder i q hq := by simp at hq
  faultStatus := ⟨nofun, fun _ => ⟨rfl, rfl⟩, nofun⟩
  buffer := Memory.wf_nil

/-- Settles O2: every clause is about registers and a buffer that reset has cleared. -/
theorem resetSatisfiesInvariant : Obligations.ResetSatisfiesInvariant := State.reset.inv_resetEngine

/-- `FCLR` clears the fault registers together (R31, R189). -/
theorem writeCtrl_keeps_faultStatusOk {s : State} (hs : s.FaultStatusOk) (data : Word) :
    (s.writeCtrl data).FaultStatusOk := by
  obtain ⟨hnotBoth, hclear, hset⟩ := hs
  cases hsrst : data.getLsbD 2 with
  | true =>
    rw [writeCtrl_of_srst hsrst]
    exact s.inv_resetEngine.faultStatus
  | false =>
    rw [writeCtrl_of_not_srst hsrst]
    cases data.getLsbD 0 with
    | true => exact ⟨fun _ => by simp, fun _ => ⟨rfl, rfl⟩, fun h => by simp at h⟩
    | false =>
      simp only [Bool.not_false, Bool.and_true]
      exact ⟨hnotBoth, hclear, hset⟩

theorem Accepts.keeps_inv {s t : State} {access : Access} (hs : s.Inv) (h : Accepts s access t) : t.Inv := by
  cases h with
  | reply | ignore => exact ⟨hs.points, hs.knownOrder, hs.faultStatus, hs.buffer⟩
  | command data _ hfault =>
    refine ⟨hs.points, hs.knownOrder, ⟨fun _ => hfault, hs.faultStatus.2.1, fun ht => ?_⟩, hs.buffer⟩
    cases ht.symm.trans hfault
  | store data hm =>
    exact ⟨hs.points, hs.knownOrder, hs.faultStatus, Memory.wf_writeBytes hs.buffer (by
      show 4 * _ + 4 ≤ 128
      omega)⟩
  | ctrl data =>
    cases hsrst : data.getLsbD 2 with
    | true => exact writeCtrl_of_srst hsrst s ▸ s.inv_resetEngine
    | false =>
      have hfault := writeCtrl_keeps_faultStatusOk hs.faultStatus data
      rw [writeCtrl_of_not_srst hsrst] at hfault ⊢
      exact ⟨hs.points, hs.knownOrder, hfault, hs.buffer⟩

theorem hostTurn_keeps_inv {access : Access} {s t : State} (hs : s.Inv) (h : hostTurn access s = .next t) : t.Inv := by
  rcases hostTurn_next_cases h with ⟨-, rfl⟩ | heff
  · obtain ⟨_, e⟩ := s.afterRefusal_eq access
    rw [e]
    exact ⟨hs.points, hs.knownOrder, hs.faultStatus, hs.buffer⟩
  · exact heff.keeps_inv hs

/-- Settles O3: the engine's turn, a host access and a reset each keep the invariant, whatever turns are still listed. -/
theorem stepKeepsInvariant : Obligations.StepKeepsInvariant := by
  intro s t hs h
  have hrest (rest : List Turn) : ({ s with turns := rest } : State).Inv :=
    ⟨hs.points, hs.knownOrder, hs.faultStatus, hs.buffer⟩
  rcases step_cases h with ⟨rest, -, he⟩ | ⟨access, rest, -, he⟩ | ⟨rest, -, rfl⟩
  · exact engineTurn_keeps_inv (hrest rest) he
  · exact hostTurn_keeps_inv (hrest rest) he
  · exact State.inv_resetEngine _

end Sys2Proof.Machine
end

section
/-! Two runs of a command side by side: what it does depends on the registers and the buffer, and not on the flags
(10_state.md R28). -/

namespace Sys2Proof.Machine

/-- `s` and `t` have `FAULT = 0` and agree in the register files and the buffer; in `T`, `INF` and `OFFS` where `a`, `b` and
`c` say so. -/
structure Agree (a b c : Bool) (s t : State) : Prop where
  fregs : s.fregs = t.fregs
  pregs : s.pregs = t.pregs
  buf : s.buf = t.buf
  fault_left : s.fault = false
  fault_right : t.fault = false
  tflag : a = true → s.tflag = t.tflag
  inf : b = true → s.inf = t.inf
  offs : c = true → s.offs = t.offs

section
variable {a b c : Bool} {s t : State} (h : Agree a b c s t)
include h

theorem Agree.readF (r : FReg) : s.readF r = t.readF r := by
  simp only [State.readF, State.getF, h.fregs]

theorem Agree.readPT (r : PReg) : s.readPT r = t.readPT r := by
  simp only [State.readPT, State.getPT, h.pregs]

theorem Agree.readBuf (k : Nat) : s.readBuf k = t.readBuf k := by
  rw [State.readBuf, State.readBuf, h.buf]

theorem Agree.readNum (k : Nat) : s.readNum k = t.readNum k := by
  simp only [State.readNum, State.memRead, h.buf]

theorem Agree.deserialize (cv : Curve) (off : Nat) : s.deserialize cv off = t.deserialize cv off := by
  simp only [State.deserialize, h.readBuf, h.readNum]

theorem Agree.setF (d : FReg) (v : Num256) : Agree a b c (s.setF d v) (t.setF d v) :=
  { h with fregs := congrArg (·.set d.toNat (some v)) h.fregs }

theorem Agree.putPoint (d : PReg) (P : Point) (ko : Bool) : Agree a true c (s.putPoint d P ko) (t.putPoint d P ko) :=
  { h with pregs := congrArg (·.set d.toNat (some ⟨P, ko⟩)) h.pregs, inf := fun _ => rfl }

theorem Agree.memWrite (k : Nat) (str : List Byte) : Agree a b c (s.memWrite k str) (t.memWrite k str) :=
  { h with buf := congrArg (·.writeBytes k str) h.buf }

theorem Agree.setT (v : Bool) : Agree true b c (s.setT v) (t.setT v) := { h with tflag := fun _ => rfl }

theorem Agree.setOffs (v : BitVec 7) : Agree a b true (s.setOffs v) (t.setOffs v) := { h with offs := fun _ => rfl }

end

/-- The works of command `i` in two states end alike: both raise the same cause, or both complete, in states that agree in
all that `i` writes. -/
def SameEnd (i : Instr) (r₁ r₂ : Except Cause State) : Prop :=
  (∃ c, r₁ = .error c ∧ r₂ = .error c) ∨
    ∃ u₁ u₂, r₁ = .ok u₁ ∧ r₂ = .ok u₂ ∧ Agree (writesT i) (destPT i).isSome (writesOffs i) u₁ u₂

section
variable {i : Instr}

theorem SameEnd.done {u₁ u₂ : State} (h : Agree (writesT i) (destPT i).isSome (writesOffs i) u₁ u₂) :
    SameEnd i (.ok u₁) (.ok u₂) :=
  .inr ⟨u₁, u₂, rfl, rfl, h⟩

theorem SameEnd.raise (c : Cause) : SameEnd i (.error c) (.error c) :=
  .inl ⟨c, rfl, rfl⟩

theorem SameEnd.bind {α : Type} {x₁ x₂ : Except Cause α} {f₁ f₂ : α → Except Cause State} (hx : x₁ = x₂)
    (hf : ∀ v, SameEnd i (f₁ v) (f₂ v)) : SameEnd i (x₁ >>= f₁) (x₂ >>= f₂) := by
  subst hx
  cases x₁ with
  | ok v => exact hf v
  | error c => exact .raise c

end

/-- A command ends alike in two states that agree in the registers and the buffer; for `PFXE`, also in `OFFS`. -/
theorem exec_sameEnd {s₁ s₂ : State} (h : Agree false false false s₁ s₂) (i : Instr)
    (hoffs : ∀ off, i = .pfxe off → s₁.offs = s₂.offs) :
    ∃ r₁ r₂, exec i s₁ = finish s₁ r₁ ∧ exec i s₂ = finish s₂ r₂ ∧ SameEnd i r₁ r₂ := by
  cases i with
  | ldf d off =>
    refine ⟨_, _, rfl, rfl, .bind rfl fun _ => ?_⟩
    rw [h.readNum]
    exact .done (h.setF _ _)
  | stf a => exact ⟨_, _, rfl, rfl, .bind (h.readF a) fun _ => .bind rfl fun _ => .done (h.memWrite _ _)⟩
  | fli => exact ⟨_, _, rfl, rfl, .done (h.setF _ _)⟩
  | fmov _ a | fneg _ a => exact ⟨_, _, rfl, rfl, .bind (h.readF a) fun _ => .done (h.setF _ _)⟩
  | fadd _ a b | fsub _ a b | fmul _ a b =>
    exact ⟨_, _, rfl, rfl, .bind (h.readF a) fun _ => .bind (h.readF b) fun _ => .done (h.setF _ _)⟩
  | finv _ a => exact ⟨_, _, rfl, rfl, .bind (h.readF a) fun _ => .bind rfl fun _ => .done (h.setF _ _)⟩
  | fsqrt _ a => exact ⟨_, _, rfl, rfl, .bind (h.readF a) fun _ => .done ((h.setF _ _).setT _)⟩
  | pinf | pldg => exact ⟨_, _, rfl, rfl, .done (h.putPoint _ _ _)⟩
  | pmk _ a b =>
    exact ⟨_, _, rfl, rfl, .bind (h.readF a) fun _ => .bind (h.readF b) fun _ => .bind rfl fun _ =>
      .done (h.putPoint _ _ _)⟩
  | pmov _ a | pneg _ a => exact ⟨_, _, rfl, rfl, .bind (h.readPT a) fun _ => .done (h.putPoint _ _ _)⟩
  | pgetx _ a | pgety _ a =>
    exact ⟨_, _, rfl, rfl, .bind (h.readPT a) fun _ => .bind rfl fun _ => .done (h.setF _ _)⟩
  | pchk a b => exact ⟨_, _, rfl, rfl, .bind (h.readF a) fun _ => .bind (h.readF b) fun _ => .done (h.setT _)⟩
  | peq a b => exact ⟨_, _, rfl, rfl, .bind (h.readPT a) fun _ => .bind (h.readPT b) fun _ => .done (h.setT _)⟩
  | pdbl _ a => exact ⟨_, _, rfl, rfl, .bind (h.readPT a) fun _ => .bind rfl fun _ => .done (h.putPoint _ _ _)⟩
  | padd _ a b =>
    exact ⟨_, _, rfl, rfl, .bind (h.readPT a) fun _ => .bind (h.readPT b) fun _ => .bind rfl fun _ =>
      .done (h.putPoint _ _ _)⟩
  | psmul _ a b =>
    exact ⟨_, _, rfl, rfl, .bind (h.readPT a) fun _ => .bind (h.readF b) fun _ => .bind rfl fun _ =>
      .done (h.putPoint _ _ _)⟩
  | pser a =>
    exact ⟨_, _, rfl, rfl, .bind (h.readPT a) fun _ => .bind rfl fun _ => .bind rfl fun _ => .done (h.memWrite _ _)⟩
  | pdes =>
    refine ⟨_, _, rfl, rfl, ?_⟩
    rw [h.readBuf, h.deserialize]
    split
    · exact .bind rfl fun _ => .bind rfl fun _ => .done (h.putPoint _ _ _)
    · exact .raise _
  | recy _ a =>
    exact ⟨_, _, rfl, rfl, .bind (h.readF a) fun _ => .bind rfl fun _ => .done ((h.putPoint _ _ _).setOffs _)⟩
  | pfxe off =>
    refine ⟨_, _, rfl, rfl, ?_⟩
    rw [h.readBuf, hoffs off rfl]
    split
    · exact .done (h.memWrite _ _)
    · exact .raise _
  | pfxd =>
    refine ⟨.ok _, .ok _, rfl, rfl, ?_⟩
    rw [h.readBuf]
    exact .done ((h.memWrite _ _).setOffs _)

/-- Settles O33: the two works end alike, and what ends them is the same. -/
theorem flagsDoNotSteerCommands : Obligations.FlagsDoNotSteerCommands := by
  intro i s₁ s₂ t₁ t₂ hF hP hB hoffs hf₁ hf₂ h₁ h₂
  obtain ⟨r₁, r₂, e₁, e₂, hend⟩ :=
    exec_sameEnd (s₁ := s₁) (s₂ := s₂) ⟨hF, hP, hB, hf₁, hf₂, nofun, nofun, nofun⟩ i hoffs
  rcases hend with ⟨c, rfl, rfl⟩ | ⟨u₁, u₂, rfl, rfl, hu⟩ <;> cases h₁.symm.trans e₁ <;> cases h₂.symm.trans e₂
  · exact ⟨hF, hP, hB, rfl, fun _ => rfl, nofun⟩
  · refine ⟨hu.fregs, hu.pregs, hu.buf, hu.fault_left.trans hu.fault_right.symm, fun ht => ?_,
      fun _ => ⟨hu.tflag, fun hd => hu.inf (Option.isSome_iff_ne_none.mpr hd), hu.offs⟩⟩
    cases ht.symm.trans hu.fault_left

end Sys2Proof.Machine
end

section
/-! The results of the data movement and field commands (40_data_movement.md, 41_field.md section 2): each command run with
its sources there, and what it then writes. -/

namespace Sys2Proof.Machine

/-! ## Empty sources -/

theorem exec_of_getF_none {i : Instr} {s : State} {r : FReg} (hr : r ∈ sourcesF i) (h : s.getF r = none) :
    exec i s = .next (s.raise .emptyOperand) :=
  exec_of_hasEmptySource (.inl ⟨r, hr, h⟩)

theorem exec_of_getPT_none {i : Instr} {s : State} {r : PReg} (hr : r ∈ sourcesPT i) (h : s.getPT r = none) :
    exec i s = .next (s.raise .emptyOperand) :=
  exec_of_hasEmptySource (.inr ⟨r, hr, h⟩)

/-! ## Data movement -/

theorem exec_ldf_of_le (s : State) (d : FReg) {off : Off} (h : off.toNat ≤ 96) :
    exec (.ldf d off) s = .next (s.setF d (s.readNum off.toNat)).endCommand := by
  rw [exec, execLdf, checkRange_of_le (by omega)]
  rfl

/-- Settles O35: the range test, and the number read behind it. -/
theorem ldfResult : Obligations.LdfResult := by
  refine fun d off s => ⟨fun h => ⟨_, toNat_readNum s off.toNat, exec_ldf_of_le s d h⟩, fun h => ?_⟩
  rw [exec, execLdf, checkRange_of_gt (by omega)]
  rfl

theorem exec_stf (s : State) {a : FReg} {v : Num256} (hv : s.getF a = some v) (off : Off) :
    exec (.stf a off) s =
      finish s (checkRange off.toNat 32 >>= fun _ => pure (s.memWrite off.toNat (bytesBE32 v))) := by
  rw [exec, execStf, State.readF_of_some hv, except_ok_bind]

/-- A number that is stored shows its bytes, the most significant first (R59). -/
theorem readBuf_memWrite_bytesBE32_add (s : State) (a : Nat) (v : Num256) {k : Nat} (hk : k < 32) :
    (s.memWrite a (bytesBE32 v)).readBuf (a + k) = v.extractLsb' (248 - 8 * k) 8 := by
  have hlen := length_bytesBE32 v
  rw [State.readBuf, State.memWrite_buf, Memory.read_writeBytes, dif_pos (by omega), getElem_bytesBE32,
    Nat.add_sub_cancel_left]

/-- Settles O36: the stored bytes, the bytes outside them, and the two faults in their order. -/
theorem stfResult : Obligations.StfResult := by
  refine fun a off s => ⟨fun v hv h => ?_, fun h => exec_of_getF_none (.head _) h, fun ha h => ?_⟩
  · refine ⟨(s.memWrite off.toNat (bytesBE32 v)).endCommand, ?_, rfl,
      fun k hk => readBuf_memWrite_bytesBE32_add s off.toNat v hk, fun k hk => ?_⟩
    · rw [exec_stf s hv, checkRange_of_le (by omega)]
      rfl
    · exact Memory.read_writeBytes_outside _ _ _ _ (by rwa [length_bytesBE32])
  · obtain ⟨v, hv⟩ := Option.ne_none_iff_exists'.mp ha
    rw [exec_stf s hv, checkRange_of_gt (by omega)]
    rfl

/-- Settles O37: widening the immediate keeps its value. -/
theorem fliFmovResult : Obligations.FliFmovResult := by
  refine ⟨fun d imm s => ⟨immValue imm, ?_, rfl⟩, fun d a s => ⟨fun v hv => ?_, fun h => exec_of_getF_none (.head _) h⟩⟩
  · exact BitVec.toNat_setWidth_of_le (by decide)
  · rw [exec, execFmov, State.readF_of_some hv]
    rfl

/-! ## Field arithmetic -/

theorem exec_fadd {s : State} {a b : FReg} {x y : Num256} (hx : s.getF a = some x) (hy : s.getF b = some y) (d : FReg) :
    exec (.fadd d a b) s = .next (s.setF d (toNum (modp Config.curve ((x.toNat : Int) + y.toNat)))).endCommand := by
  rw [exec, execFadd, State.readF_of_some hx, State.readF_of_some hy]
  rfl

theorem exec_fmul {s : State} {a b : FReg} {x y : Num256} (hx : s.getF a = some x) (hy : s.getF b = some y) (d : FReg) :
    exec (.fmul d a b) s = .next (s.setF d (toNum (modp Config.curve ((x.toNat : Int) * y.toNat)))).endCommand := by
  rw [exec, execFmul, State.readF_of_some hx, State.readF_of_some hy]
  rfl

theorem exec_fsub {s : State} {a b : FReg} {x y : Num256} (hx : s.getF a = some x) (hy : s.getF b = some y) (d : FReg) :
    exec (.fsub d a b) s = .next (s.setF d (toNum (modp Config.curve ((x.toNat : Int) - y.toNat)))).endCommand := by
  rw [exec, execFsub, State.readF_of_some hx, State.readF_of_some hy]
  rfl

theorem exec_fneg {s : State} {a : FReg} {x : Num256} (hx : s.getF a = some x) (d : FReg) :
    exec (.fneg d a) s = .next
      (s.setF d (toNum (modp Config.curve ((Config.curve.p : Int) - modp Config.curve x.toNat)))).endCommand := by
  rw [exec, execFneg, State.readF_of_some hx]
  rfl

/-- A reduced number is below `p` and fits a register (R10). -/
theorem toNat_toNum_modp (x : Int) : (toNum (modp Config.curve x)).toNat = modp Config.curve x :=
  toNat_toNum_of_lt (modp_lt curve_p_pos x)

/-- Settles O38: a sum and a product of numbers are natural numbers before they are reduced. -/
theorem faddFmulResult : Obligations.FaddFmulResult := by
  refine fun d a b s => ⟨fun x y hx hy => ⟨⟨_, ?_, exec_fadd hx hy d⟩, ⟨_, ?_, exec_fmul hx hy d⟩⟩, ?_⟩
  · rw [toNat_toNum_modp, ← Nat.cast_add, modp_natCast]
  · rw [toNat_toNum_modp, ← Nat.cast_mul, modp_natCast]
  · rintro (h | h)
    · exact ⟨exec_of_getF_none (.head _) h, exec_of_getF_none (.head _) h⟩
    · exact ⟨exec_of_getF_none (.tail _ (.head _)) h, exec_of_getF_none (.tail _ (.head _)) h⟩

/-- Adding back what was taken away gives the number again, modulo `p`. -/
theorem modp_sub_add_mod {c : Curve} (hp : 0 < c.p) (x y : Nat) : (modp c ((x : Int) - y) + y) % c.p = x % c.p := by
  rw [← ZMod.natCast_eq_natCast_iff', Nat.cast_add, modp_zmod hp]
  push_cast
  ring

/-- The number by which R114 and R140 negate: it adds up to 0, modulo `p`. -/
theorem modp_neg_add_mod {c : Curve} (hp : 0 < c.p) (y : Nat) : (modp c ((c.p : Int) - y) + y) % c.p = 0 := by
  rw [modp_sub_add_mod hp, Nat.mod_self]

/-- Settles O39: the reduced difference is the number that undoes the addition. -/
theorem fsubFnegResult : Obligations.FsubFnegResult := by
  refine ⟨fun d a b s => ⟨fun x y hx hy => ?_, ?_⟩,
    fun d a s => ⟨fun x hx => ?_, fun h => exec_of_getF_none (.head _) h⟩⟩
  · refine ⟨_, ?_, ?_, exec_fsub hx hy d⟩ <;> rw [toNat_toNum_modp]
    · exact modp_lt curve_p_pos _
    · exact modp_sub_add_mod curve_p_pos _ _
  · rintro (h | h)
    · exact exec_of_getF_none (.head _) h
    · exact exec_of_getF_none (.tail _ (.head _)) h
  · refine ⟨_, ?_, ?_, exec_fneg hx d⟩ <;> rw [toNat_toNum_modp]
    · exact modp_lt curve_p_pos _
    · rw [← Nat.add_mod_mod, ← modp_natCast]
      exact modp_neg_add_mod curve_p_pos _

theorem exec_finv {s : State} {a : FReg} {x : Num256} (hx : s.getF a = some x) (d : FReg) :
    exec (.finv d a) s = finish s (invMod x.toNat Config.curve.p >>= fun t => pure (s.setF d (toNum t))) := by
  rw [exec, execFinv, State.readF_of_some hx, except_ok_bind]

/-- Settles O40: modulo the prime `p` exactly the multiples of `p` have no inverse. -/
theorem finvResult : Obligations.FinvResult := by
  refine fun d a s => ⟨fun x hx hne => ?_, fun x hx h0 => ?_, fun h => exec_of_getF_none (.head _) h⟩
  · obtain ⟨t, ht⟩ := invMod_prime prime_modulus (a := x.toNat) (by exact_mod_cast hne)
    obtain ⟨h1, hle, hmul⟩ := invMod_ok prime_modulus.two_le ht
    have hlt : t < Config.curve.p := by
      have := curve_p_pos
      omega
    refine ⟨toNum t, ?_⟩
    rw [toNat_toNum_of_lt hlt, exec_finv hx, ht]
    exact ⟨h1, hle, by exact_mod_cast hmul, rfl⟩
  · have herr : invMod x.toNat Config.curve.p = .error .notInvertible := by
      refine (invMod_error_iff prime_modulus.two_le _).mpr ⟨rfl, ?_⟩
      have : ((x.toNat : Int) % Config.curve.p).toNat = 0 := by exact_mod_cast h0
      rw [this, Nat.gcd_zero_right]
      exact prime_modulus.one_lt.ne'
    rw [exec_finv hx, herr]
    rfl

/-! ## Square roots -/

theorem sqrtCandidate_mod (v : Nat) : sqrtCandidate Config.curve (v % Config.curve.p) = sqrtCandidate Config.curve v := by
  rw [sqrtCandidate, sqrtCandidate, powMod_eq curve_p_pos, powMod_eq curve_p_pos, ← Nat.pow_mod]

/-- `z` and whether it is a root: what `FSQRT` writes, for the candidate `z` of R117. -/
theorem exec_fsqrt {s : State} {a : FReg} {x : Num256} (hx : s.getF a = some x) {z : Nat}
    (hz : z = sqrtCandidate Config.curve x.toNat) (d : FReg) :
    exec (.fsqrt d a) s = .next
      ((s.setF d (toNum z)).setT (z * z % Config.curve.p == x.toNat % Config.curve.p)).endCommand := by
  simp only [exec, execFsqrt, State.readF_of_some hx, except_ok_bind, finish_pure, modp_natCast, sqrtCandidate_mod, ← hz,
    ← Nat.cast_mul]

/-- A candidate that is no root of `v` is one of `-v` (R117). -/
theorem sq_add_emod_of_not_isRoot {z v : Nat} (hz : z = sqrtCandidate Config.curve v) (h : ¬IsRoot Config.curve z v) :
    (z * z + v) % Config.curve.p = 0 := by
  have := curve_fact_prime
  rw [isRoot_iff, hz] at h
  rw [← Nat.dvd_iff_mod_eq_zero, ← ZMod.natCast_eq_zero_iff]
  push_cast
  rw [hz, (sqrtCandidate_sq curve_mod_four v).resolve_left h, neg_add_cancel]

/-- Settles O41, by Euler's criterion for a prime that is 3 modulo 4. -/
theorem fsqrtResult : Obligations.FsqrtResult := by
  have := curve_fact_prime
  refine fun d a s => ⟨fun x hx => ?_, fun h => exec_of_getF_none (.head _) h⟩
  obtain ⟨z, hz⟩ : ∃ z, z = sqrtCandidate Config.curve x.toNat := ⟨_, rfl⟩
  have hroot : (z * z % Config.curve.p == x.toNat % Config.curve.p) = true ↔ IsRoot Config.curve z x.toNat := beq_iff_eq
  have hlt : z < Config.curve.p := hz ▸ sqrtCandidate_lt curve_p_pos _
  refine ⟨toNum z, z * z % Config.curve.p == x.toNat % Config.curve.p, ?_, ?_, ?_, ?_, exec_fsqrt hx hz d⟩
  · rw [toNat_toNum_of_lt hlt, hz, sqrtCandidate, powMod_eq curve_p_pos]
  · rw [hroot, hz, sqrtCandidate_root_iff curve_mod_four]
  · rw [toNat_toNum_of_lt hlt]
    exact hroot.mp
  · rw [toNat_toNum_of_lt hlt]
    intro hno
    exact sq_add_emod_of_not_isRoot hz fun h => by cases hno.symm.trans (hroot.mpr h)

end Sys2Proof.Machine
end

section
/-! The results of the point commands (42_point.md sections 2 to 4): construction and the coordinates, the group operations
against the formulas of R142 and R144 and against repeated addition, and the laws of the group. -/

namespace Sys2Proof.Machine

/-! ## Writing a point -/

theorem Point.isInfinity_eq_decide (P : Point) : P.isInfinity = decide (P = .infinity) := by
  cases P <;> simp [Point.isInfinity]

/-- The end of a command that writes a point (R27): the pair, and `INF`. -/
theorem endCommand_putPoint (s : State) (d : PReg) (P : Point) (ko : Bool) :
    (s.putPoint d P ko).endCommand =
      { s.setPT d ⟨P, ko⟩ with inf := decide (P = .infinity), busy := false } := by
  rw [← Point.isInfinity_eq_decide]
  rfl

/-- Settles O42: the coordinates of the base point fit a register. -/
theorem pinfPldgResult : Obligations.PinfPldgResult := by
  refine fun d s => ⟨rfl, toNum Config.curve.gx, toNum Config.curve.gy, ?_, ?_, rfl⟩ <;>
    exact toNat_toNum_of_lt (by decide +kernel)

/-! ## Construction, copies and coordinates -/

theorem onCurve_eq_decide (c : Curve) (x y : Nat) :
    onCurve c x y = decide (y * y % c.p = (x * x * x + c.a * x + c.b) % c.p) := by
  rw [onCurve, beq_eq_decide]

theorem Point.valid_affine_iff (c : Curve) (x y : Num256) :
    (Point.affine x y).Valid c ↔ x.toNat < c.p ∧ y.toNat < c.p ∧
      y.toNat * y.toNat % c.p = (x.toNat * x.toNat * x.toNat + c.a * x.toNat + c.b) % c.p := by
  rw [Point.Valid, onCurve_eq_decide, decide_eq_true_iff]

section
variable {s : State} {a b : FReg} {x y : Num256} (hx : s.getF a = some x) (hy : s.getF b = some y)
include hx hy

theorem exec_pmk (d : PReg) :
    exec (.pmk d a b) s =
      finish s (makePoint Config.curve x y >>= fun val => pure (s.putPoint d val false)) := by
  rw [exec, execPmk, State.readF_of_some hx, State.readF_of_some hy, except_ok_bind, except_ok_bind]

theorem exec_pchk : exec (.pchk a b) s = .next (s.setT (onCurve Config.curve x.toNat y.toNat)).endCommand := by
  rw [exec, execPchk, State.readF_of_some hx, State.readF_of_some hy, except_ok_bind, except_ok_bind, finish_pure]

end

/-- Settles O43: what `make_point` accepts are the valid pairs. -/
theorem pmkPchkResult : Obligations.PmkPchkResult := by
  refine fun a b s => ⟨fun x y hx hy => ⟨fun d => ?_, ?_⟩, ?_⟩
  · rw [← Point.valid_affine_iff, exec_pmk hx hy]
    exact ⟨fun hv => by rw [makePoint_of_valid hv]; rfl, fun hn => by rw [makePoint_of_not_valid hn]; rfl⟩
  · rw [exec_pchk hx hy, onCurve_eq_decide]
    rfl
  · rintro (h | h)
    · exact ⟨fun d => exec_of_getF_none (.head _) h, exec_of_getF_none (.head _) h⟩
    · exact ⟨fun d => exec_of_getF_none (.tail _ (.head _)) h, exec_of_getF_none (.tail _ (.head _)) h⟩

section
variable {s : State} {a : PReg} {q : PtReg} (hq : s.getPT a = some q)
include hq

theorem exec_pmov (d : PReg) :
    exec (.pmov d a) s = .next { s.setPT d q with inf := decide (q.val = .infinity), busy := false } := by
  rw [exec, execPmov, State.readPT_of_some hq, except_ok_bind, finish_pure, endCommand_putPoint]

theorem exec_pneg (d : PReg) :
    exec (.pneg d a) s = .next (s.putPoint d (ptNeg Config.curve q.val) q.ko).endCommand := by
  rw [exec, execPneg, State.readPT_of_some hq, except_ok_bind, finish_pure]

theorem exec_pgetx (d : FReg) :
    exec (.pgetx d a) s = finish s (q.val.coords >>= fun xy => pure (s.setF d xy.1)) := by
  rw [exec, execPgetx, State.readPT_of_some hq, except_ok_bind]

theorem exec_pgety (d : FReg) :
    exec (.pgety d a) s = finish s (q.val.coords >>= fun xy => pure (s.setF d xy.2)) := by
  rw [exec, execPgety, State.readPT_of_some hq, except_ok_bind]

theorem exec_pdbl (d : PReg) :
    exec (.pdbl d a) s = finish s (ptDouble Config.curve q.val >>= fun res => pure (s.putPoint d res false)) := by
  rw [exec, execPdbl, State.readPT_of_some hq, except_ok_bind]

theorem exec_padd {b : PReg} {q' : PtReg} (hq' : s.getPT b = some q') (d : PReg) :
    exec (.padd d a b) s =
      finish s (ptAdd Config.curve q.val q'.val >>= fun res => pure (s.putPoint d res false)) := by
  rw [exec, execPadd, State.readPT_of_some hq, State.readPT_of_some hq', except_ok_bind, except_ok_bind]

theorem exec_psmul {b : FReg} {k : Num256} (hk : s.getF b = some k) (d : PReg) :
    exec (.psmul d a b) s =
      finish s (ptSmul Config.curve q.val q.ko k.toNat >>= fun res => pure (s.putPoint d res false)) := by
  rw [exec, execPsmul, State.readPT_of_some hq, State.readF_of_some hk, except_ok_bind, except_ok_bind]

end

/-- A work that ends with a point completes by writing it. -/
theorem finish_putPoint {s : State} {x : Except Cause Point} {R : Point} (h : x = .ok R) (d : PReg) :
    finish s (x >>= fun res => pure (s.putPoint d res false)) =
      .next { s.setPT d ⟨R, false⟩ with inf := decide (R = .infinity), busy := false } := by
  rw [h, except_ok_bind, finish_pure, endCommand_putPoint]

/-- Settles O44: `modp(p - y)` is the number that adds up to 0 with `y`. -/
theorem pmovPnegResult : Obligations.PmovPnegResult := by
  refine fun d a s => ⟨fun P ko hq => exec_pmov hq d, fun ko hq => exec_pneg hq d, fun x y ko hq => ?_, fun h => ?_⟩
  · refine ⟨_, ?_, ?_, exec_pneg hq d⟩ <;> rw [toNat_toNum_modp]
    · exact modp_lt curve_p_pos _
    · rw [Nat.add_comm]
      exact modp_neg_add_mod curve_p_pos _
  · exact ⟨exec_of_getPT_none (.head _) h, exec_of_getPT_none (.head _) h⟩

/-- Settles O45: only `Infinity` has no coordinates. -/
theorem pgetxPgetyResult : Obligations.PgetxPgetyResult := by
  refine fun d a s => ⟨fun x y ko hq => ⟨exec_pgetx hq d, exec_pgety hq d⟩,
    fun ko hq => ⟨exec_pgetx hq d, exec_pgety hq d⟩, fun h => ?_⟩
  exact ⟨exec_of_getPT_none (.head _) h, exec_of_getPT_none (.head _) h⟩

/-- Settles O46: the values alone are compared. -/
theorem peqResult : Obligations.PeqResult := by
  refine fun a b s => ⟨fun P Q k₁ k₂ hP hQ => ?_, ?_⟩
  · rw [exec, execPeq, State.readPT_of_some hP, State.readPT_of_some hQ, except_ok_bind, except_ok_bind, finish_pure,
      beq_eq_decide]
    rfl
  · rintro (h | h)
    · exact exec_of_getPT_none (.head _) h
    · exact exec_of_getPT_none (.tail _ (.head _)) h

/-! ## The formulas of R142 and R144 -/

/-- An inverse that was found is one in the ring of integers modulo `m`. -/
theorem mul_invMod_zmod {a : Int} {m t : Nat} (hm : 2 ≤ m) (h : invMod a m = .ok t) : (a : ZMod m) * (t : ZMod m) = 1 := by
  obtain ⟨-, -, hmul⟩ := invMod_ok hm h
  have hcast := congrArg (Int.cast (R := ZMod m)) hmul
  rw [ZMod.intCast_mod] at hcast
  exact_mod_cast hcast

section
variable {c : Curve} (hp : 2 ≤ c.p) (hlt : c.p < 2 ^ 256)
include hp hlt

theorem isSlopeResult_chordPoint (lam x1 y1 x2 : Nat) : IsSlopeResult c lam x1 y1 x2 (chordPoint c lam x1 y1 x2) := by
  have hpos : 0 < c.p := by omega
  have toNat_toNum_modp' (x : Int) : (toNum (modp c x)).toNat = modp c x := toNat_toNum ((modp_lt hpos x).trans hlt)
  refine ⟨_, _, rfl, ?_, ?_, ?_, ?_⟩ <;> simp only [toNat_toNum_modp']
  · exact modp_lt hpos _
  · exact modp_lt hpos _
  · rw [← ZMod.natCast_eq_natCast_iff']
    push_cast
    rw [modp_zmod hpos]
    push_cast
    ring
  · rw [← ZMod.natCast_eq_natCast_iff']
    push_cast
    rw [modp_zmod hpos]
    push_cast
    ring

/-- What `pt_double` gives is the double (R142): its slope solves `lam · 2y ≡ 3x² + a`. -/
theorem isDouble_of_ptDouble {P R : Point} (h : ptDouble c P = .ok R) : IsDouble c P R := by
  have hpos : 0 < c.p := by omega
  cases P with
  | infinity =>
    cases h
    rfl
  | affine x y =>
    rw [ptDouble] at h
    split at h
    · cases h
    · next hy =>
      obtain ⟨t, ht, h⟩ := except_bind_eq_ok.mp h
      cases h
      refine ⟨hy, _, modp_lt hpos _, ?_, isSlopeResult_chordPoint hp hlt _ _ _ _⟩
      have hinv := mul_invMod_zmod hp ht
      push_cast at hinv
      rw [← ZMod.natCast_eq_natCast_iff']
      push_cast
      rw [modp_zmod hpos]
      push_cast
      linear_combination (3 * (x.toNat : ZMod c.p) * x.toNat + c.a) * hinv

/-- What `pt_add` gives is the sum (R144): the slope of the chord solves `lam · (x2 - x1) ≡ y2 - y1`. -/
theorem isSum_of_ptAdd {P Q R : Point} (h : ptAdd c P Q = .ok R) : IsSum c P Q R := by
  have hpos : 0 < c.p := by omega
  cases P with
  | infinity =>
    cases h
    rfl
  | affine x1 y1 =>
    cases Q with
    | infinity =>
      cases h
      rfl
    | affine x2 y2 =>
      rw [ptAdd, ← Nat.cast_add, modp_natCast] at h
      rw [IsSum]
      split at h
      · next hinv =>
        cases h
        rw [if_pos hinv]
      · next hinv =>
        rw [if_neg hinv]
        split at h
        · next heq =>
          rw [if_pos heq]
          exact isDouble_of_ptDouble hp hlt h
        · next hne =>
          rw [if_neg hne]
          obtain ⟨t, ht, h⟩ := except_bind_eq_ok.mp h
          cases h
          refine ⟨_, modp_lt hpos _, ?_, isSlopeResult_chordPoint hp hlt _ _ _ _⟩
          have hinv := mul_invMod_zmod hp ht
          push_cast at hinv
          rw [← ZMod.natCast_eq_natCast_iff']
          push_cast
          rw [modp_zmod hpos]
          push_cast
          linear_combination ((y2.toNat : ZMod c.p) - y1.toNat) * hinv

end

/-! ## The group of this curve -/

/-- Settles O47: `pt_double` succeeds on a valid point, and what it then gives is the double. -/
theorem pdblResult : Obligations.PdblResult := by
  refine fun d a s => ⟨fun P ko hq hP => ?_, fun x ko hq => ?_, fun h => exec_of_getPT_none (.head _) h⟩
  · obtain ⟨R, hR, hv⟩ := ptDouble_valid hP
    exact ⟨R, isDouble_of_ptDouble prime_modulus.two_le curve_p_lt hR, hv, (exec_pdbl hq d).trans (finish_putPoint hR d)⟩
  · rw [exec_pdbl hq]
    rfl

/-- Settles O48: `pt_add` succeeds on valid points, and what it then gives is the sum. -/
theorem paddResult : Obligations.PaddResult := by
  refine fun d a b s => ⟨fun P Q k₁ k₂ hP hQ hPv hQv => ?_, ?_⟩
  · obtain ⟨R, hR, hv⟩ := ptAdd_valid hPv hQv
    exact ⟨R, isSum_of_ptAdd prime_modulus.two_le curve_p_lt hR, hv,
      (exec_padd hP hQ d).trans (finish_putPoint hR d)⟩
  · rintro (h | h)
    · exact exec_of_getPT_none (.head _) h
    · exact exec_of_getPT_none (.tail _ (.head _)) h

/-- `pt_smul` and repeated addition give the same point, for the scalar that is left after the reduction (R146). -/
theorem ptSmul_eq_repeatedAdd {P : Point} (hP : P.Valid Config.curve) (ko : Bool) (k : Nat) :
    ∃ R, ptSmul Config.curve P ko k = .ok R ∧ R.Valid Config.curve ∧
      repeatedAdd Config.curve P (if ko then k % Config.curve.r else k) = .ok R := by
  have := curve_fact_prime
  obtain ⟨R, hR, hv, hw⟩ := ptSmul_toW curve_wf curve_noVerticalTangent hP ko k
  obtain ⟨R', hR', hv', hw'⟩ := repeatedAdd_toW curve_wf hP (if ko then k % Config.curve.r else k)
  obtain rfl := Point.toW_injective curve_wf hv hv' (hw.trans hw'.symm)
  exact ⟨R, hR, hv, hR'⟩

/-- Settles O49: both ways of multiplying compute the same multiple in the group. -/
theorem psmulIsRepeatedAddition : Obligations.PsmulIsRepeatedAddition := by
  refine fun d a b s => ⟨fun P ko k hq hk hP => ?_, ?_⟩
  · obtain ⟨R, hR, hv, hrep⟩ := ptSmul_eq_repeatedAdd hP ko k.toNat
    exact ⟨R, hrep, hv, (exec_psmul hq hk d).trans (finish_putPoint hR d)⟩
  · rintro (h | h)
    · exact exec_of_getPT_none (.head _) h
    · exact exec_of_getF_none (.head _) h

/-- `r` times the base point is `Infinity` (R8), by running `pt_smul`. -/
theorem ptSmul_basePoint_order : ptSmul Config.curve (basePoint Config.curve) false Config.curve.r = .ok .infinity := by
  decide +kernel

/-- Settles O52: the Pratt certificate, the checkable constraints, and the order of the base point. -/
theorem curveIsLawful : Obligations.CurveIsLawful where
  prime := prime_modulus
  wf := curve_wf
  order := ptSmul_basePoint_order

theorem order_nsmul_basePoint [Fact Config.curve.p.Prime] :
    Config.curve.r • Point.toW Config.curve (basePoint Config.curve) = 0 := by
  obtain ⟨R, hR, -, hw⟩ := ptSmul_toW curve_wf curve_noVerticalTangent basePoint_valid false Config.curve.r
  cases hR.symm.trans ptSmul_basePoint_order
  exact hw.symm

/-- A point with a known order has the order `r` (R23). -/
theorem order_nsmul_of_knownOrder [Fact Config.curve.p.Prime] {P : Point}
    (h : P = basePoint Config.curve ∨ P = ptNeg Config.curve (basePoint Config.curve)) :
    Config.curve.r • Point.toW Config.curve P = 0 := by
  rcases h with rfl | rfl
  · exact order_nsmul_basePoint
  · rw [(ptNeg_toW curve_wf basePoint_valid).2, neg_nsmul, order_nsmul_basePoint, neg_zero]

/-- Settles O50: `k` and `k mod r` have the same multiple of a point of order `r`. -/
theorem psmulKnownOrderAgrees : Obligations.PsmulKnownOrderAgrees := by
  have := curve_fact_prime
  intro d a b s q k hs hq hk
  have hP := hs.points a q hq
  obtain ⟨R, hR, hv, hw⟩ := ptSmul_toW curve_wf curve_noVerticalTangent hP q.ko k.toNat
  obtain ⟨R', hR', hv', hw'⟩ := repeatedAdd_toW curve_wf hP k.toNat
  have hsame : (if q.ko then k.toNat % Config.curve.r else k.toNat) • Point.toW Config.curve q.val =
      k.toNat • Point.toW Config.curve q.val := by
    split
    · next hko => exact (nsmul_eq_mod_nsmul _ (order_nsmul_of_knownOrder (hs.knownOrder a q hq hko))).symm
    · rfl
  obtain rfl := Point.toW_injective curve_wf hv hv' (hw.trans (hsame.trans hw'.symm))
  exact ⟨R, hR', (exec_psmul hq hk d).trans (finish_putPoint hR d)⟩

/-! ## The laws of the group -/

/-- `pt_add` gives the one valid point that is the sum in the group. -/
theorem ptAdd_eq_ok_iff {c : Curve} [Fact c.p.Prime] (hwf : c.wf = true) {P Q R : Point} (hP : P.Valid c) (hQ : Q.Valid c)
    (hR : R.Valid c) : ptAdd c P Q = .ok R ↔ Point.toW c R = Point.toW c P + Point.toW c Q := by
  obtain ⟨S, hS, hv, hw⟩ := ptAdd_toW hwf hP hQ
  rw [hS, ← hw, Except.ok.injEq]
  exact ⟨fun h => h ▸ rfl, fun h => Point.toW_injective hwf hv hR h.symm⟩

/-- Settles O51: each law is one of the group that the functions compute in. -/
theorem groupLaws : Obligations.GroupLaws := by
  have := curve_fact_prime
  refine ⟨fun P Q R hP hQ hR => ⟨?_, ?_, ?_⟩, fun P Q k hP hQ _ => ?_, fun ko => ?_⟩
  · exact (ptAdd_eq_ok_iff curve_wf hP (Q := .infinity) trivial hP).mpr (by simp)
  · obtain ⟨hN, hw⟩ := ptNeg_toW curve_wf hP
    exact (ptAdd_eq_ok_iff curve_wf hP hN (R := .infinity) trivial).mpr (by rw [hw, add_neg_cancel, Point.toW_infinity])
  · obtain ⟨PQ, hPQ, hPQv, hPQw⟩ := ptAdd_toW curve_wf hP hQ
    obtain ⟨QR, hQR, hQRv, hQRw⟩ := ptAdd_toW curve_wf hQ hR
    obtain ⟨S, hS, hSv, hSw⟩ := ptAdd_toW curve_wf hPQv hR
    exact ⟨PQ, QR, S, hPQ, (ptAdd_eq_ok_iff curve_wf hQ hP hPQv).mpr (by rw [hPQw, add_comm]), hQR, hS,
      (ptAdd_eq_ok_iff curve_wf hP hQRv hSv).mpr (by rw [hSw, hPQw, hQRw, add_assoc])⟩
  · obtain ⟨PQ, hPQ, hPQv, hPQw⟩ := ptAdd_toW curve_wf hP hQ
    obtain ⟨kP, hkP, hkPv, hkPw⟩ := ptSmul_toW curve_wf curve_noVerticalTangent hP false k
    obtain ⟨kQ, hkQ, hkQv, hkQw⟩ := ptSmul_toW curve_wf curve_noVerticalTangent hQ false k
    obtain ⟨S, hS, hSv, hSw⟩ := ptSmul_toW curve_wf curve_noVerticalTangent hPQv false k
    exact ⟨PQ, kP, kQ, S, hPQ, hkP, hkQ, hS,
      (ptAdd_eq_ok_iff curve_wf hkPv hkQv hSv).mpr (by rw [hSw, hPQw, hkPw, hkQw, ← nsmul_add])⟩
  · cases ko with
    | false => exact ptSmul_basePoint_order
    | true => simp [ptSmul]

end Sys2Proof.Machine
end

section
/-! The results of the codec commands (43_codec.md sections 1 and 2): the prefix bytes, the bytes of a point form, the
search of `recover_y`, and that the two directions undo each other. -/

namespace Sys2Proof.Machine

/-! ## Prefix bytes -/

theorem decPrefix_encPrefix : ∀ (l : PfxLayout) (parity : Bool) (offset : BitVec 7),
    decPrefix l (encPrefix l parity offset) = (parity, offset)
  | .offsetLow => by decide +kernel
  | .parityLow => by decide +kernel

theorem encPrefix_decPrefix : ∀ (l : PfxLayout) (byte : Byte), encPrefix l (decPrefix l byte).1 (decPrefix l byte).2 = byte
  | .offsetLow => by decide +kernel
  | .parityLow => by decide +kernel

/-- Settles O58: both layouts put the bits side by side. -/
theorem prefixFunctionsInverse : Obligations.PrefixFunctionsInverse := by
  refine ⟨decPrefix_encPrefix, encPrefix_decPrefix, fun parity offset => ⟨?_, ?_⟩⟩ <;>
    rw [encPrefix, BitVec.toNat_append, BitVec.toNat_ofBool]

/-- The prefix byte of a compressed form is told by its parity. -/
theorem compressedPrefix_getLsbD {b : Byte} (hb : b = 0x02 ∨ b = 0x03) : compressedPrefix (b.getLsbD 0) = b := by
  rcases hb with rfl | rfl <;> decide

theorem toNat_encPrefix_offsetLow (parity : Bool) (offset : BitVec 7) :
    (encPrefix .offsetLow parity offset).toNat = 128 * parity.toNat + offset.toNat := by
  have hlt := offset.isLt
  rw [encPrefix, BitVec.toNat_append, BitVec.toNat_ofBool, ← Nat.shiftLeft_add_eq_or_of_lt hlt, Nat.shiftLeft_eq,
    Nat.mul_comm]

theorem exec_pfxe_of_compressed {s : State} {off : Off} (hb : s.readBuf off.toNat = 0x02 ∨ s.readBuf off.toNat = 0x03) :
    exec (.pfxe off) s = .next
      (s.memWrite off.toNat [encPrefix .offsetLow ((s.readBuf off.toNat).getLsbD 0) s.offs]).endCommand := by
  rw [exec, execPfxe, if_pos ((isCompressedPrefix_iff _).mpr hb)]
  rfl

theorem exec_pfxd_eq (s : State) (off : Off) :
    exec (.pfxd off) s = .next
      ((s.memWrite off.toNat [compressedPrefix (decPrefix .offsetLow (s.readBuf off.toNat)).1]).setOffs
        (decPrefix .offsetLow (s.readBuf off.toNat)).2).endCommand :=
  rfl

theorem toNat_getLsbD_zero {w : Nat} (v : BitVec w) : (v.getLsbD 0).toNat = v.toNat % 2 := by
  rw [BitVec.getLsbD, Nat.toNat_testBit, pow_zero, Nat.div_one]

/-- Settles O57: with `OFFSET_LOW` the parity is the byte's top bit and `OFFS` the seven below it. -/
theorem pfxePfxdResult : Obligations.PfxePfxdResult := by
  refine fun off s => ⟨fun hb => ⟨_, ?_, exec_pfxe_of_compressed hb⟩, fun h2 h3 => ?_,
    compressedPrefix (decPrefix .offsetLow (s.readBuf off.toNat)).1, (decPrefix .offsetLow (s.readBuf off.toNat)).2, ?_, ?_,
    exec_pfxd_eq s off⟩
  · rw [toNat_encPrefix_offsetLow, toNat_getLsbD_zero]
  · rw [exec, execPfxe, if_neg fun h => ((isCompressedPrefix_iff _).mp h).elim h2 h3]
    rfl
  · have hlt := (s.readBuf off.toNat).isLt
    rw [toNat_compressedPrefix, decPrefix, BitVec.getLsbD, Nat.toNat_testBit]
    omega
  · rw [decPrefix, BitVec.extractLsb'_toNat, Nat.shiftRight_zero]

theorem State.readBuf_memWrite_singleton (s : State) (a : Nat) (b : Byte) (k : Nat) :
    (s.memWrite a [b]).readBuf k = if k = a then b else s.readBuf k :=
  Memory.read_write s.buf a b k

/-- Settles O59: the two prefix functions are inverse, and a prefix byte is told by its parity. -/
theorem pfxdUndoesPfxe : Obligations.PfxdUndoesPfxe := by
  intro off s t u hb ht hbyte hoffs
  cases ht.symm.trans (exec_pfxe_of_compressed hb)
  have hbyte : u.readBuf off.toNat = encPrefix .offsetLow ((s.readBuf off.toNat).getLsbD 0) s.offs :=
    hbyte.trans ((s.readBuf_memWrite_singleton _ _ _).trans (if_pos rfl))
  refine ⟨_, exec_pfxd_eq u off, ?_, ?_⟩ <;> rw [hbyte, decPrefix_encPrefix]
  · exact ((u.readBuf_memWrite_singleton _ _ _).trans (if_pos rfl)).trans (compressedPrefix_getLsbD hb)
  · rfl

/-! ## The bytes of a point form -/

theorem Memory.writeBytes_append (m : Memory) (a : Nat) (str₁ str₂ : List Byte) :
    m.writeBytes a (str₁ ++ str₂) = (m.writeBytes a str₁).writeBytes (a + str₁.length) str₂ := by
  induction str₁ generalizing m a with
  | nil => rfl
  | cons b str₁ ih =>
    rw [List.cons_append, Memory.writeBytes, Memory.writeBytes, ih, List.length_cons, Nat.add_right_comm, Nat.add_assoc]

/-- A compressed form is the prefix byte and then `x`. -/
theorem memWrite_serialize_true (s : State) (a : Nat) (x y : Num256) :
    s.memWrite a (serialize true x y) =
      (s.memWrite a [compressedPrefix (y.getLsbD 0)]).memWrite (a + 1) (bytesBE32 x) :=
  rfl

/-- An uncompressed form is the prefix byte, `x`, and then `y`. -/
theorem memWrite_serialize_false (s : State) (a : Nat) (x y : Num256) :
    s.memWrite a (serialize false x y) =
      ((s.memWrite a [uncompressedPrefix]).memWrite (a + 1) (bytesBE32 x)).memWrite (a + 33) (bytesBE32 y) := by
  have h := Memory.writeBytes_append (s.buf.write a uncompressedPrefix) (a + 1) (bytesBE32 x) (bytesBE32 y)
  rw [length_bytesBE32, Nat.add_assoc] at h
  exact congrArg (fun m => { s with buf := m }) h

theorem State.readBuf_memWrite_of_lt (s : State) {a k : Nat} (str : List Byte) (h : k < a) :
    (s.memWrite a str).readBuf k = s.readBuf k :=
  Memory.read_writeBytes_outside _ _ _ _ (.inl h)

theorem readBuf_serialize_prefix (s : State) (a : Nat) (m : Bool) (x y : Num256) :
    (s.memWrite a (serialize m x y)).readBuf a = if m then compressedPrefix (y.getLsbD 0) else uncompressedPrefix := by
  cases m with
  | true =>
    rw [memWrite_serialize_true, State.readBuf_memWrite_of_lt _ _ (by omega), State.readBuf_memWrite_singleton, if_pos rfl,
      if_pos rfl]
  | false =>
    rw [memWrite_serialize_false, State.readBuf_memWrite_of_lt _ _ (by omega),
      State.readBuf_memWrite_of_lt _ _ (by omega), State.readBuf_memWrite_singleton, if_pos rfl]
    rfl

theorem readBuf_serialize_x (s : State) (a : Nat) (m : Bool) (x y : Num256) {k : Nat} (hk : k < 32) :
    (s.memWrite a (serialize m x y)).readBuf (a + 1 + k) = x.extractLsb' (248 - 8 * k) 8 := by
  cases m with
  | true => rw [memWrite_serialize_true, readBuf_memWrite_bytesBE32_add _ _ _ hk]
  | false =>
    rw [memWrite_serialize_false, State.readBuf_memWrite_of_lt _ _ (by omega), readBuf_memWrite_bytesBE32_add _ _ _ hk]

theorem readBuf_serialize_y (s : State) (a : Nat) (x y : Num256) {k : Nat} (hk : k < 32) :
    (s.memWrite a (serialize false x y)).readBuf (a + 33 + k) = y.extractLsb' (248 - 8 * k) 8 := by
  rw [memWrite_serialize_false, readBuf_memWrite_bytesBE32_add _ _ _ hk]

theorem readBuf_serialize_outside (s : State) (a : Nat) (m : Bool) (x y : Num256) {k : Nat}
    (hk : k < a ∨ a + formLength m ≤ k) : (s.memWrite a (serialize m x y)).readBuf k = s.readBuf k :=
  Memory.read_writeBytes_outside _ _ _ _ (by rwa [length_serialize])

theorem exec_pser {s : State} {a : PReg} {q : PtReg} (hq : s.getPT a = some q) (off : Off) (m : Bool) :
    exec (.pser a off m) s = finish s (checkRange off.toNat (formLength m) >>= fun _ =>
      q.val.coords >>= fun xy => pure (s.memWrite off.toNat (serialize m xy.1 xy.2))) := by
  rw [exec, execPser, State.readPT_of_some hq, except_ok_bind]

/-- The last offset from which a point form fits (R183). -/
theorem fits_iff (m : Bool) (n : Nat) : n ≤ (if m then 95 else 63) ↔ n + formLength m ≤ 128 := by
  cases m <;> simp only [formLength, if_true, if_false, Bool.false_eq_true] <;> omega

theorem exec_pser_affine {s : State} {a : PReg} {x y : Num256} {ko : Bool} (hq : s.getPT a = some ⟨.affine x y, ko⟩)
    {off : Off} {m : Bool} (hoff : off.toNat ≤ (if m then 95 else 63)) :
    exec (.pser a off m) s = .next (s.memWrite off.toNat (serialize m x y)).endCommand := by
  rw [exec_pser hq, checkRange_of_le ((fits_iff m _).mp hoff)]
  rfl

/-- Settles O53: the bytes of the two forms, the bytes outside them, and the three faults in their order. -/
theorem pserResult : Obligations.PserResult := by
  refine fun a off s => ⟨fun x y ko hq hoff => ?_, fun x y ko hq hoff => ?_, fun m =>
    ⟨fun h => exec_of_getPT_none (.head _) h, fun ha hoff => ?_, fun ko hq hoff => ?_⟩⟩
  · refine ⟨_, exec_pser_affine (m := true) hq hoff, rfl, ?_, fun k hk => readBuf_serialize_x s _ true x y hk,
      fun k hk => readBuf_serialize_outside s _ true x y hk⟩
    have h := congrArg BitVec.toNat (readBuf_serialize_prefix s off.toNat true x y)
    rwa [if_pos rfl, toNat_compressedPrefix, toNat_getLsbD_zero] at h
  · exact ⟨_, exec_pser_affine (m := false) hq hoff, rfl, readBuf_serialize_prefix s _ false x y,
      fun k hk => readBuf_serialize_x s _ false x y hk, fun k hk => readBuf_serialize_y s _ x y hk,
      fun k hk => readBuf_serialize_outside s _ false x y hk⟩
  · obtain ⟨q, hq⟩ := Option.ne_none_iff_exists'.mp ha
    rw [exec_pser hq, checkRange_of_gt (not_le.mp (mt (fits_iff m _).mpr (not_le.mpr hoff)))]
    rfl
  · rw [exec_pser hq, checkRange_of_le ((fits_iff m _).mp hoff)]
    rfl

/-! ## The search of `recover_y` -/

/-- What `recover_y` answers (R161): the first candidate that has a point, with the root of the wanted parity; or, where
none of the 128 has one, `PointEncodingExhausted`. -/
theorem recoverY_cases (x : Nat) (wantOdd : Bool) :
    (∃ k y, k < 128 ∧ (∀ j, j < k → ¬HasPoint Config.curve (x + j)) ∧ x + k < Config.curve.p ∧ y < Config.curve.p ∧
      onCurve Config.curve (x + k) y = true ∧ decide (y % 2 = 1) = wantOdd ∧
      recoverY Config.curve x wantOdd = .ok (x + k, y, k)) ∨
    ((∀ k, k < 128 → ¬HasPoint Config.curve (x + k)) ∧
      recoverY Config.curve x wantOdd = .error .pointEncodingExhausted) := by
  have := curve_fact_prime
  rcases recoverSearch_cases curve_mod_four x wantOdd Config.maxOff 0 with
    ⟨k, y, -, hk, hbelow, hx, hy, hon, heq⟩ | ⟨hnone, heq⟩
  · rw [Nat.zero_add] at hk
    exact .inl ⟨k, _, hk, fun j => hbelow j j.zero_le, hx, chooseParity_lt curve_p_pos hy wantOdd,
      onCurve_chooseParity curve_p_pos wantOdd hon, chooseParity_parity curve_mod_four (onCurve_y_ne_zero hx hon) hy wantOdd,
      heq⟩
  · rw [Nat.zero_add] at hnone
    exact .inr ⟨fun k => hnone k k.zero_le, heq⟩

theorem Point.Valid.hasPoint {c : Curve} {x y : Num256} (h : (Point.affine x y).Valid c) : HasPoint c x.toNat :=
  ⟨h.1, y.toNat, h.2.1, h.2.2⟩

theorem exec_recy {s : State} {a : FReg} {x : Num256} (hx : s.getF a = some x) (d : PReg) (m : Bool) :
    exec (.recy d a m) s = finish s (recoverY Config.curve x.toNat m >>= fun found =>
      pure ((s.putPoint d (.affine (toNum found.1) (toNum found.2.1)) false).setOffs (BitVec.ofNat 7 found.2.2))) := by
  rw [exec, execRecy, State.readF_of_some hx, except_ok_bind]

theorem finish_bind_error {α : Type} {s : State} {x : Except Cause α} {f : α → Except Cause State} {c : Cause}
    (h : x = .error c) : finish s (x >>= f) = .next (s.raise c) := by
  rw [h, except_error_bind, finish_error]

/-- Settles O56: the search stops at the smallest offset with a point, or there is none. -/
theorem recyResult : Obligations.RecyResult := by
  refine fun d a wantOdd s => ⟨fun x hx hsome => ?_, fun x hx hnone => ?_, fun h => exec_of_getF_none (.head _) h⟩
  · rcases recoverY_cases x.toNat wantOdd with ⟨k, y, hk, hbelow, hxk, hy, hon, hpar, heq⟩ | ⟨hnone, -⟩
    · have hmx := toNat_toNum_of_lt hxk
      have hmy := toNat_toNum_of_lt hy
      refine ⟨k, toNum (x.toNat + k), toNum y, hk, hmx, ?_, hbelow, by rwa [hmy], ?_⟩
      · exact ⟨by rwa [hmx], by rwa [hmy], by rwa [hmx, hmy]⟩
      · rw [exec_recy hx, heq]
        rfl
    · obtain ⟨k, hk, hpoint⟩ := hsome
      exact absurd hpoint (hnone k hk)
  · rcases recoverY_cases x.toNat wantOdd with ⟨k, y, hk, -, hxk, hy, hon, -, -⟩ | ⟨-, heq⟩
    · exact absurd ⟨hxk, y, hy, hon⟩ (hnone k hk)
    · rw [exec_recy hx, finish_bind_error heq]

/-! ## Reading a point form -/

section
variable {s : State} {off : Off} {b : Byte} (hb : s.readBuf off.toNat = b) (d : PReg)
include hb

theorem exec_pdes_of_fits (hprefix : (isCompressedPrefix b || b == uncompressedPrefix) = true)
    (hoff : off.toNat + formLength (isCompressedPrefix b) ≤ 128) :
    exec (.pdes d off) s =
      finish s (s.deserialize Config.curve off.toNat >>= fun val => pure (s.putPoint d val false)) := by
  rw [exec, execPdes, hb, if_pos hprefix, checkRange_of_le hoff, except_ok_bind]

theorem exec_pdes_of_not_fits (hprefix : (isCompressedPrefix b || b == uncompressedPrefix) = true)
    (hoff : 128 < off.toNat + formLength (isCompressedPrefix b)) :
    exec (.pdes d off) s = .next (s.raise .bufRange) := by
  rw [exec, execPdes, hb, if_pos hprefix, checkRange_of_gt hoff, except_error_bind, finish_error]

end

theorem isCompressedPrefix_of_eq {b : Byte} (hb : b = 0x02 ∨ b = 0x03) : isCompressedPrefix b = true :=
  (isCompressedPrefix_iff b).mpr hb

theorem deserialize_uncompressed {s : State} {off : Nat} (hb : s.readBuf off = 0x04) (c : Curve) :
    s.deserialize c off = makePoint c (s.readNum (off + 1)) (s.readNum (off + 33)) := by
  rw [State.deserialize, hb]
  rfl

theorem deserialize_compressed {s : State} {off : Nat} (hb : s.readBuf off = 0x02 ∨ s.readBuf off = 0x03) (c : Curve) :
    s.deserialize c off = recoverY c (s.readNum (off + 1)).toNat ((s.readBuf off).getLsbD 0) >>= fun found =>
      makePoint c (s.readNum (off + 1)) (toNum found.2.1) := by
  have hne : s.readBuf off ≠ uncompressedPrefix := by rcases hb with h | h <;> rw [h] <;> decide
  rw [State.deserialize, if_neg hne, if_pos (isCompressedPrefix_of_eq hb)]

theorem exec_pdes_uncompressed {s : State} {off : Off} (hb : s.readBuf off.toNat = 0x04) (hoff : off.toNat ≤ 63)
    (d : PReg) :
    exec (.pdes d off) s = finish s (makePoint Config.curve (s.readNum (off.toNat + 1)) (s.readNum (off.toNat + 33)) >>=
      fun val => pure (s.putPoint d val false)) := by
  rw [exec_pdes_of_fits hb d rfl ((fits_iff false _).mp hoff), deserialize_uncompressed hb]

theorem exec_pdes_compressed {s : State} {off : Off} (hb : s.readBuf off.toNat = 0x02 ∨ s.readBuf off.toNat = 0x03)
    (hoff : off.toNat ≤ 95) (d : PReg) :
    exec (.pdes d off) s =
      finish s (s.deserialize Config.curve off.toNat >>= fun val => pure (s.putPoint d val false)) := by
  have hprefix := isCompressedPrefix_of_eq hb
  exact exec_pdes_of_fits rfl d (by rw [hprefix, Bool.true_or]) (by rw [hprefix]; exact (fits_iff true _).mp hoff)

/-- Settles O54: validation of the two numbers that are read, the range, and the prefixes. -/
theorem pdesUncompressed : Obligations.PdesUncompressed := by
  refine fun d off s => ⟨fun hb hoff => ?_, fun hb hoff => ?_, fun hb hoff => ?_, fun h2 h3 h4 => ?_⟩
  · refine ⟨_, _, toNat_readNum s _, toNat_readNum s _, fun hv => ?_, fun hn => ?_⟩ <;> rw [exec_pdes_uncompressed hb hoff d]
    · exact finish_putPoint (makePoint_of_valid hv) d
    · exact finish_bind_error (makePoint_of_not_valid hn)
  · exact exec_pdes_of_not_fits hb d rfl (not_le.mp (mt (fits_iff false _).mpr (not_le.mpr hoff)))
  · have hprefix := isCompressedPrefix_of_eq hb
    refine exec_pdes_of_not_fits rfl d (by rw [hprefix, Bool.true_or]) ?_
    rw [hprefix]
    exact not_le.mp (mt (fits_iff true _).mpr (not_le.mpr hoff))
  · have hbad : ¬(isCompressedPrefix (s.readBuf off.toNat) || s.readBuf off.toNat == uncompressedPrefix) = true := by
      rw [Bool.or_eq_true, isCompressedPrefix_iff, beq_iff_eq]
      rintro ((h | h) | h)
      exacts [h2 h, h3 h, h4 h]
    rw [exec, execPdes, if_neg hbad]
    rfl

/-- What reading a compressed form answers (R164): the point over the `x` that was read, where the search stops at offset
0; else the validation of that `x` fails, or the search has already failed. -/
theorem deserialize_compressed_cases {s : State} {off : Nat} {x : Num256}
    (hb : s.readBuf off = 0x02 ∨ s.readBuf off = 0x03) (hx : s.readNum (off + 1) = x) :
    (∃ y, (Point.affine x y).Valid Config.curve ∧ y.toNat % 2 = (s.readBuf off).toNat % 2 ∧
      s.deserialize Config.curve off = .ok (.affine x y)) ∨
    (¬HasPoint Config.curve x.toNat ∧ (∃ k, k < 128 ∧ HasPoint Config.curve (x.toNat + k)) ∧
      s.deserialize Config.curve off = .error .invalidCurvePoint) ∨
    ((∀ k, k < 128 → ¬HasPoint Config.curve (x.toNat + k)) ∧
      s.deserialize Config.curve off = .error .pointEncodingExhausted) := by
  rw [deserialize_compressed hb, hx, getLsbD_zero_eq]
  rcases recoverY_cases x.toNat (decide ((s.readBuf off).toNat % 2 = 1)) with
    ⟨k, y, hk, hbelow, hxk, hy, hon, hpar, heq⟩ | ⟨hnone, heq⟩ <;> rw [heq]
  · have hmy := toNat_toNum_of_lt hy
    rcases Nat.eq_zero_or_pos k with rfl | hpos
    · have hv : (Point.affine x (toNum y)).Valid Config.curve := ⟨hxk, by rwa [hmy], by rwa [hmy]⟩
      refine .inl ⟨toNum y, hv, ?_, makePoint_of_valid hv⟩
      rw [hmy]
      have hiff := decide_eq_decide.mp hpar
      omega
    · have hno : ¬HasPoint Config.curve x.toNat := hbelow 0 hpos
      exact .inr (.inl ⟨hno, ⟨k, hk, hxk, y, hy, hon⟩, makePoint_of_not_valid fun hv => hno hv.hasPoint⟩)
  · exact .inr (.inr ⟨hnone, rfl⟩)

/-- Settles O55: the three outcomes exclude each other. -/
theorem pdesCompressed : Obligations.PdesCompressed := by
  intro d off s x hb hoff hx
  have hnum : s.readNum (off.toNat + 1) = x := BitVec.eq_of_toNat_eq ((toNat_readNum s _).trans hx.symm)
  rw [exec_pdes_compressed hb hoff d]
  rcases deserialize_compressed_cases hb hnum with ⟨y, hv, hpar, heq⟩ | ⟨hno, hsome, heq⟩ | ⟨hnone, heq⟩
  · exact ⟨fun _ => ⟨y, hv, hpar, finish_putPoint heq d⟩, fun hno => absurd hv.hasPoint hno,
      fun hnone => absurd hv.hasPoint (hnone 0 (by decide))⟩
  · obtain ⟨k, hk, hpoint⟩ := hsome
    exact ⟨fun hyes => absurd hyes hno, fun _ _ => finish_bind_error heq, fun hnone => absurd hpoint (hnone k hk)⟩
  · exact ⟨fun hyes => absurd hyes (hnone 0 (by decide)), fun _ ⟨k, hk, hpoint⟩ => absurd hpoint (hnone k hk),
      fun _ => finish_bind_error heq⟩

/-! ## There and back -/

/-- Over one `x` the points of the curve are told apart by the parity of `y`, because `p` is odd. -/
theorem eq_of_valid_of_parity {x y y' : Num256} (hv : (Point.affine x y).Valid Config.curve)
    (hv' : (Point.affine x y').Valid Config.curve) (hpar : y.toNat % 2 = y'.toNat % 2) : y = y' := by
  have := curve_fact_prime
  obtain ⟨-, hy, hon⟩ := hv
  obtain ⟨-, hy', hon'⟩ := hv'
  rw [onCurve_iff_isRoot, isRoot_iff] at hon hon'
  rcases mul_self_eq_mul_self_iff.mp (hon.trans hon'.symm) with h | h
  · exact num_eq_of_zmod hy hy' h
  · have hsum : ((y.toNat + y'.toNat : Nat) : ZMod Config.curve.p) = 0 := by
      push_cast
      rw [h, neg_add_cancel]
    obtain ⟨n, hn⟩ := (ZMod.natCast_eq_zero_iff _ _).mp hsum
    have hodd := curve_mod_four
    have hn2 : n < 2 := by
      by_contra hge
      nlinarith
    generalize Config.curve.p = p at *
    apply BitVec.eq_of_toNat_eq
    interval_cases n <;> omega

theorem readNum_eq_of_bytes {s : State} {a : Nat} {v : Num256}
    (h : ∀ k, k < 32 → s.readBuf (a + k) = v.extractLsb' (248 - 8 * k) 8) : s.readNum a = v :=
  BitVec.eq_of_toNat_eq ((toNat_readNum s a).trans (be_memRead_of_bytes h))

/-- Settles O60: the bytes of the form give the prefix and the numbers again, and in the compressed form the parity tells
which `y` it was. -/
theorem codecRoundTrip : Obligations.CodecRoundTrip := by
  intro a d off m s u x y ko hq hv hoff
  refine ⟨_, exec_pser_affine hq hoff, fun hsame => ?_⟩
  have hlen : 33 ≤ formLength m := by cases m <;> decide
  have hprefix : u.readBuf off.toNat = if m then compressedPrefix (y.getLsbD 0) else uncompressedPrefix :=
    (hsame _ (by omega) (by omega)).trans (readBuf_serialize_prefix s _ m x y)
  have hx : u.readNum (off.toNat + 1) = x := readNum_eq_of_bytes fun k hk =>
    (hsame _ (by omega) (by omega)).trans (readBuf_serialize_x s _ m x y hk)
  cases m with
  | true =>
    rw [if_pos rfl] at hprefix
    have hb : u.readBuf off.toNat = 0x02 ∨ u.readBuf off.toNat = 0x03 := by
      rw [hprefix]
      cases y.getLsbD 0 <;> decide
    rw [exec_pdes_compressed hb hoff]
    rcases deserialize_compressed_cases hb hx with ⟨y', hv', hpar, heq⟩ | ⟨hno, -⟩ | ⟨hnone, -⟩
    · rw [hprefix, toNat_compressedPrefix, toNat_getLsbD_zero] at hpar
      obtain rfl := eq_of_valid_of_parity hv' hv (by omega)
      exact finish_putPoint heq d
    · exact absurd hv.hasPoint hno
    · exact absurd hv.hasPoint (hnone 0 (by decide))
  | false =>
    have h65 : formLength false = 65 := rfl
    have hy : u.readNum (off.toNat + 33) = y := readNum_eq_of_bytes fun k hk =>
      (hsame _ (by omega) (by omega)).trans (readBuf_serialize_y s _ x y hk)
    rw [exec_pdes_uncompressed hprefix hoff, hx, hy]
    exact finish_putPoint (makePoint_of_valid hv) d

end Sys2Proof.Machine
end
